-- ==== Sys2Proof/Word.lean ====
section
/-! DEFINITION. The word types of the block: everything the manual treats as bits. -/

namespace Sys2Proof

/-- A "u64": every register, memory word and operand is a 64-bit unsigned integer (R8 XLEN, R9). -/
abbrev Word := BitVec 64

/-- One byte lane of a host access (R61). -/
abbrev Byte := BitVec 8

/-- A 4-bit register field; it names general register `x[r]`, r in 0..15 (R92). -/
abbrev Reg := BitVec 4

end Sys2Proof
end

