-- ==== Sys2Proof/Config.lean ====
section
/-! DEFINITION. What an implementation fixes (the `param` rows of R8, carried as plain data) and the
free values the manual leaves open (opaque constants without a body). -/

namespace Sys2Proof

/-- The `param` rows of R8, with their defaults. The rule says that a model takes each of them as an
argument: the machine's state carries one `Params` that no step changes, so a claim about every
state is a claim about every parameter setting (assumption 1). -/
structure Params where
  /-- MAX_DEGREE_BITS: default 17, legal range 1..20. -/
  maxDegreeBits : Nat := 17
  /-- DMEM_WORDS: default 2^18, legal range 2·NMAX .. 2^21. -/
  dmemWords : Nat := 2 ^ 18
  /-- QMAX52_FWD: default 2^50, legal range 1 .. 2^50. -/
  qmax52Fwd : Nat := 2 ^ 50
  /-- QMAX52_INV: default 2^50, legal range 1 .. 2^50. -/
  qmax52Inv : Nat := 2 ^ 50
  /-- PROOT_MAX_ATTEMPTS: default 1000, at least 1. -/
  prootMaxAttempts : Nat := 1000
  /-- BASE: the platform's base address of the window. DESIGN CHOICE (assumption 2, unsafe): the
  manual gives no default; 0 stands in the default parameters. -/
  base : Nat := 0
  /-- HAS_IFMA52: default true. -/
  hasIfma52 : Bool := true
deriving DecidableEq, Repr

/-- NMAX = 2^MAX_DEGREE_BITS, the derived row of R8. -/
def Params.nmax (p : Params) : Nat := 2 ^ p.maxDegreeBits

/-- The legal ranges of R8. -/
abbrev Params.Legal (p : Params) : Prop :=
  1 ≤ p.maxDegreeBits ∧ p.maxDegreeBits ≤ 20 ∧
  2 * p.nmax ≤ p.dmemWords ∧ p.dmemWords ≤ 2 ^ 21 ∧
  1 ≤ p.qmax52Fwd ∧ p.qmax52Fwd ≤ 2 ^ 50 ∧
  1 ≤ p.qmax52Inv ∧ p.qmax52Inv ≤ 2 ^ 50 ∧
  1 ≤ p.prootMaxAttempts

namespace Config

/-- QLIMIT = 2^62, a `fixed` row of R8: a valid modulus satisfies 2 <= Q < 2^62. -/
def qLimit : Nat := 2 ^ 62

/-- SIMD_MIN_N = 16, a `fixed` row of R8. -/
def simdMinN : Nat := 16

/-- The k-th value of `draw()` (R11, R128) and of an unspecified host read (R72): a FREE VALUE, an
unconstrained u64 (assumption 3). -/
opaque draw : Nat → BitVec 64

/-- What the byte at a window offset holds after the given reset as long as nothing has written it
(R40, R41, R281): a FREE VALUE, arbitrary and fixed until written (assumption 4). The first argument
counts the resets applied so far. -/
opaque unwritten : Nat → Nat → BitVec 8

end Config
end Sys2Proof
end

