-- ==== Sys2Proof/Syntax.lean ====
section
/-! DEFINITION. The commands of the block: one constructor per row of the opcode table (R94, R95). -/

namespace Sys2Proof

/-- The Barrett width B that flag f0 of MULFAC, MULLAZY, BFWD and BINV selects (R93). -/
inductive Width where
  | b64   -- f0 = 0
  | b52   -- f0 = 1
deriving DecidableEq, Repr

/-- input_mod_factor of NTTFWD, flag f0 (R93). -/
inductive FwdIn where
  | two    -- f0 = 0
  | four   -- f0 = 1
deriving DecidableEq, Repr

/-- output_mod_factor of NTTFWD, flag f1 (R93). -/
inductive FwdOut where
  | one    -- f1 = 0
  | four   -- f1 = 1
deriving DecidableEq, Repr

/-- input_mod_factor (f0) and output_mod_factor (f1) of NTTINV (R93). -/
inductive InvFactor where
  | one    -- flag 0
  | two    -- flag 1
deriving DecidableEq, Repr

/-- The 17 commands of R94. Operands stand in the field order rd, rs1, rs2, rs3, rs4, then the flags.
An operand that is present only under a flag is an `Option`: `c` of VFMA (f0, rs3) and `omega` of
NTTINIT (f0, rs2), R93. -/
inductive Instr where
  | mulmod (rd rs1 rs2 : Reg)
  | bred (rd rs1 : Reg)
  | powmod (rd rs1 rs2 : Reg)
  | invmod (rd rs1 : Reg)
  | prtest (rd rs1 rs2 : Reg)
  | proot (rd rs1 : Reg)
  | mulfac (rd rs1 : Reg) (b : Width)
  | mullazy (rd rs1 rs2 rs3 : Reg) (b : Width)
  | vsub (rd rs1 rs2 rs4 : Reg)
  | vsubs (rd rs1 rs2 rs4 : Reg)
  | vfma (rd rs1 rs2 : Reg) (c : Option Reg) (rs4 : Reg)
  | vmul (rd rs1 rs2 rs4 : Reg)
  | nttinit (rs1 : Reg) (omega : Option Reg)
  | bfwd (rd rs1 rs2 rs3 rs4 : Reg) (b : Width)
  | nttfwd (rd rs1 : Reg) (fin : FwdIn) (fout : FwdOut)
  | binv (rd rs1 rs2 rs3 rs4 : Reg) (b : Width)
  | nttinv (rd rs1 : Reg) (fin fout : InvFactor)
deriving DecidableEq, Repr

end Sys2Proof
end

