-- ==== Sys2Proof/Machine/Arith.lean ====
section
/-! DEFINITION. The mathematical primitives of R14 to R19, the root search of R128, the lazy product of
R150 and the butterflies of R197 and R202, over exact natural numbers (R10). -/

namespace Sys2Proof.Machine

/-- B as a number of bits. -/
def widthBits : Width → Nat
  | .b64 => 64
  | .b52 => 52

/-- `Fac(y, B, q) = (y · 2^B) div q` (R14). -/
def fac (y : Nat) (b : Width) (q : Nat) : Nat := (y * 2 ^ widthBits b) / q

/-- Repeated squaring: `acc · b^e mod q`, at most `fuel` bits of e. -/
def powGo (q : Nat) : (fuel b e acc : Nat) → Nat
  | 0, _, _, acc => acc
  | fuel + 1, b, e, acc =>
    if e = 0 then acc
    else powGo q fuel (b * b % q) (e / 2) (if e % 2 = 1 then acc * b % q else acc)

/-- `PowMod(b, e, q) = b^e mod q` for a u64 exponent, computed by repeated squaring (R17). -/
def powMod (b e q : Nat) : Nat := powGo q 64 (b % q) e (1 % q)

/-- Extended Euclid on (r0, r1) with the coefficients t0 and t1 of `a` modulo q. -/
def invGo (q : Nat) : (fuel r0 r1 t0 t1 : Nat) → Nat
  | 0, _, _, t0, _ => t0
  | fuel + 1, r0, r1, t0, t1 =>
    if r1 = 0 then t0
    else invGo q fuel r1 (r0 % r1) t1 ((t0 + (q - (r0 / r1 * t1) % q)) % q)

/-- `InvMod(a, q)`: the z in [1, q) with a·z ≡ 1 when gcd(a mod q, q) = 1 (R18, "extended-Euclidean
inverse"). -/
def invMod (a q : Nat) : Nat := invGo q (q + 1) q (a % q) 0 1

/-- No odd number from d on, up to the square root of v, divides v. -/
def noOddDivisorFrom (v : Nat) : (fuel d : Nat) → Bool
  | 0, _ => true
  | fuel + 1, d =>
    if v < d * d then true
    else if v % d = 0 then false
    else noOddDivisorFrom v fuel (d + 2)

/-- `IsPrime(v)`: "true exactly when v is a prime number"; "the rules use mathematical primality"
(R15). -/
def isPrime (v : Nat) : Bool :=
  if v < 2 then false
  else if v = 2 then true
  else if v % 2 = 0 then false
  else noOddDivisorFrom v v 3

/-- `IsPrimRoot(r, d, q) = (PowMod(r, d div 2, q) = q − 1)` (R19). -/
def isPrimRoot (r d q : Nat) : Bool := powMod r (d / 2) q = q - 1

/-- v is a power of two. -/
def isPow2 (v : Nat) : Bool := v ≠ 0 ∧ 2 ^ Nat.log2 v = v

/-- The smallest of `best` and the next `count` values of cur·g2, cur·g2², … modulo q. -/
def leastOddPower (q g2 : Nat) : (count cur best : Nat) → Nat
  | 0, _, best => best
  | count + 1, cur, best =>
    let cur' := (cur * g2) % q
    leastOddPower q g2 count cur' (min best cur')

/-- The attempts of `MinPrimRoot(m, q)` (R128), `k` draws already taken: the root found, if any, and how
many draws have been taken in all. -/
def rootSearch (draw : Nat → Word) (m q : Nat) : (attempts k : Nat) → Option Nat × Nat
  | 0, k => (none, k)
  | attempts + 1, k =>
    let c := (draw k).toNat % q
    let g := powMod c ((q - 1) / m) q
    if isPrimRoot g m q then (some (leastOddPower q (g * g % q) (m / 2 - 1) g g), k + 1)
    else rootSearch draw m q attempts (k + 1)

/-- `LazyMul(y, W, Wp, q, B) = (y · W − ((y · Wp) div 2^B) · q) mod 2^64`, the residue of a possibly
negative integer (R150). -/
def lazyMul (y w wp q : Nat) (b : Width) : Nat :=
  (((y * w : Nat) : Int) - ((y * wp / 2 ^ widthBits b * q : Nat) : Int)).emod (2 ^ 64) |>.toNat

/-- `FwdBfly(X, Y, W, Wp, q, B)` (R197). -/
def fwdBfly (x y w wp q : Nat) (b : Width) : Nat × Nat :=
  let x' := if 2 * q ≤ x then x - 2 * q else x
  let t := lazyMul y w wp q b
  (x' + t, x' + 2 * q - t)

/-- `InvBfly(X, Y, W, Wp, q, B)` (R202). -/
def invBfly (x y w wp q : Nat) (b : Width) : Nat × Nat :=
  let tx := x + y
  let ty := x + 2 * q - y
  (if 2 * q ≤ tx then tx - 2 * q else tx, lazyMul ty w wp q b)

/-- `bitrev(x, w)`: the low w bits of x in reverse order (R16). -/
def bitrev : (x w : Nat) → Nat
  | _, 0 => 0
  | x, w + 1 => x % 2 * 2 ^ w + bitrev (x / 2) w

end Sys2Proof.Machine
end

