-- ==== Sys2Proof/WellFormed.lean ====
section
/-! DEFINITION. Which commands an encoding can express. Register fields are 4 bits by type, and the
conditional operands of VFMA and NTTINIT are options, so one check is left: the register pair. -/

namespace Sys2Proof

/-- R96: the rd field of a command that writes `x[rd]` and `x[rd+1]` is even (bit 8 of the word, the
field's bit 0, is 0). -/
def evenPair (rd : Reg) : Bool := rd.toNat % 2 = 0

/-- R95, R96: every command is well-formed but BFWD and BINV with an odd rd. -/
def Instr.wellFormed : Instr → Bool
  | .mulmod _ _ _ => true
  | .bred _ _ => true
  | .powmod _ _ _ => true
  | .invmod _ _ => true
  | .prtest _ _ _ => true
  | .proot _ _ => true
  | .mulfac _ _ _ => true
  | .mullazy _ _ _ _ _ => true
  | .vsub _ _ _ _ => true
  | .vsubs _ _ _ _ => true
  | .vfma _ _ _ _ _ => true
  | .vmul _ _ _ _ => true
  | .nttinit _ _ => true
  | .bfwd rd _ _ _ _ _ => evenPair rd
  | .nttfwd _ _ _ _ => true
  | .binv rd _ _ _ _ _ => evenPair rd
  | .nttinv _ _ _ _ => true

end Sys2Proof
end

