-- ==== Sys2Proof/Decode.lean ====
section
/-! DEFINITION. The decoder, total on every 64-bit CMD value (R97), and the encoder (R102). -/

namespace Sys2Proof

/-- The rows of the opcode map (R94), by name. -/
inductive Opcode where
  | mulmod | bred | powmod | invmod | prtest | proot
  | mulfac | mullazy
  | vsub | vsubs | vfma | vmul
  | nttinit | bfwd | nttfwd | binv | nttinv
deriving DecidableEq, Repr

/-- Why the decoder rejects a CMD value: the three ILLEGAL causes of R97 with what ERRINFO.INDEX
reports for each (R242). -/
inductive DecodeError where
  | undefOpcode (op : Byte)   -- INDEX is the opcode CMD[7:0]
  | reservedField             -- INDEX is 0
  | oddPair (rd : Reg)        -- INDEX is the rd field
deriving DecidableEq, Repr

/-- The op column of R94. -/
def Opcode.code : Opcode → Byte
  | .mulmod => 0x10 | .bred => 0x11 | .powmod => 0x12
  | .invmod => 0x13 | .prtest => 0x14 | .proot => 0x15
  | .mulfac => 0x20 | .mullazy => 0x21
  | .vsub => 0x30 | .vsubs => 0x31 | .vfma => 0x32 | .vmul => 0x33
  | .nttinit => 0x40 | .bfwd => 0x41 | .nttfwd => 0x42 | .binv => 0x43 | .nttinv => 0x44

/-- The mask column of R95: the opcode field and every reserved field. -/
def Opcode.mask : Opcode → BitVec 32
  | .mulmod => 0xFFF000FF | .bred => 0xFFFF00FF | .powmod => 0xFFF000FF
  | .invmod => 0xFFFF00FF | .prtest => 0xFFF000FF | .proot => 0xFFFF00FF
  | .mulfac => 0xEFFF00FF | .mullazy => 0xEF0000FF
  | .vsub => 0xF0F000FF | .vsubs => 0xF0F000FF | .vfma => 0xE00000FF | .vmul => 0xF0F000FF
  | .nttinit => 0xEFF00FFF | .bfwd => 0xE00000FF | .nttfwd => 0xCFFF00FF
  | .binv => 0xE00000FF | .nttinv => 0xCFFF00FF

/-- The match column of R95: every reserved field is 0, so it is the opcode itself. -/
def Opcode.pattern (op : Opcode) : BitVec 32 := op.code.setWidth 32

/-- The rows of the opcode map in the table's order (R94). -/
def opcodes : List Opcode :=
  [.mulmod, .bred, .powmod, .invmod, .prtest, .proot, .mulfac, .mullazy,
   .vsub, .vsubs, .vfma, .vmul, .nttinit, .bfwd, .nttfwd, .binv, .nttinv]

/-- The row an opcode byte selects, if there is one (R94, R98). -/
def opcodeOf (b : Byte) : Option Opcode := opcodes.find? (fun op => op.code == b)

/-! The fields of the command word (R91). -/

def fieldOp (v : Word) : Byte := v.extractLsb' 0 8
def fieldRd (v : Word) : Reg := v.extractLsb' 8 4
def fieldRs1 (v : Word) : Reg := v.extractLsb' 12 4
def fieldRs2 (v : Word) : Reg := v.extractLsb' 16 4
def fieldRs3 (v : Word) : Reg := v.extractLsb' 20 4
def fieldRs4 (v : Word) : Reg := v.extractLsb' 24 4
def fieldF0 (v : Word) : Bool := v.getLsbD 28
def fieldF1 (v : Word) : Bool := v.getLsbD 29

/-! The flags of R93 and the alternatives they select. -/

def widthOf (f : Bool) : Width := if f then .b52 else .b64
def fwdInOf (f : Bool) : FwdIn := if f then .four else .two
def fwdOutOf (f : Bool) : FwdOut := if f then .four else .one
def invFactorOf (f : Bool) : InvFactor := if f then .two else .one
def widthFlag (b : Width) : Bool := b == .b52
def fwdInFlag (k : FwdIn) : Bool := k == .four
def fwdOutFlag (k : FwdOut) : Bool := k == .four
def invFactorFlag (k : InvFactor) : Bool := k == .two

/-- The command that an accepted word of row `op` stands for (last line of R97; field use of R95). -/
def instrOf (op : Opcode) (v : Word) : Instr :=
  let rd := fieldRd v
  let rs1 := fieldRs1 v
  let rs2 := fieldRs2 v
  let rs3 := fieldRs3 v
  let rs4 := fieldRs4 v
  let f0 := fieldF0 v
  let f1 := fieldF1 v
  match op with
  | .mulmod => .mulmod rd rs1 rs2
  | .bred => .bred rd rs1
  | .powmod => .powmod rd rs1 rs2
  | .invmod => .invmod rd rs1
  | .prtest => .prtest rd rs1 rs2
  | .proot => .proot rd rs1
  | .mulfac => .mulfac rd rs1 (widthOf f0)
  | .mullazy => .mullazy rd rs1 rs2 rs3 (widthOf f0)
  | .vsub => .vsub rd rs1 rs2 rs4
  | .vsubs => .vsubs rd rs1 rs2 rs4
  | .vfma => .vfma rd rs1 rs2 (if f0 then some rs3 else none) rs4
  | .vmul => .vmul rd rs1 rs2 rs4
  | .nttinit => .nttinit rs1 (if f0 then some rs2 else none)
  | .bfwd => .bfwd rd rs1 rs2 rs3 rs4 (widthOf f0)
  | .nttfwd => .nttfwd rd rs1 (fwdInOf f0) (fwdOutOf f1)
  | .binv => .binv rd rs1 rs2 rs3 rs4 (widthOf f0)
  | .nttinv => .nttinv rd rs1 (invFactorOf f0) (invFactorOf f1)

/-- `Decode(v)` of R97, its checks in the order the rule writes them. -/
def decode (v : Word) : Except DecodeError Instr :=
  match opcodeOf (fieldOp v) with
  | none => .error (.undefOpcode (fieldOp v))
  | some op =>
    if v.extractLsb' 32 32 ≠ 0#32 then .error .reservedField
    else if v.extractLsb' 0 32 &&& op.mask ≠ op.pattern then .error .reservedField
    else if op = .vfma ∧ fieldF0 v = false ∧ fieldRs3 v ≠ 0#4 then .error .reservedField
    else if op = .nttinit ∧ fieldF0 v = false ∧ fieldRs2 v ≠ 0#4 then .error .reservedField
    else if (op = .bfwd ∨ op = .binv) ∧ evenPair (fieldRd v) = false then .error (.oddPair (fieldRd v))
    else .ok (instrOf op v)

/-- The bits of a command word from its fields: f1, f0, rs4, rs3, rs2, rs1, rd, op from bit 29 down,
with CMD[63:30] = 0 (R91, R102). -/
def assemble (op : Opcode) (rd rs1 rs2 rs3 rs4 : Reg) (f0 f1 : Bool) : Word :=
  (BitVec.ofBool f1 ++ BitVec.ofBool f0 ++ rs4 ++ rs3 ++ rs2 ++ rs1 ++ rd ++ op.code : BitVec 30).setWidth 64

/-- The 64-bit CMD value of a command; each unused field is 0 (R102). -/
def encode : Instr → Word
  | .mulmod rd rs1 rs2 => assemble .mulmod rd rs1 rs2 0 0 false false
  | .bred rd rs1 => assemble .bred rd rs1 0 0 0 false false
  | .powmod rd rs1 rs2 => assemble .powmod rd rs1 rs2 0 0 false false
  | .invmod rd rs1 => assemble .invmod rd rs1 0 0 0 false false
  | .prtest rd rs1 rs2 => assemble .prtest rd rs1 rs2 0 0 false false
  | .proot rd rs1 => assemble .proot rd rs1 0 0 0 false false
  | .mulfac rd rs1 b => assemble .mulfac rd rs1 0 0 0 (widthFlag b) false
  | .mullazy rd rs1 rs2 rs3 b => assemble .mullazy rd rs1 rs2 rs3 0 (widthFlag b) false
  | .vsub rd rs1 rs2 rs4 => assemble .vsub rd rs1 rs2 0 rs4 false false
  | .vsubs rd rs1 rs2 rs4 => assemble .vsubs rd rs1 rs2 0 rs4 false false
  | .vfma rd rs1 rs2 c rs4 => assemble .vfma rd rs1 rs2 (c.getD 0) rs4 c.isSome false
  | .vmul rd rs1 rs2 rs4 => assemble .vmul rd rs1 rs2 0 rs4 false false
  | .nttinit rs1 omega => assemble .nttinit 0 rs1 (omega.getD 0) 0 0 omega.isSome false
  | .bfwd rd rs1 rs2 rs3 rs4 b => assemble .bfwd rd rs1 rs2 rs3 rs4 (widthFlag b) false
  | .nttfwd rd rs1 fin fout => assemble .nttfwd rd rs1 0 0 0 (fwdInFlag fin) (fwdOutFlag fout)
  | .binv rd rs1 rs2 rs3 rs4 b => assemble .binv rd rs1 rs2 rs3 rs4 (widthFlag b) false
  | .nttinv rd rs1 fin fout => assemble .nttinv rd rs1 0 0 0 (invFactorFlag fin) (invFactorFlag fout)

/-- The command the decoder reads from a table word: the bits above `nbits` are 0, and the whole word
is one CMD value (R90; the block sees a host access as one 64-bit value, R61). -/
def decodeTableWord (nbits w : Nat) : Option Instr :=
  match decode (BitVec.ofNat 64 (w % 2 ^ nbits)) with
  | .ok i => some i
  | .error _ => none

end Sys2Proof
end

