-- ==== Sys2Proof/Machine/State.lean ====
section
/-! DEFINITION. The state of the block as plain data, the reasons a step can stop, and reset.
The block is the R20 pair of agents: the host, whose accesses wait in `inputs`, and the engine, whose
one pending command is `inflight`. -/

namespace Sys2Proof.Machine

/-- What can happen to the block from outside, and the engine's turn. One event is one indivisible
action (R62, R73). The list of events still to come is the free choice of the environment: an
`engine` event between two host accesses says that the command in flight completes there (R288), and
its absence says that it does not, so a claim about every list is a claim about every interleaving
(assumption 5). -/
inductive Event where
  /-- The host reads `width` bytes at byte address `addr` (R60). -/
  | hostRead (addr width : Nat)
  /-- The host writes `value` with a `width`-byte access at byte address `addr` (R60). -/
  | hostWrite (addr width : Nat) (value : Word)
  /-- The engine takes its step before the next host access (R20, R288). -/
  | engine
  /-- The platform applies the reset input (R280). -/
  | reset
deriving DecidableEq, Repr

/-- Why a step stops with a fault. -/
inductive Fault where
  /-- The bus error response to a host access that is not well-formed: a wrong width, a misaligned
  address or an unmapped offset. Raised by the host port; "A model treats a bus error as a fault of
  the host's step" (R60, R254). Safe: the manual itself makes the step a fault. -/
  | busError (addr width : Nat)
deriving DecidableEq, Repr

/-- Why a step is refused. -/
inductive Refusal where
  /-- An instruction without a meaning, by its mnemonic. Only a refused arm of `exec` raises it, and
  every arm has its meaning, so nothing raises it now. Safe: the model stops where the block goes on. -/
  | notModelled (mnemonic : String)
deriving DecidableEq, Repr

/-- The outcome report of the last command: STATUS.ERRCODE (R26) and the fields of ERRINFO (R27). -/
structure ErrReport where
  /-- STATUS[15:8]. -/
  errcode : BitVec 8 := 0
  /-- ERRINFO[7:0]. -/
  cause : BitVec 8 := 0
  /-- ERRINFO[63:32]. -/
  index : BitVec 32 := 0
deriving DecidableEq, Repr

/-- The registers NTTINIT latches beside TMEM (R30 to R35, R190). -/
structure NttRegs where
  /-- NTT_CFG bit 0 (R35). -/
  valid : Bool := false
  /-- NTT_CFG bit 1, FWD52_OK (R35). -/
  fwd52 : Bool := false
  /-- NTT_CFG bit 2, INV52_OK (R35). -/
  inv52 : Bool := false
  /-- NTT_N (R30). -/
  n : Word := 0
  /-- NTT_Q (R33). -/
  q : Word := 0
  /-- NTT_OMEGA (R31). -/
  omega : Word := 0
  /-- NTT_OMEGA_INV (R32). -/
  omegaInv : Word := 0
  /-- NTT_INV_N (R34). -/
  invN : Word := 0
deriving DecidableEq, Repr

/-- DMEM and TMEM as one list of (window byte offset, byte), offsets strictly rising. A byte that is
not listed has not been written since reset (assumption 4). -/
abbrev Memory := List Host.Cell

/-- The state of the block. -/
structure State where
  /-- The parameters of R8; no step changes them. -/
  params : Params
  /-- General registers x0..x15 (R22). -/
  x : Vector Word 16
  /-- Q, the modulus register (R28). -/
  q : Word
  /-- CMD, the last accepted value (R29). -/
  cmd : Word
  /-- CTRL.IFMA52_EN (R25). -/
  ctrlIfma52 : Bool
  /-- STATUS.OVR (R26). -/
  ovr : Bool
  /-- STATUS.LASTOP (R26). -/
  lastop : Byte
  /-- STATUS.ERRCODE and ERRINFO (R26, R27). -/
  err : ErrReport
  /-- NTT_CFG, NTT_N, NTT_Q, NTT_OMEGA, NTT_OMEGA_INV, NTT_INV_N (R30 to R35). -/
  ntt : NttRegs
  /-- DMEM (R40) and TMEM (R41). -/
  mem : Memory
  /-- The in-flight command (R38): the accepted CMD value the engine has not performed yet.
  STATUS.BUSY is 1 exactly when there is one. -/
  inflight : Option Word
  /-- The model's own: events still to come, the next one first (assumption 5). -/
  inputs : List Event
  /-- The model's own: what the last host access returned (assumption 6). -/
  response : Option Word
  /-- The model's own: draws the environment has already fixed, the next one first (assumption 3). -/
  entropy : List Word
  /-- The model's own: how many draws have been taken (assumption 3). -/
  draws : Nat
  /-- The model's own: how many resets have been applied (assumption 4). -/
  epoch : Nat
deriving DecidableEq, Repr

/-- The block right after reset (R43, R281): every register the manual names is 0, no command is in
flight, no memory byte has a value yet, and no event is pending. -/
def State.reset : State where
  params := {}
  x := Vector.replicate 16 0
  q := 0
  cmd := 0
  ctrlIfma52 := false
  ovr := false
  lastop := 0
  err := {}
  ntt := {}
  mem := []
  inflight := none
  inputs := []
  response := none
  entropy := []
  draws := 0
  epoch := 0

end Sys2Proof.Machine
end

