-- ==== Sys2Proof/Machine/Flags.lean ====
section
/-! DEFINITION. The block has no condition codes (R36): a command reports its outcome in STATUS and
ERRINFO. This file holds the error kinds and causes with their codes and the words of the status
registers. -/

namespace Sys2Proof.Machine

/-- The error kinds of R241. -/
inductive ErrKind where
  | precondition | resource | overflow | noinv | illegal
deriving DecidableEq, Repr

/-- The causes of R242, but for "none". -/
inductive Cause where
  | undefOpcode | reservedField | oddPair
  | qRange | operandRange | elementA | elementB | elementC | bufferRange
  | degree | notPrime | not1Mod2n | omegaBad | preconMismatch | noTables
  | rootSearchExhausted
  | operandWidth
  | notCoprime
deriving DecidableEq, Repr

/-- ERRCODE of a kind (R241). -/
def ErrKind.code : ErrKind → BitVec 8
  | .precondition => 1
  | .resource => 2
  | .overflow => 3
  | .noinv => 4
  | .illegal => 5

/-- CAUSE of a cause (R242). -/
def Cause.code : Cause → BitVec 8
  | .undefOpcode => 0x01
  | .reservedField => 0x02
  | .oddPair => 0x03
  | .qRange => 0x10
  | .operandRange => 0x11
  | .elementA => 0x12
  | .elementB => 0x13
  | .elementC => 0x14
  | .bufferRange => 0x15
  | .degree => 0x16
  | .notPrime => 0x17
  | .not1Mod2n => 0x18
  | .omegaBad => 0x19
  | .preconMismatch => 0x1A
  | .noTables => 0x1B
  | .rootSearchExhausted => 0x20
  | .operandWidth => 0x30
  | .notCoprime => 0x40

/-- The kind column of R242: each cause belongs to one kind. -/
def Cause.kind : Cause → ErrKind
  | .undefOpcode | .reservedField | .oddPair => .illegal
  | .qRange | .operandRange | .elementA | .elementB | .elementC | .bufferRange
  | .degree | .notPrime | .not1Mod2n | .omegaBad | .preconMismatch | .noTables => .precondition
  | .rootSearchExhausted => .resource
  | .operandWidth => .overflow
  | .notCoprime => .noinv

/-- What `raise Kind(cause, index)` carries (R11). -/
structure CmdError where
  cause : Cause
  index : Nat
deriving DecidableEq, Repr

/-- STATUS.ERRCODE, ERRINFO.CAUSE and ERRINFO.INDEX after a failed command (R241). -/
def CmdError.report (e : CmdError) : ErrReport where
  errcode := e.cause.kind.code
  cause := e.cause.code
  index := BitVec.ofNat 32 e.index

/-- STATUS.BUSY: 1 exactly while a command is in flight (R26, R38). -/
def State.busy (s : State) : Bool := s.inflight.isSome

/-- STATUS.ERR: "always equal to (ERRCODE ≠ 0)" (R26). -/
def State.errFlag (s : State) : Bool := s.err.errcode != 0

/-- CTRL.IFMA52_EN as it reads: hardwired 0 when HAS_IFMA52 = false (R25). -/
def State.ifma52En (s : State) : Bool := s.params.hasIfma52 && s.ctrlIfma52

/-- STATUS as one word (R26): BUSY, ERR, OVR, five reserved zeros, ERRCODE, LASTOP, reserved zeros. -/
def State.statusWord (s : State) : Word :=
  (s.lastop ++ s.err.errcode ++ 0#5 ++ BitVec.ofBool s.ovr ++ BitVec.ofBool s.errFlag ++
    BitVec.ofBool s.busy : BitVec 24).setWidth 64

/-- ERRINFO as one word (R27): INDEX in [63:32], reserved zeros, CAUSE in [7:0]. -/
def State.errinfoWord (s : State) : Word := s.err.index ++ 0#24 ++ s.err.cause

/-- CTRL as one word (R25): IFMA52_EN in bit 0, the rest reads 0. -/
def State.ctrlWord (s : State) : Word := (BitVec.ofBool s.ifma52En).setWidth 64

/-- NTT_CFG as one word (R35). -/
def State.nttCfgWord (s : State) : Word :=
  (BitVec.ofBool s.ntt.inv52 ++ BitVec.ofBool s.ntt.fwd52 ++ BitVec.ofBool s.ntt.valid : BitVec 3).setWidth 64

/-- ID, a constant: "BRED", edition 7, block version 1 (R24). -/
def idWord : Word := 0x4252454400070001

end Sys2Proof.Machine
end

