-- ==== Sys2Proof/Machine/Ops.lean ====
section
/-! DEFINITION. The named operations over memory and registers, the acceptance of a command, and the
one way every command completes: success (R241) or the error a failed check raises, which is what
this block has in place of an exception (R240, R244). -/

namespace Sys2Proof.Machine

/-- The outcome type of a step of this machine. -/
abbrev Outcome := Host.Outcome State Fault Refusal

/-! ### Memory bytes -/

/-- What an unlisted address holds: no value. Reading it gives a free value (`State.byteAt`), since
DMEM and TMEM are unspecified after reset and "a model must not assume any value" (R281). -/
def Memory.unlisted : Option Byte := none

/-- The byte listed at an address, if something has written it since reset. -/
def Memory.get : Memory → Nat → Option Byte
  | [], _ => Memory.unlisted
  | (b, v) :: rest, a => if b = a then some v else Memory.get rest a

/-- The cells of consecutive bytes from an address up. -/
def cellsFrom (a : Nat) : List Byte → Memory
  | [] => []
  | b :: bs => (a, b) :: cellsFrom (a + 1) bs

/-- Writes consecutive bytes from address `a` up; every other byte keeps its value. -/
def Memory.writeBytes (m : Memory) (a : Nat) (bs : List Byte) : Memory :=
  m.filter (fun c => decide (c.1 < a)) ++ cellsFrom a bs ++
    m.filter (fun c => decide (a + bs.length ≤ c.1))

/-- Strictly rising from a lower bound on. -/
def risingFrom : Nat → Memory → Bool
  | _, [] => true
  | lo, (a, _) :: rest => decide (lo ≤ a) && risingFrom (a + 1) rest

/-- The canonical form: addresses strictly rising. An unlisted address holds no value, so every listed
byte differs from what an unlisted address holds, and equal memories are equal lists. -/
def Memory.wf (m : Memory) : Bool := risingFrom 0 m

/-- Byte k of a 64-bit value: bits [8k+7:8k], the little-endian lanes of R61. -/
def byteLane (v : Word) (k : Nat) : Byte := v.extractLsb' (8 * k) 8

/-- The eight lanes of a word, the lowest address first (R61). -/
def laneBytes (v : Word) : List Byte :=
  [byteLane v 0, byteLane v 1, byteLane v 2, byteLane v 3,
   byteLane v 4, byteLane v 5, byteLane v 6, byteLane v 7]

/-- The word whose lanes are given (R61). -/
def ofLanes (b0 b1 b2 b3 b4 b5 b6 b7 : Byte) : Word :=
  b7 ++ b6 ++ b5 ++ b4 ++ b3 ++ b2 ++ b1 ++ b0

/-- The bytes of consecutive words. -/
def wordsBytes : List Word → List Byte
  | [] => []
  | w :: ws => laneBytes w ++ wordsBytes ws

/-! ### DMEM and TMEM words -/

/-- The byte at a window offset; a byte nothing has written since reset holds its free value, the same
at every read (R40, R281, R287; 93 U6). -/
def State.byteAt (s : State) (a : Nat) : Byte :=
  (s.mem.get a).getD (Config.unwritten s.epoch a)

/-- The 64-bit word whose lowest byte is at a window offset (R61, R62). -/
def State.wordAt (s : State) (a : Nat) : Word :=
  ofLanes (s.byteAt a) (s.byteAt (a + 1)) (s.byteAt (a + 2)) (s.byteAt (a + 3))
    (s.byteAt (a + 4)) (s.byteAt (a + 5)) (s.byteAt (a + 6)) (s.byteAt (a + 7))

/-- Writes consecutive words from a window offset up. -/
def State.writeWords (s : State) (a : Nat) (ws : List Word) : State :=
  { s with mem := s.mem.writeBytes a (wordsBytes ws) }

/-- Window offset of DMEM word a (R65). -/
def dmemOff (a : Nat) : Nat := 0x01000000 + 8 * a

/-- The bytes of one TMEM slot (R66). -/
def tmemSlot : Nat := 0x00800000

/-- Window offset of word k of TMEM table t (R66). -/
def tmemOff (t k : Nat) : Nat := 0x02000000 + t * tmemSlot + 8 * k

/-- `MemRead(a, 8)` (R11). -/
def State.memRead (s : State) (a : Nat) : Nat := (s.wordAt (dmemOff a)).toNat

/-- `MemWrite(a, 8, v)` for consecutive words a, a+1, … (R11, R12). -/
def State.memWrite (s : State) (a : Nat) (vs : List Nat) : State :=
  s.writeWords (dmemOff a) (vs.map (BitVec.ofNat 64))

/-- `TRead(t, k)` (R11). -/
def State.tRead (s : State) (t k : Nat) : Nat := (s.wordAt (tmemOff t k)).toNat

/-- `TWrite(t, k, v)` for k = 0, 1, … (R11, R191). -/
def State.tWrite (s : State) (t : Nat) (vs : List Nat) : State :=
  s.writeWords (tmemOff t 0) (vs.map (BitVec.ofNat 64))

/-! ### Registers -/

/-- The word in general register r; none is hardwired (R22). -/
def State.getX (s : State) (r : Reg) : Word := s.x[r.toNat]

/-- `x[r]` as a natural number (R11). -/
def State.valX (s : State) (r : Reg) : Nat := (s.getX r).toNat

/-- `x[r] <- v` (R11). -/
def State.setX (s : State) (r : Reg) (v : Word) : State := { s with x := s.x.set r.toNat v }

/-- `x[r] <- v` for a natural number v; every result the commands write is a u64 (R120). -/
def State.putX (s : State) (r : Reg) (v : Nat) : State := s.setX r (BitVec.ofNat 64 v)

/-- Q as a natural number (R11). -/
def State.modulus (s : State) : Nat := s.q.toNat

/-- The registers a successful NTTINIT latches (R191). -/
def State.latchNtt (s : State) (r : NttRegs) : State := { s with ntt := r }

/-! ### Draws -/

/-- The value of the draw that is `k` draws away: the environment's, where it has fixed one, else a
free value (R11 `draw()`, R128). -/
def State.drawAt (s : State) (k : Nat) : Word := (s.entropy[k]?).getD (Config.draw (s.draws + k))

/-- The state after `k` draws. -/
def State.useDraws (s : State) (k : Nat) : State :=
  { s with entropy := s.entropy.drop k, draws := s.draws + k }

/-! ### Acceptance and completion -/

/-- The acceptance of a CMD write (R70, the BUSY = 0 case). -/
def State.accept (s : State) (v : Word) : State :=
  { s with cmd := v, err := {}, lastop := v.extractLsb' 0 8, inflight := some v }

/-- `Complete` after success: the command's writes are in `s` already, ERRCODE and ERRINFO keep the
value they have, BUSY becomes 0 (R241). -/
def State.retire (s : State) : State := { s with inflight := none }

/-- `Complete` after `raise` (R241): ERRCODE and ERRINFO report the error, BUSY becomes 0, and nothing
else changes (R240, R244). -/
def State.fail (s : State) (e : CmdError) : State := { s with err := e.report, inflight := none }

/-- The one way a command ends (R240, R241): `s` is the state an error leaves apart from its report,
and `r` what the command's checks and writes give. -/
def complete (s : State) (r : Except CmdError State) : Outcome :=
  match r with
  | .ok s' => .next s'.retire
  | .error e => .next (s.fail e)

/-- The ILLEGAL error of a word the decoder rejects (R97, R242). -/
def illegal : DecodeError → CmdError
  | .undefOpcode op => ⟨.undefOpcode, op.toNat⟩
  | .reservedField => ⟨.reservedField, 0⟩
  | .oddPair rd => ⟨.oddPair, rd.toNat⟩

end Sys2Proof.Machine
end

