-- ==== Sys2Proof/Machine/Operands.lean ====
section
/-! DEFINITION. The checks a command makes on its operands before it writes anything (R12), in the form
every family shares. A check answers unit or the error it raises. -/

namespace Sys2Proof.Machine

/-- `if not ok: raise (cause, index)`. -/
def require (ok : Bool) (cause : Cause) (index : Nat) : Except CmdError Unit :=
  if ok then .ok () else .error ⟨cause, index⟩

/-- `CheckQ()`: 2 <= Q < 2^62 (R121). -/
def checkQ (s : State) : Except CmdError Unit :=
  require (2 ≤ s.modulus ∧ s.modulus < Config.qLimit) .qRange 0

/-- `if x[r] >= bound: raise PRECONDITION(OPERAND_RANGE, r)`. -/
def checkBelow (s : State) (bound : Nat) (r : Reg) : Except CmdError Unit :=
  require (s.valX r < bound) .operandRange r.toNat

/-- The scalar operands in field order, each below the bound (R170). -/
def checkScalars (s : State) (bound : Nat) : List Reg → Except CmdError Unit
  | [] => .ok ()
  | r :: rs => do
    checkBelow s bound r
    checkScalars s bound rs

/-- `if x[r] != Fac(w, B, Q): raise PRECONDITION(PRECON_MISMATCH, r)`. -/
def checkFactor (s : State) (w : Nat) (b : Width) (r : Reg) : Except CmdError Unit :=
  require (s.valX r = fac w b s.modulus) .preconMismatch r.toNat

/-- `if v >= 2^B: raise OVERFLOW(OPERAND_WIDTH, r)`. -/
def checkWidth (v : Nat) (b : Width) (r : Reg) : Except CmdError Unit :=
  require (v < 2 ^ widthBits b) .operandWidth r.toNat

/-- The buffers of length `len` whose bases are in the given registers, in field order:
`x[base] + len <= DMEM_WORDS` in exact arithmetic (R67, R170). -/
def checkBuffers (s : State) (len : Nat) : List Reg → Except CmdError Unit
  | [] => .ok ()
  | r :: rs => do
    require (s.valX r + len ≤ s.params.dmemWords) .bufferRange r.toNat
    checkBuffers s len rs

/-- Element i of the buffer whose base is in register r: `MemRead(x[r] + i, 8)` (R67). -/
def elem (s : State) (r : Reg) (i : Nat) : Nat := s.memRead (s.valX r + i)

/-- The elements of one index i, in the order given (R170). -/
def checkRow (s : State) (bound i : Nat) : List (Cause × Reg) → Except CmdError Unit
  | [] => .ok ()
  | (cause, r) :: rest => do
    require (elem s r i < bound) cause i
    checkRow s bound i rest

/-- The elements of the next `count` indices from i on, ascending (R170). -/
def checkElems (s : State) (bound : Nat) (elems : List (Cause × Reg)) : (count i : Nat) → Except CmdError Unit
  | 0, _ => .ok ()
  | count + 1, i => do
    checkRow s bound i elems
    checkElems s bound elems count (i + 1)

/-- `VecChecks(buffers, scalars, elems, L)` (R170). -/
def vecChecks (s : State) (buffers scalars : List Reg) (elems : List (Cause × Reg)) (len : Nat) :
    Except CmdError Unit := do
  checkQ s
  checkBuffers s len buffers
  checkScalars s s.modulus scalars
  checkElems s s.modulus elems len 0

/-- The buffer of length `len` at base register r, as natural numbers. -/
def buffer (s : State) (r : Reg) (len : Nat) : List Nat := (List.range len).map (elem s r)

end Sys2Proof.Machine
end

