-- ==== Sys2Proof/Machine/Eltwise.lean ====
section
/-! DEFINITION. The element-wise vector commands: VSUB, VSUBS, VFMA, VMUL (R170 to R175). -/

namespace Sys2Proof.Machine

/-- The outputs of a vector command, out[i] for i in 0..L−1, written at the base in `x[rd]` (R170). -/
def vecWrite (s : State) (rd : Reg) (len : Nat) (out : Nat → Nat) : State :=
  s.memWrite (s.valX rd) ((List.range len).map out)

/-- VSUB (R172). -/
def execVsub (rd rs1 rs2 rs4 : Reg) (s : State) : Outcome :=
  complete s do
    let len := s.valX rs4
    vecChecks s [rd, rs1, rs2] [] [(.elementA, rs1), (.elementB, rs2)] len
    .ok (vecWrite s rd len fun i => (elem s rs1 i + s.modulus - elem s rs2 i) % s.modulus)

/-- VSUBS (R173). -/
def execVsubs (rd rs1 rs2 rs4 : Reg) (s : State) : Outcome :=
  complete s do
    let len := s.valX rs4
    vecChecks s [rd, rs1] [rs2] [(.elementA, rs1)] len
    .ok (vecWrite s rd len fun i => (elem s rs1 i + s.modulus - s.valX rs2) % s.modulus)

/-- VFMA (R174): with operand c (f0 = 1) or without it (f0 = 0). -/
def execVfma (rd rs1 rs2 : Reg) (c : Option Reg) (rs4 : Reg) (s : State) : Outcome :=
  complete s do
    let len := s.valX rs4
    match c with
    | some rs3 =>
      vecChecks s [rd, rs1, rs3] [rs2] [(.elementA, rs1), (.elementC, rs3)] len
      .ok (vecWrite s rd len fun i => (elem s rs1 i * s.valX rs2 + elem s rs3 i) % s.modulus)
    | none =>
      vecChecks s [rd, rs1] [rs2] [(.elementA, rs1)] len
      .ok (vecWrite s rd len fun i => (elem s rs1 i * s.valX rs2) % s.modulus)

/-- VMUL (R175). -/
def execVmul (rd rs1 rs2 rs4 : Reg) (s : State) : Outcome :=
  complete s do
    let len := s.valX rs4
    vecChecks s [rd, rs1, rs2] [] [(.elementA, rs1), (.elementB, rs2)] len
    .ok (vecWrite s rd len fun i => (elem s rs1 i * elem s rs2 i) % s.modulus)

end Sys2Proof.Machine
end

