-- ==== Sys2Proof/Machine/ModArith.lean ====
section
/-! DEFINITION. The ModArith commands: MULMOD, BRED, POWMOD, INVMOD, PRTEST, PROOT (R122 to R129). -/

namespace Sys2Proof.Machine

/-- MULMOD (R122). -/
def execMulmod (rd rs1 rs2 : Reg) (s : State) : Outcome :=
  complete s do
    checkQ s
    checkBelow s s.modulus rs1
    checkBelow s s.modulus rs2
    .ok (s.putX rd ((s.valX rs1 * s.valX rs2) % s.modulus))

/-- BRED (R123): the canonical residue of any u64. -/
def execBred (rd rs1 : Reg) (s : State) : Outcome :=
  complete s do
    checkQ s
    .ok (s.putX rd (s.valX rs1 % s.modulus))

/-- POWMOD (R124). -/
def execPowmod (rd rs1 rs2 : Reg) (s : State) : Outcome :=
  complete s do
    checkQ s
    .ok (s.putX rd (powMod (s.valX rs1) (s.valX rs2) s.modulus))

/-- INVMOD (R125). -/
def execInvmod (rd rs1 : Reg) (s : State) : Outcome :=
  complete s do
    checkQ s
    let a := s.valX rs1 % s.modulus
    require (Nat.gcd a s.modulus = 1) .notCoprime rs1.toNat
    .ok (s.putX rd (invMod a s.modulus))

/-- PRTEST (R126): the Boolean result goes to `x[rd]` (R36). -/
def execPrtest (rd rs1 rs2 : Reg) (s : State) : Outcome :=
  complete s do
    checkQ s
    .ok (s.putX rd (if isPrimRoot (s.valX rs1) (s.valX rs2) s.modulus then 1 else 0))

/-- `MinPrimRoot(m, q)` on the draws to come (R128): the root found, if any, and the state with the
draws taken. The draws stay taken when the search fails, so a later search draws afresh. -/
def minPrimRoot (s : State) (m q : Nat) : Option Nat × State :=
  let found := rootSearch s.drawAt m q s.params.prootMaxAttempts 0
  (found.1, s.useDraws found.2)

/-- The checks of PROOT before the search (R127). -/
def prootChecks (rs1 : Reg) (s : State) : Except CmdError Unit := do
  checkQ s
  let m := s.valX rs1
  require (2 ≤ m ∧ isPow2 m) .degree rs1.toNat
  require (isPrime s.modulus) .notPrime 0
  require ((s.modulus - 1) % m = 0) .not1Mod2n rs1.toNat

/-- PROOT (R127): the minimal primitive m-th root, or RESOURCE when the search fails (R129). -/
def execProot (rd rs1 : Reg) (s : State) : Outcome :=
  match prootChecks rs1 s with
  | .error e => complete s (.error e)
  | .ok () =>
    match minPrimRoot s (s.valX rs1) s.modulus with
    | (none, s') => complete s' (.error ⟨.rootSearchExhausted, 0⟩)
    | (some r, s') => complete s' (.ok (s'.putX rd r))

end Sys2Proof.Machine
end

