-- ==== Sys2Proof/Machine/MultiplyFactor.lean ====
section
/-! DEFINITION. The MultiplyFactor commands: MULFAC and MULLAZY (R152, R153). -/

namespace Sys2Proof.Machine

/-- MULFAC (R152). -/
def execMulfac (rd rs1 : Reg) (b : Width) (s : State) : Outcome :=
  complete s do
    checkQ s
    checkBelow s s.modulus rs1
    .ok (s.putX rd (fac (s.valX rs1) b s.modulus))

/-- MULLAZY (R153). -/
def execMullazy (rd rs1 rs2 rs3 : Reg) (b : Width) (s : State) : Outcome :=
  complete s do
    checkQ s
    checkBelow s s.modulus rs2
    checkFactor s (s.valX rs2) b rs3
    checkWidth (s.valX rs1) b rs1
    .ok (s.putX rd (lazyMul (s.valX rs1) (s.valX rs2) (s.valX rs3) s.modulus b))

end Sys2Proof.Machine
end

