-- ==== Sys2Proof/Machine/Transform.lean ====
section
/-! DEFINITION. Building the NTT tables (R192, R193) and the layers of the forward and inverse
transforms (R200, R201, R205, R206) on a local array of natural numbers. -/

namespace Sys2Proof.Machine

/-- One turn of BuildR's loop: the table so far and the index written last (R192). -/
def buildRStep (bits w q : Nat) (st : Array Nat × Nat) (i : Nat) : Array Nat × Nat :=
  let idx := bitrev i bits
  (st.1.setIfInBounds idx ((st.1.getD st.2 0 * w) % q), idx)

/-- `BuildR(n, w, q)`: the bit-reversed power table, `R[bitrev(i, log2 n)] = w^i mod q` (R192). -/
def buildR (n w q : Nat) : List Nat :=
  ((List.range' 1 (n - 1)).foldl (buildRStep (Nat.log2 n) w q)
    ((Array.replicate n 0).setIfInBounds 0 1, 0)).1.toList

/-- The blocks Rinv[m .. 2m−1] for m, m/2, …, 1, one after the other (R193). -/
def riBlocks (rinv : List Nat) : (layers m : Nat) → List Nat
  | 0, _ => []
  | layers + 1, m => (rinv.drop m).take m ++ riBlocks rinv layers (m / 2)

/-- `BuildRI(n, R, q)`: Rinv[0], then the blocks from m = n/2 down to m = 1 (R193). -/
def buildRI (n : Nat) (r : List Nat) (q : Nat) : List Nat :=
  let rinv := r.map (fun v => invMod v q)
  rinv.take 1 ++ riBlocks rinv (Nat.log2 n) (n / 2)

/-- One layer of a transform: `blocks` blocks of 2t positions; block i pairs a[j] with a[j + t] for its
first t positions j, by the butterfly of table index root + i (the i- and j-loops of R200 and R205). -/
def layer (bfly : Nat → Nat → Nat → Nat × Nat) (t : Nat) : (blocks root : Nat) → List Nat → List Nat
  | 0, _, a => a
  | blocks + 1, root, a =>
    let pairs := List.zipWith (bfly root) (a.take t) ((a.drop t).take t)
    pairs.map Prod.fst ++ pairs.map Prod.snd ++ layer bfly t blocks (root + 1) (a.drop (2 * t))

/-- The forward layers m, 2m, 4m, … with t, t/2, t/4, …; layer m reads the tables at m + i (R200). -/
def fwdLayers (bfly : Nat → Nat → Nat → Nat × Nat) : (layers m t : Nat) → List Nat → List Nat
  | 0, _, _, a => a
  | layers + 1, m, t, a => fwdLayers bfly layers (2 * m) (t / 2) (layer bfly t m m a)

/-- `FwdFinal` on one word: two conditional subtractions when fout = 1 (R201). -/
def fwdFinalWord (q : Nat) (fout : FwdOut) (v : Nat) : Nat :=
  match fout with
  | .four => v
  | .one =>
    let v' := if 2 * q ≤ v then v - 2 * q else v
    if q ≤ v' then v' - q else v'

/-- `ForwardNTT(a, n, q, B, fout)` with the factor tables R and P_B (R200, R201). -/
def forwardNTT (r p : Nat → Nat) (a : List Nat) (n q : Nat) (b : Width) (fout : FwdOut) : List Nat :=
  (fwdLayers (fun k x y => fwdBfly x y (r k) (p k) q b) (Nat.log2 n) 1 (n / 2) a).map
    (fwdFinalWord q fout)

/-- The inverse layers m, m/2, …, 2 with t, 2t, 4t, …; the table index rises by one a block (R205).
Also the table index after the last of them. -/
def invLayers (bfly : Nat → Nat → Nat → Nat × Nat) : (layers m t root : Nat) → List Nat → List Nat × Nat
  | 0, _, _, root, a => (a, root)
  | layers + 1, m, t, root, a => invLayers bfly layers (m / 2) (2 * t) (root + m) (layer bfly t m root a)

/-- The butterfly of the final inverse layer, fused with the 1/n scaling (R206). -/
def invFinalBfly (q invN invNPre invNW invNWPre : Nat) (b : Width) (x y : Nat) : Nat × Nat :=
  let tx := if 2 * q ≤ x + y then x + y - 2 * q else x + y
  let ty := x + 2 * q - y
  (lazyMul tx invN invNPre q b, lazyMul ty invNW invNWPre q b)

/-- The output step of R206: one conditional subtraction when fout = 1. -/
def invFinalWord (q : Nat) (fout : InvFactor) (v : Nat) : Nat :=
  match fout with
  | .two => v
  | .one => if q ≤ v then v - q else v

/-- `InvFinal(a, n, q, B, fout, root_idx)` with W = RI[root_idx] (R206). -/
def invFinal (w invN : Nat) (a : List Nat) (n q : Nat) (b : Width) (fout : InvFactor) : List Nat :=
  let invNW := (invN * w) % q
  let a' := layer (fun _ => invFinalBfly q invN (fac invN b q) invNW (fac invNW b q) b) (n / 2) 1 0 a
  a'.map (invFinalWord q fout)

/-- `InverseNTT(a, n, q, B, fout)` with the factor tables RI and P⁻¹_B and NTT_INV_N (R205, R206). -/
def inverseNTT (ri p : Nat → Nat) (invN : Nat) (a : List Nat) (n q : Nat) (b : Width)
    (fout : InvFactor) : List Nat :=
  let st := invLayers (fun k x y => invBfly x y (ri k) (p k) q b) (Nat.log2 n - 1) (n / 2) 1 1 a
  invFinal (ri st.2) invN st.1 n q b fout

end Sys2Proof.Machine
end

