-- ==== Sys2Proof/Machine/Ntt.lean ====
section
/-! DEFINITION. The NTT commands: NTTINIT, BFWD, NTTFWD, BINV, NTTINV (R190 to R209). -/

namespace Sys2Proof.Machine

/-- The checks of NTTINIT before ω is known (R191). -/
def nttinitChecks (rs1 : Reg) (s : State) : Except CmdError Unit := do
  checkQ s
  let n := s.valX rs1
  require (2 ≤ n ∧ n ≤ s.params.nmax ∧ isPow2 n) .degree rs1.toNat
  require (isPrime s.modulus) .notPrime 0
  require ((s.modulus - 1) % (2 * n) = 0) .not1Mod2n rs1.toNat

/-- The factors of one table at one width (R194). -/
def shadow (q : Nat) (b : Width) (table : List Nat) : List Nat := table.map fun v => fac v b q

/-- Writes the six tables: R, RI and their factors at both widths (R191, R194). -/
def State.writeTables (s : State) (q : Nat) (r ri : List Nat) : State :=
  ((((((s.tWrite 0 r).tWrite 1 ri).tWrite 2 (shadow q .b64 r)).tWrite 3 (shadow q .b52 r)).tWrite 4
    (shadow q .b64 ri)).tWrite 5 (shadow q .b52 ri))

/-- The registers latched for degree n, modulus q and root w (R30 to R35, R195). -/
def tableRegs (p : Params) (n q w : Nat) : NttRegs where
  valid := true
  fwd52 := q < p.qmax52Fwd
  inv52 := q < p.qmax52Inv
  n := BitVec.ofNat 64 n
  q := BitVec.ofNat 64 q
  omega := BitVec.ofNat 64 w
  omegaInv := BitVec.ofNat 64 (invMod w q)
  invN := BitVec.ofNat 64 (invMod n q)

/-- The six tables and the latched registers for degree n, modulus q and root w (R191 to R195). -/
def buildTables (s : State) (n q w : Nat) : State :=
  (s.writeTables q (buildR n w q) (buildRI n (buildR n w q) q)).latchNtt (tableRegs s.params n q w)

/-- NTTINIT (R191): ω from `x[rs2]` (f0 = 1) or from the root search (f0 = 0). -/
def execNttinit (rs1 : Reg) (omega : Option Reg) (s : State) : Outcome :=
  match nttinitChecks rs1 s with
  | .error e => complete s (.error e)
  | .ok () =>
    let n := s.valX rs1
    let q := s.modulus
    match omega with
    | some rs2 =>
      complete s do
        let w := s.valX rs2
        require (w < q ∧ isPrimRoot w (2 * n) q) .omegaBad rs2.toNat
        .ok (buildTables s n q w)
    | none =>
      match minPrimRoot s (2 * n) q with
      | (none, s') => complete s' (.error ⟨.rootSearchExhausted, 0⟩)
      | (some w, s') => complete s' (.ok (buildTables s' n q w))

/-- BFWD (R198): one forward butterfly on registers; both writes use the start-of-command operands. -/
def execBfwd (rd rs1 rs2 rs3 rs4 : Reg) (b : Width) (s : State) : Outcome :=
  complete s do
    checkQ s
    checkBelow s (4 * s.modulus) rs1
    checkBelow s (4 * s.modulus) rs2
    checkBelow s s.modulus rs3
    checkFactor s (s.valX rs3) b rs4
    checkWidth (s.valX rs2) b rs2
    let out := fwdBfly (s.valX rs1) (s.valX rs2) (s.valX rs3) (s.valX rs4) s.modulus b
    .ok ((s.putX rd out.1).putX (rd + 1) out.2)

/-- BINV (R203): one inverse butterfly on registers; the width check is on ty = X + 2Q − Y. -/
def execBinv (rd rs1 rs2 rs3 rs4 : Reg) (b : Width) (s : State) : Outcome :=
  complete s do
    checkQ s
    checkBelow s (2 * s.modulus) rs1
    checkBelow s (2 * s.modulus) rs2
    checkBelow s s.modulus rs3
    checkFactor s (s.valX rs3) b rs4
    checkWidth (s.valX rs1 + 2 * s.modulus - s.valX rs2) b rs2
    let out := invBfly (s.valX rs1) (s.valX rs2) (s.valX rs3) (s.valX rs4) s.modulus b
    .ok ((s.putX rd out.1).putX (rd + 1) out.2)

/-- The width of a transform: 52 exactly when the direction's latch is set, IFMA52_EN = 1 and
NTT_N >= SIMD_MIN_N (R196). -/
def transformWidth (s : State) (latch : Bool) : Width :=
  if latch ∧ s.ifma52En ∧ Config.simdMinN ≤ s.ntt.n.toNat then .b52 else .b64

/-- The checks NTTFWD and NTTINV share (R199, R204): tables, buffers, and every source word below
`fin · q`. -/
def transformChecks (s : State) (rd rs1 : Reg) (fin : Nat) : Except CmdError Unit := do
  require s.ntt.valid .noTables 0
  checkBuffers s s.ntt.n.toNat [rd, rs1]
  checkElems s (fin * s.ntt.q.toNat) [(.elementA, rs1)] s.ntt.n.toNat 0

/-- The TMEM table of forward factors for a width: P64 or P52 (R200). -/
def fwdFactorTable : Width → Nat
  | .b64 => 2
  | .b52 => 3

/-- The TMEM table of inverse factors for a width: PI64 or PI52 (R205). -/
def invFactorTable : Width → Nat
  | .b64 => 4
  | .b52 => 5

/-- The factor fin of NTTFWD (R199). -/
def fwdInFactor : FwdIn → Nat
  | .two => 2
  | .four => 4

/-- The factor fin of NTTINV (R204). -/
def invInFactor : InvFactor → Nat
  | .one => 1
  | .two => 2

/-- NTTFWD (R199). -/
def execNttfwd (rd rs1 : Reg) (fin : FwdIn) (fout : FwdOut) (s : State) : Outcome :=
  complete s do
    transformChecks s rd rs1 (fwdInFactor fin)
    let n := s.ntt.n.toNat
    let b := transformWidth s s.ntt.fwd52
    .ok (s.memWrite (s.valX rd)
      (forwardNTT (s.tRead 0) (s.tRead (fwdFactorTable b)) (buffer s rs1 n) n s.ntt.q.toNat b fout))

/-- NTTINV (R204). -/
def execNttinv (rd rs1 : Reg) (fin fout : InvFactor) (s : State) : Outcome :=
  complete s do
    transformChecks s rd rs1 (invInFactor fin)
    let n := s.ntt.n.toNat
    let b := transformWidth s s.ntt.inv52
    .ok (s.memWrite (s.valX rd)
      (inverseNTT (s.tRead 1) (s.tRead (invFactorTable b)) s.ntt.invN.toNat (buffer s rs1 n) n
        s.ntt.q.toNat b fout))

end Sys2Proof.Machine
end

