-- ==== Sys2Proof/Machine/Dispatch.lean ====
section
/-! DEFINITION. One arm per command. -/

namespace Sys2Proof.Machine

def exec (i : Instr) (s : State) : Host.Outcome State Fault Refusal :=
  match i with
  | .mulmod rd rs1 rs2 => Sys2Proof.Machine.execMulmod rd rs1 rs2 s
  | .bred rd rs1 => Sys2Proof.Machine.execBred rd rs1 s
  | .powmod rd rs1 rs2 => Sys2Proof.Machine.execPowmod rd rs1 rs2 s
  | .invmod rd rs1 => Sys2Proof.Machine.execInvmod rd rs1 s
  | .prtest rd rs1 rs2 => Sys2Proof.Machine.execPrtest rd rs1 rs2 s
  | .proot rd rs1 => Sys2Proof.Machine.execProot rd rs1 s
  | .mulfac rd rs1 b => Sys2Proof.Machine.execMulfac rd rs1 b s
  | .mullazy rd rs1 rs2 rs3 b => Sys2Proof.Machine.execMullazy rd rs1 rs2 rs3 b s
  | .vsub rd rs1 rs2 rs4 => Sys2Proof.Machine.execVsub rd rs1 rs2 rs4 s
  | .vsubs rd rs1 rs2 rs4 => Sys2Proof.Machine.execVsubs rd rs1 rs2 rs4 s
  | .vfma rd rs1 rs2 c rs4 => Sys2Proof.Machine.execVfma rd rs1 rs2 c rs4 s
  | .vmul rd rs1 rs2 rs4 => Sys2Proof.Machine.execVmul rd rs1 rs2 rs4 s
  | .nttinit rs1 omega => Sys2Proof.Machine.execNttinit rs1 omega s
  | .bfwd rd rs1 rs2 rs3 rs4 b => Sys2Proof.Machine.execBfwd rd rs1 rs2 rs3 rs4 b s
  | .nttfwd rd rs1 fin fout => Sys2Proof.Machine.execNttfwd rd rs1 fin fout s
  | .binv rd rs1 rs2 rs3 rs4 b => Sys2Proof.Machine.execBinv rd rs1 rs2 rs3 rs4 b s
  | .nttinv rd rs1 fin fout => Sys2Proof.Machine.execNttinv rd rs1 fin fout s

end Sys2Proof.Machine
end

