-- ==== Sys2Proof/Machine/HostPort.lean ====
section
/-! DEFINITION. The host port: the address map (R23, R64 to R66), well-formed accesses (R60), reads and
writes with the BUSY handshake (R70 to R72), and the reset input (R280 to R282). -/

namespace Sys2Proof.Machine

/-- The registers of R23 but for x0..x15. -/
inductive HostReg where
  | id | ctrl | status | errinfo | q | cmd
  | nttCfg | nttN | nttQ | nttOmega | nttOmegaInv | nttInvN
deriving DecidableEq, Repr

/-- What a mapped window offset names (R64). -/
inductive Target where
  | reg (r : HostReg)
  | gpr (r : Reg)
  | dmem (a : Nat)
  | tmem (t k : Nat)
deriving DecidableEq, Repr

/-- The register at an offset below 0x100 (R23). -/
def regAt (off : Nat) : Option HostReg :=
  match off with
  | 0x000 => some .id
  | 0x008 => some .ctrl
  | 0x010 => some .status
  | 0x018 => some .errinfo
  | 0x020 => some .q
  | 0x028 => some .cmd
  | 0x030 => some .nttCfg
  | 0x038 => some .nttN
  | 0x040 => some .nttQ
  | 0x048 => some .nttOmega
  | 0x050 => some .nttOmegaInv
  | 0x058 => some .nttInvN
  | _ => none

/-- The general register at an offset: x_i at 0x100 + 8·i (R23). -/
def gprAt (off : Nat) : Option Reg :=
  if 0x100 ≤ off ∧ off < 0x180 then some (BitVec.ofNat 4 ((off - 0x100) / 8)) else none

/-- The DMEM word at an offset: 0x0100_0000 + 8·a, a < DMEM_WORDS (R65). -/
def dmemAt (p : Params) (off : Nat) : Option Nat :=
  if dmemOff 0 ≤ off ∧ off < dmemOff p.dmemWords then some ((off - dmemOff 0) / 8) else none

/-- The TMEM word at an offset: 0x0200_0000 + t·0x0080_0000 + 8·k, t <= 5, k < NMAX (R66). -/
def tmemAt (p : Params) (off : Nat) : Option (Nat × Nat) :=
  if tmemOff 0 0 ≤ off ∧ off < tmemOff 6 0 then
    let t := (off - tmemOff 0 0) / tmemSlot
    let k := (off - tmemOff 0 0) % tmemSlot / 8
    if k < p.nmax then some (t, k) else none
  else none

/-- What a byte offset from BASE names; none where it is unmapped (R64). Only multiples of 8 name
anything. -/
def targetOf (p : Params) (off : Nat) : Option Target :=
  if off % 8 ≠ 0 then none
  else match regAt off with
  | some r => some (.reg r)
  | none =>
    match gprAt off with
    | some r => some (.gpr r)
    | none =>
      match dmemAt p off with
      | some a => some (.dmem a)
      | none => (tmemAt p off).map fun tk => .tmem tk.1 tk.2

/-- The word a well-formed access reaches: 8 bytes wide, at a multiple of 8, mapped (R60). -/
def wellFormedTarget (p : Params) (addr width : Nat) : Option Target :=
  if width = 8 ∧ addr % 8 = 0 ∧ p.base ≤ addr then targetOf p (addr - p.base) else none

/-- The value of a register as the host reads it while BUSY = 0 (R23 to R35). -/
def regRead (s : State) : HostReg → Word
  | .id => idWord
  | .ctrl => s.ctrlWord
  | .status => s.statusWord
  | .errinfo => s.errinfoWord
  | .q => s.q
  | .cmd => s.cmd
  | .nttCfg => s.nttCfgWord
  | .nttN => s.ntt.n
  | .nttQ => s.ntt.q
  | .nttOmega => s.ntt.omega
  | .nttOmegaInv => s.ntt.omegaInv
  | .nttInvN => s.ntt.invN

/-- The value of a target while BUSY = 0 (R22, R23, R65, R66). -/
def targetRead (s : State) : Target → Word
  | .reg r => regRead s r
  | .gpr r => s.getX r
  | .dmem a => s.wordAt (dmemOff a)
  | .tmem t k => s.wordAt (tmemOff t k)

/-- The targets whose current value a read returns even while BUSY = 1 (R72). -/
def readableWhileBusy : Target → Bool
  | .reg .id => true
  | .reg .ctrl => true
  | .reg .status => true
  | .reg .q => true
  | .reg .cmd => true
  | _ => false

/-- What a host access returns to the host: the data of a read, nothing for a write. -/
def State.respond (s : State) (r : Option Word) : State := { s with response := r }

/-- A well-formed host read: no side effect (R39, R63); while BUSY = 1 most reads return a draw, a fresh
one each time (R72). -/
def hostReadTarget (s : State) (t : Target) : State :=
  if s.busy ∧ readableWhileBusy t = false then (s.useDraws 1).respond (some (s.drawAt 0))
  else s.respond (some (targetRead s t))

/-- STATUS.OVR <- 1: a rejected write (R70, R71, R255). -/
def State.setOvr (s : State) (b : Bool) : State := { s with ovr := b }

/-- Writes CTRL: only bit 0 is kept, and not when HAS_IFMA52 = false (R25). -/
def State.setCtrl (s : State) (v : Word) : State :=
  { s with ctrlIfma52 := s.params.hasIfma52 && v.getLsbD 0 }

/-- Writes Q: any u64 (R28). -/
def State.setQ (s : State) (v : Word) : State := { s with q := v }

/-- A host write that takes effect only while BUSY = 0, and otherwise only sets OVR (R70, R71). -/
def guarded (s : State) (write : State → State) : State :=
  if s.busy then s.setOvr true else write s

/-- The effect of a well-formed host write of `v` (R25 to R29, R37, R65, R66, R70, R71). Every write made
while BUSY = 1 is rejected and sets OVR, also one to a read-only register or to TMEM (R255), which while
BUSY = 0 has no effect (R37); but a write to STATUS is accepted even then, and clears OVR when bit 2 is 1
and changes nothing when it is 0 (R26) (assumption 7). -/
def targetWrite (s : State) (v : Word) : Target → State
  | .reg .ctrl => guarded s fun s => s.setCtrl v
  | .reg .status => if v.getLsbD 2 then s.setOvr false else s
  | .reg .q => guarded s fun s => s.setQ v
  | .reg .cmd => guarded s fun s => s.accept v
  | .reg .id => guarded s id
  | .reg .errinfo => guarded s id
  | .reg .nttCfg => guarded s id
  | .reg .nttN => guarded s id
  | .reg .nttQ => guarded s id
  | .reg .nttOmega => guarded s id
  | .reg .nttOmegaInv => guarded s id
  | .reg .nttInvN => guarded s id
  | .gpr r => guarded s fun s => s.setX r v
  | .dmem a => guarded s fun s => s.writeWords (dmemOff a) [v]
  | .tmem _ _ => guarded s id

/-- A host read at a byte address: a bus error when it is not well-formed (R60, R254). -/
def hostRead (s : State) (addr width : Nat) : Outcome :=
  match wellFormedTarget s.params addr width with
  | none => .fault (.busError addr width)
  | some t => .next (hostReadTarget s t)

/-- A host write at a byte address: a bus error when it is not well-formed (R60, R254). -/
def hostWrite (s : State) (addr width : Nat) (v : Word) : Outcome :=
  match wellFormedTarget s.params addr width with
  | none => .fault (.busError addr width)
  | some t => .next ((targetWrite s v t).respond none)

/-- The reset input (R280 to R282): every register takes its reset value and a command in flight is
abandoned. Every DMEM and TMEM byte is unspecified afterwards ("A model may treat every DMEM and TMEM
word as unspecified after any reset"): nothing stays listed and the free values are those of a new
epoch (assumption 8). The parameters and the environment's fields go on. -/
def State.applyReset (s : State) : State :=
  { State.reset with
    params := s.params
    inputs := s.inputs
    entropy := s.entropy
    draws := s.draws
    epoch := s.epoch + 1 }

end Sys2Proof.Machine
end

