-- ==== Sys2Proof/Machine/Engine.lean ====
section
/-! DEFINITION. The engine's step and the effect of one event (R20, R73). -/

namespace Sys2Proof.Machine

/-- The engine performs the command in flight, decoding it first (R20, R97, R241). Without a command in
flight it is idle, and "idling changes no state" (R256). -/
def engineStep (s : State) : Outcome :=
  match s.inflight with
  | none => .next s
  | some v =>
    match decode v with
    | .ok i => exec i s
    | .error e => complete s (.error (illegal e))

/-- One event takes effect, as one indivisible action (R62, R73). -/
def eventStep (s : State) : Event → Outcome
  | .hostRead addr width => hostRead s addr width
  | .hostWrite addr width v => hostWrite s addr width v
  | .engine => engineStep s
  | .reset => .next s.applyReset

/-- Takes the next event off the list. -/
def State.setInputs (s : State) (es : List Event) : State := { s with inputs := es }

/-- The next event takes effect; with none pending the engine moves, so an accepted command is
performed eventually (R73, R288). -/
def stepBlock (s : State) : Outcome :=
  match s.inputs with
  | [] => engineStep s
  | e :: es => eventStep (s.setInputs es) e

/-- The state in which the very next step performs the command word `w`: the block has accepted the
64-bit CMD value whose bits above `nbits` are 0, and the engine's turn comes first (assumption 9). -/
def State.withCommand (s : State) (nbits w : Nat) : State :=
  (s.accept (BitVec.ofNat 64 (w % 2 ^ nbits))).setInputs (.engine :: s.inputs)

end Sys2Proof.Machine
end

