-- ==== Sys2Proof/Machine/Step.lean ====
section
/-! DEFINITION. One step of the block. -/

namespace Sys2Proof.Machine

/-- One step: the next event of the environment, or the engine's step when none is pending (R20, R73,
R288). -/
def step (s : State) : Host.Outcome State Fault Refusal := stepBlock s

/-- The block fetches no instructions (R76): its instruction is the accepted CMD value, so placing one
is accepting it (R70). -/
def State.withFetchWord (s : State) (nbits w : Nat) : State := s.withCommand nbits w

end Sys2Proof.Machine
end

