-- ==== Sys2Proof/Safety.lean ====
section
/-! DEFINITION. The terms the claims use: what an error report leaves, what a store leaves, when
the modulus is in range, and the invariants a step keeps. -/

namespace Sys2Proof.Machine

/-- The command word of R102 from its fields, each a number. -/
def commandWord (op : Nat) (rd rs1 rs2 rs3 rs4 : Reg) (f0 f1 : Nat) : Word :=
  BitVec.ofNat 64 (op + rd.toNat * 2 ^ 8 + rs1.toNat * 2 ^ 12 + rs2.toNat * 2 ^ 16 +
    rs3.toNat * 2 ^ 20 + rs4.toNat * 2 ^ 24 + f0 * 2 ^ 28 + f1 * 2 ^ 29)

/-- The flag f0 of a width: 1 for B = 52 (R93). -/
def widthBit : Width → Nat
  | .b64 => 0
  | .b52 => 1

/-- 2 <= Q < 2^62 (R121). -/
abbrev State.QInRange (s : State) : Prop := 2 ≤ s.modulus ∧ s.modulus < 2 ^ 62

/-- The state after a failed command (R241): ERRCODE, CAUSE and INDEX are written, BUSY is cleared, and
nothing else changes. -/
def State.reported (s : State) (errcode cause : BitVec 8) (index : BitVec 32) : State :=
  { s with err := { errcode := errcode, cause := cause, index := index }, inflight := none }

/-- The state after a successful command whose only write is `x[rd] <- v`. -/
def State.withResult (s : State) (rd : Reg) (v : Nat) : State :=
  { s with x := s.x.set rd.toNat (BitVec.ofNat 64 v), inflight := none }

/-- The buffer of `len` words at the base in register r lies in DMEM (R67). -/
abbrev State.Fits (s : State) (r : Reg) (len : Nat) : Prop := s.valX r + len ≤ s.params.dmemWords

/-- `t` is `s` after a successful command that stores `out 0`, …, `out (len − 1)` at the DMEM words from
`base` on and writes nothing else: those words hold the outputs, every other byte of DMEM and TMEM reads
as before, and no field but the memory and the in-flight command differs (R170, R12). -/
def StoresOnly (s t : State) (base len : Nat) (out : Nat → Nat) : Prop :=
  (∀ i < len, t.memRead (base + i) = out i) ∧
  (∀ a, a < dmemOff base ∨ dmemOff base + 8 * len ≤ a → t.byteAt a = s.byteAt a) ∧
  t = { s with mem := t.mem, inflight := none }

/-- Draw `k` from now gives a primitive m-th root of unity modulo Q: projected by the exponent
(Q − 1)/m, it passes the test of R19 (R128). -/
abbrev State.Hits (s : State) (m k : Nat) : Prop :=
  (((s.drawAt k).toNat % s.modulus) ^ ((s.modulus - 1) / m) % s.modulus) ^ (m / 2) % s.modulus =
    s.modulus - 1

/-- r is the least r' in [1, q) with r'^(m/2) mod q = q − 1 (R129). -/
def LeastRoot (r m q : Nat) : Prop :=
  (1 ≤ r ∧ r < q ∧ r ^ (m / 2) % q = q - 1) ∧
  ∀ r', 1 ≤ r' → r' < q → r' ^ (m / 2) % q = q - 1 → r ≤ r'

/-! ### The transforms of a state -/

/-- The source words of a transform at the base in register r. -/
abbrev State.source (s : State) (r : Reg) : List Nat := (List.range s.ntt.n.toNat).map (elem s r)

/-- The width NTTFWD runs at (R196). -/
abbrev State.fwdWidth (s : State) : Width := transformWidth s s.ntt.fwd52

/-- The width NTTINV runs at (R196). -/
abbrev State.invWidth (s : State) : Width := transformWidth s s.ntt.inv52

/-- The local array of NTTFWD after its first k layers (R200). -/
def State.fwdStage (s : State) (k : Nat) (a : List Nat) : List Nat :=
  fwdLayers (fun i x y => fwdBfly x y (s.tRead 0 i) (s.tRead (fwdFactorTable s.fwdWidth) i) s.ntt.q.toNat
    s.fwdWidth) k 1 (s.ntt.n.toNat / 2) a

/-- The local array of NTTINV after its first k layers, the final one not among them (R205). -/
def State.invStage (s : State) (k : Nat) (a : List Nat) : List Nat :=
  (invLayers (fun i x y => invBfly x y (s.tRead 1 i) (s.tRead (invFactorTable s.invWidth) i) s.ntt.q.toNat
    s.invWidth) k (s.ntt.n.toNat / 2) 1 1 a).1

/-- What NTTFWD stores (R200, R201). -/
def State.fwdOutput (s : State) (fout : FwdOut) (a : List Nat) : List Nat :=
  forwardNTT (s.tRead 0) (s.tRead (fwdFactorTable s.fwdWidth)) a s.ntt.n.toNat s.ntt.q.toNat s.fwdWidth fout

/-- What NTTINV stores (R205, R206). -/
def State.invOutput (s : State) (fout : InvFactor) (a : List Nat) : List Nat :=
  inverseNTT (s.tRead 1) (s.tRead (invFactorTable s.invWidth)) s.ntt.invN.toNat a s.ntt.n.toNat
    s.ntt.q.toNat s.invWidth fout

/-- The value at ω^(2·bitrev(k, log2 n) + 1) of the polynomial with the given coefficients, before the
reduction modulo q (R208). -/
def State.evaluation (s : State) (coeff : Nat → Nat) (k : Nat) : Nat :=
  ∑ i ∈ Finset.range s.ntt.n.toNat, coeff i *
    s.ntt.omega.toNat ^ ((2 * bitrev k (Nat.log2 s.ntt.n.toNat) + 1) * i)

/-! ### Invariants -/

/-- A window offset that is a byte of DMEM or of a TMEM table (R64 to R66). -/
def MappedByte (p : Params) (a : Nat) : Prop :=
  (dmemOff 0 ≤ a ∧ a < dmemOff p.dmemWords) ∨
  ∃ t < 6, tmemOff t 0 ≤ a ∧ a < tmemOff t p.nmax

/-- The memory is in its canonical form and lists mapped bytes only. -/
def MemoryOk (s : State) : Prop :=
  s.mem.wf = true ∧ ∀ c ∈ s.mem, MappedByte s.params c.1

/-- The INDEX column of R242. -/
def Cause.IndexOk (p : Params) (index : Nat) : Cause → Prop
  | .undefOpcode => index < 256 ∧ opcodeOf (BitVec.ofNat 8 index) = none
  | .oddPair => index < 16 ∧ index % 2 = 1
  | .reservedField | .qRange | .notPrime | .noTables | .rootSearchExhausted => index = 0
  | .operandRange | .bufferRange | .degree | .not1Mod2n | .omegaBad | .preconMismatch
  | .operandWidth | .notCoprime => index < 16
  | .elementA | .elementB | .elementC => index < p.dmemWords

/-- STATUS.ERRCODE and ERRINFO are all 0, or a row of R242: "Every other CAUSE value is never written". -/
def ReportOk (s : State) : Prop :=
  s.err = {} ∨ ∃ c : Cause, s.err.errcode = c.kind.code ∧ s.err.cause = c.code ∧
    c.IndexOk s.params s.err.index.toNat

/-- STATUS.LASTOP is CMD[7:0]; while a command is in flight it is the value CMD holds, and the report of
the command before it is cleared (R26, R29, R70). -/
def CommandOk (s : State) : Prop :=
  s.lastop = s.cmd.extractLsb' 0 8 ∧ ∀ v, s.inflight = some v → v = s.cmd ∧ s.err = {}

/-- CTRL.IFMA52_EN is 0 when HAS_IFMA52 = false (R25). -/
def CtrlOk (s : State) : Prop := s.params.hasIfma52 = false → s.ctrlIfma52 = false

/-- TMEM and the NTT registers hold the tables of degree n, modulus q and root w (R30 to R35, R41, R192
to R195). Entry m + i of R⁻¹ is at index n − 2m + 1 + i of RI, m = n/2, n/4, …, 1. -/
def TablesHold (s : State) (n q w : Nat) : Prop :=
  (2 ≤ n ∧ n ≤ s.params.nmax ∧ isPow2 n = true) ∧
  (q.Prime ∧ q < 2 ^ 62 ∧ (q - 1) % (2 * n) = 0) ∧
  (w < q ∧ w ^ n % q = q - 1) ∧
  (s.ntt.omegaInv.toNat < q ∧ w * s.ntt.omegaInv.toNat % q = 1) ∧
  (s.ntt.invN.toNat < q ∧ n * s.ntt.invN.toNat % q = 1) ∧
  (s.ntt.fwd52 = decide (q < s.params.qmax52Fwd) ∧ s.ntt.inv52 = decide (q < s.params.qmax52Inv)) ∧
  (∀ i < n, s.tRead 0 (bitrev i (Nat.log2 n)) = w ^ i % q) ∧
  (s.tRead 1 0 = 1 ∧ ∀ j < Nat.log2 n, ∀ i < 2 ^ j,
    s.tRead 1 (n - 2 * 2 ^ j + 1 + i) < q ∧
    s.tRead 1 (n - 2 * 2 ^ j + 1 + i) * s.tRead 0 (2 ^ j + i) % q = 1) ∧
  (∀ k < n, s.tRead 2 k = s.tRead 0 k * 2 ^ 64 / q ∧ s.tRead 3 k = s.tRead 0 k * 2 ^ 52 / q ∧
    s.tRead 4 k = s.tRead 1 k * 2 ^ 64 / q ∧ s.tRead 5 k = s.tRead 1 k * 2 ^ 52 / q)

/-- NTT_CFG.VALID = 1 means that the tables of NTT_N, NTT_Q and NTT_OMEGA are there (R35, R190). -/
def TablesOk (s : State) : Prop :=
  s.ntt.valid = true → TablesHold s s.ntt.n.toNat s.ntt.q.toNat s.ntt.omega.toNat

/-- `t` is `s` after a successful NTTINIT for degree n, modulus q and root w (R191): the tables and the
registers are there, every byte outside the words k < n of the six tables reads as before (D44), and
nothing else differs. -/
def TablesBuilt (s t : State) (n q w : Nat) : Prop :=
  (t.ntt.valid = true ∧ t.ntt.n.toNat = n ∧ t.ntt.q.toNat = q ∧ t.ntt.omega.toNat = w) ∧
  TablesHold t n q w ∧
  (∀ a, (∀ tb < 6, a < tmemOff tb 0 ∨ tmemOff tb n ≤ a) → t.byteAt a = s.byteAt a) ∧
  t = { s with mem := t.mem, ntt := t.ntt, inflight := none }

end Sys2Proof.Machine
end

