-- ==== Sys2Proof/Certificates/Slice0/Obligations.lean ====
section
/-! DEFINITION. The statements about the block, for the provers. -/

open Sys2Proof Sys2Proof.Machine

/-! ### Encoding and decoding (30_encoding.md) -/

/-- No bit of an encoding is dropped: decoding the encoded word of a well-formed command gives it back,
for all 17 commands and every operand (R91, R95, R97, R102). -/
def Obligations.DecodeOfEncodeIsIdentity : Prop :=
  ∀ i : Instr, i.wellFormed = true → decode (encode i) = .ok i

/-- Each CMD value the decoder takes is the encoding of what it decodes to, and that command is
well-formed: no two values mean the same command (R95, R97). -/
def Obligations.EncodeOfDecodeIsIdentity : Prop :=
  ∀ (v : Word) (i : Instr), decode v = .ok i → i.wellFormed = true ∧ encode i = v

/-- R102: `word = op | rd<<8 | rs1<<12 | rs2<<16 | rs3<<20 | rs4<<24 | f0<<28 | f1<<29`, each unused
field 0, for every command with the opcodes of R94 and the flags of R93; and the rule's example. -/
def Obligations.EncodingFollowsWordFormula : Prop :=
  (∀ rd rs1 rs2, encode (.mulmod rd rs1 rs2) = commandWord 0x10 rd rs1 rs2 0 0 0 0) ∧
  (∀ rd rs1, encode (.bred rd rs1) = commandWord 0x11 rd rs1 0 0 0 0 0) ∧
  (∀ rd rs1 rs2, encode (.powmod rd rs1 rs2) = commandWord 0x12 rd rs1 rs2 0 0 0 0) ∧
  (∀ rd rs1, encode (.invmod rd rs1) = commandWord 0x13 rd rs1 0 0 0 0 0) ∧
  (∀ rd rs1 rs2, encode (.prtest rd rs1 rs2) = commandWord 0x14 rd rs1 rs2 0 0 0 0) ∧
  (∀ rd rs1, encode (.proot rd rs1) = commandWord 0x15 rd rs1 0 0 0 0 0) ∧
  (∀ rd rs1 b, encode (.mulfac rd rs1 b) = commandWord 0x20 rd rs1 0 0 0 (widthBit b) 0) ∧
  (∀ rd rs1 rs2 rs3 b,
    encode (.mullazy rd rs1 rs2 rs3 b) = commandWord 0x21 rd rs1 rs2 rs3 0 (widthBit b) 0) ∧
  (∀ rd rs1 rs2 rs4, encode (.vsub rd rs1 rs2 rs4) = commandWord 0x30 rd rs1 rs2 0 rs4 0 0) ∧
  (∀ rd rs1 rs2 rs4, encode (.vsubs rd rs1 rs2 rs4) = commandWord 0x31 rd rs1 rs2 0 rs4 0 0) ∧
  (∀ rd rs1 rs2 rs3 rs4,
    encode (.vfma rd rs1 rs2 (some rs3) rs4) = commandWord 0x32 rd rs1 rs2 rs3 rs4 1 0) ∧
  (∀ rd rs1 rs2 rs4, encode (.vfma rd rs1 rs2 none rs4) = commandWord 0x32 rd rs1 rs2 0 rs4 0 0) ∧
  (∀ rd rs1 rs2 rs4, encode (.vmul rd rs1 rs2 rs4) = commandWord 0x33 rd rs1 rs2 0 rs4 0 0) ∧
  (∀ rs1, encode (.nttinit rs1 none) = commandWord 0x40 0 rs1 0 0 0 0 0) ∧
  (∀ rs1 rs2, encode (.nttinit rs1 (some rs2)) = commandWord 0x40 0 rs1 rs2 0 0 1 0) ∧
  (∀ rd rs1 rs2 rs3 rs4 b,
    encode (.bfwd rd rs1 rs2 rs3 rs4 b) = commandWord 0x41 rd rs1 rs2 rs3 rs4 (widthBit b) 0) ∧
  (∀ rd rs1, encode (.nttfwd rd rs1 .two .one) = commandWord 0x42 rd rs1 0 0 0 0 0 ∧
    encode (.nttfwd rd rs1 .four .one) = commandWord 0x42 rd rs1 0 0 0 1 0 ∧
    encode (.nttfwd rd rs1 .two .four) = commandWord 0x42 rd rs1 0 0 0 0 1 ∧
    encode (.nttfwd rd rs1 .four .four) = commandWord 0x42 rd rs1 0 0 0 1 1) ∧
  (∀ rd rs1 rs2 rs3 rs4 b,
    encode (.binv rd rs1 rs2 rs3 rs4 b) = commandWord 0x43 rd rs1 rs2 rs3 rs4 (widthBit b) 0) ∧
  (∀ rd rs1, encode (.nttinv rd rs1 .one .one) = commandWord 0x44 rd rs1 0 0 0 0 0 ∧
    encode (.nttinv rd rs1 .two .one) = commandWord 0x44 rd rs1 0 0 0 1 0 ∧
    encode (.nttinv rd rs1 .one .two) = commandWord 0x44 rd rs1 0 0 0 0 1 ∧
    encode (.nttinv rd rs1 .two .two) = commandWord 0x44 rd rs1 0 0 0 1 1) ∧
  encode (.mullazy 4 1 2 3 .b52) = 0x10321421

/-- A few words written out in the manual decode to the commands they stand for (R122, R153, R174, R191,
R198, R199). -/
def Obligations.ManualWordsDecode : Prop :=
  decode 0x00021310 = .ok (.mulmod 3 1 2) ∧
  decode 0x10321421 = .ok (.mullazy 4 1 2 3 .b52) ∧
  decode 0x15321432 = .ok (.vfma 4 1 2 (some 3) 5) ∧
  decode 0x05021432 = .ok (.vfma 4 1 2 none 5) ∧
  decode 0x10021040 = .ok (.nttinit 1 (some 2)) ∧
  decode 0x14321641 = .ok (.bfwd 6 1 2 3 4 .b52) ∧
  decode 0x20002342 = .ok (.nttfwd 3 2 .two .four)

/-- The opcodes outside the map of R94 are exactly those R98 lists, and all-zero is one of them. -/
def Obligations.UndefinedOpcodesAreTheListedRanges : Prop :=
  (∀ b : Byte, opcodeOf b = none ↔
    (b.toNat ≤ 0x0F ∨ (0x16 ≤ b.toNat ∧ b.toNat ≤ 0x1F) ∨ (0x22 ≤ b.toNat ∧ b.toNat ≤ 0x2F) ∨
      (0x34 ≤ b.toNat ∧ b.toNat ≤ 0x3F) ∨ 0x45 ≤ b.toNat)) ∧
  decode 0 = .error (.undefOpcode 0)

/-- R97, the decoder: each check in the order the rule writes them, and where all pass the command of the
row whose operands are the fields of R91. -/
def Obligations.DecoderChecksInOrder : Prop :=
  ∀ v : Word,
    (opcodeOf (v.extractLsb' 0 8) = none → decode v = .error (.undefOpcode (v.extractLsb' 0 8))) ∧
    ∀ op, opcodeOf (v.extractLsb' 0 8) = some op →
      ((v.extractLsb' 32 32 ≠ 0#32 ∨ v.extractLsb' 0 32 &&& op.mask ≠ op.pattern ∨
          (op = .vfma ∧ v.getLsbD 28 = false ∧ v.extractLsb' 20 4 ≠ 0#4) ∨
          (op = .nttinit ∧ v.getLsbD 28 = false ∧ v.extractLsb' 16 4 ≠ 0#4)) →
        decode v = .error .reservedField) ∧
      (v.extractLsb' 32 32 = 0#32 → v.extractLsb' 0 32 &&& op.mask = op.pattern →
        (op = .vfma → v.getLsbD 28 = false → v.extractLsb' 20 4 = 0#4) →
        (op = .nttinit → v.getLsbD 28 = false → v.extractLsb' 16 4 = 0#4) →
        ((op = .bfwd ∨ op = .binv) → v.getLsbD 8 = true →
          decode v = .error (.oddPair (v.extractLsb' 8 4))) ∧
        ((op = .bfwd ∨ op = .binv → v.getLsbD 8 = false) →
          ∃ i, decode v = .ok i ∧ encode i = v))

/-! ### The step (10_state.md, 60_exceptions.md) -/

/-- A step runs the decoded command: with the engine's turn next, a step is `exec` of the command in flight
(R20, R70, R97). That the step is the engine's too when no event is pending is the model's choice
(assumption 5); R288 says only that the completion eventually happens. -/
def Obligations.StepRunsDecodedCommand : Prop :=
  ∀ (s : State) (v : Word) (i : Instr), s.inflight = some v → decode v = .ok i →
    (s.inputs = [] → step s = exec i s) ∧
    (∀ es, s.inputs = .engine :: es → step s = exec i { s with inputs := es })

/-- A word the decoder rejects completes as ILLEGAL: ERRCODE 5, the cause and INDEX of R242, nothing else
(R97, R241), on the engine's turn, and with no event pending (the model's choice, assumption 5). -/
def Obligations.StepReportsIllegalWord : Prop :=
  ∀ (s : State) (v : Word), s.inflight = some v →
    (s.inputs = [] →
      (∀ op, decode v = .error (.undefOpcode op) →
        step s = .next (s.reported 5 0x01 (BitVec.ofNat 32 op.toNat))) ∧
      (decode v = .error .reservedField → step s = .next (s.reported 5 0x02 0)) ∧
      (∀ rd, decode v = .error (.oddPair rd) →
        step s = .next (s.reported 5 0x03 (BitVec.ofNat 32 rd.toNat)))) ∧
    (∀ es, s.inputs = .engine :: es →
      (∀ op, decode v = .error (.undefOpcode op) →
        step s = .next ({ s with inputs := es }.reported 5 0x01 (BitVec.ofNat 32 op.toNat))) ∧
      (decode v = .error .reservedField →
        step s = .next ({ s with inputs := es }.reported 5 0x02 0)) ∧
      (∀ rd, decode v = .error (.oddPair rd) →
        step s = .next ({ s with inputs := es }.reported 5 0x03 (BitVec.ofNat 32 rd.toNat))))

/-- R256: "When no command is in flight it is idle, and idling changes no state"; with no event pending the
step is the engine's by the model's choice (assumption 5). -/
def Obligations.IdleStepChangesNothing : Prop :=
  ∀ s : State, s.inflight = none →
    (s.inputs = [] → step s = .next s) ∧
    (∀ es, s.inputs = .engine :: es → step s = .next { s with inputs := es })

/-- The model's own interface (assumption 9): the step after `withFetchWord` runs the word placed, as an
accepted command of the state it was placed in. -/
def Obligations.PlacedWordRunsNext : Prop :=
  ∀ (s : State) (nbits w : Nat) (i : Instr), decodeTableWord nbits w = some i →
    step (s.withFetchWord nbits w) = exec i (s.accept (BitVec.ofNat 64 (w % 2 ^ nbits)))

/-! ### Every command (60_exceptions.md) -/

/-- Every command completes: `exec` gives a next state in which no command is in flight, and no command
writes Q, CMD, CTRL, OVR or LASTOP (R240, R241, R249); nor does one touch the model's own fields but for
its draws. -/
def Obligations.EveryCommandCompletes : Prop :=
  ∀ (i : Instr) (s : State), ∃ t, exec i s = .next t ∧ t.inflight = none ∧
    t.q = s.q ∧ t.cmd = s.cmd ∧ t.ctrlIfma52 = s.ctrlIfma52 ∧ t.ovr = s.ovr ∧ t.lastop = s.lastop ∧
    t.params = s.params ∧ t.inputs = s.inputs ∧ t.response = s.response ∧ t.epoch = s.epoch

/-- R244: "A general register, DMEM word, TMEM word or NTT register is never changed by a failed
command", and the only state an error writes is ERRCODE and ERRINFO, together with clearing BUSY. The
draws a failed search has taken stay taken (the model's own fields, assumption 3). -/
def Obligations.FailedCommandWritesOnlyItsReport : Prop :=
  ∀ (i : Instr) (s t : State), s.err = {} → exec i s = .next t → t.err ≠ {} →
    t = { s with err := t.err, inflight := none, entropy := t.entropy, draws := t.draws }

/-- R79: "TMEM and the NTT registers change only at the completion of a successful NTTINIT and at reset":
a step after which a TMEM byte or an NTT register differs took a reset, or performed an NTTINIT that
reported no error. -/
def Obligations.TablesChangeOnlyAtNttinitOrReset : Prop :=
  ∀ s t : State, s.params.Legal → step s = .next t →
    (t.ntt ≠ s.ntt ∨ ∃ a, 0x02000000 ≤ a ∧ t.byteAt a ≠ s.byteAt a) →
    (∃ es, s.inputs = .reset :: es) ∨
    ((s.inputs = [] ∨ ∃ es, s.inputs = .engine :: es) ∧
      ∃ v rs1 omega, s.inflight = some v ∧ decode v = .ok (.nttinit rs1 omega) ∧
        t.ntt.valid = true ∧ t.err = s.err)

/-- The frame of the register commands: memory and the NTT registers are unchanged, and so is every
general register but the destination `x[rd]` (BFWD and BINV: `x[rd]` and `x[rd+1]`) (R22, R96, R120). -/
def Obligations.RegisterCommandsWriteOnlyTheirDestination : Prop :=
  ∀ (s t : State) (rd : Reg) (i : Instr),
    ((∃ rs1 rs2, i = .mulmod rd rs1 rs2) ∨ (∃ rs1, i = .bred rd rs1) ∨
      (∃ rs1 rs2, i = .powmod rd rs1 rs2) ∨ (∃ rs1, i = .invmod rd rs1) ∨
      (∃ rs1 rs2, i = .prtest rd rs1 rs2) ∨ (∃ rs1, i = .proot rd rs1) ∨
      (∃ rs1 b, i = .mulfac rd rs1 b) ∨ (∃ rs1 rs2 rs3 b, i = .mullazy rd rs1 rs2 rs3 b) ∨
      (∃ rs1 rs2 rs3 rs4 b, i = .bfwd rd rs1 rs2 rs3 rs4 b) ∨
      (∃ rs1 rs2 rs3 rs4 b, i = .binv rd rs1 rs2 rs3 rs4 b)) →
    exec i s = .next t →
      (∀ a, t.byteAt a = s.byteAt a) ∧ t.ntt = s.ntt ∧
      (∀ r, r ≠ rd →
        (r = rd + 1 → (∀ rs1 rs2 rs3 rs4 b, i ≠ .bfwd rd rs1 rs2 rs3 rs4 b) ∧
          ∀ rs1 rs2 rs3 rs4 b, i ≠ .binv rd rs1 rs2 rs3 rs4 b) →
        t.getX r = s.getX r)

/-- "No vector command writes a general register" (R170), and neither does NTTINIT, NTTFWD or NTTINV
(R191, R199, R204). -/
def Obligations.BufferCommandsWriteNoRegister : Prop :=
  ∀ (s t : State) (i : Instr),
    ((∃ rd rs1 rs2 rs4, i = .vsub rd rs1 rs2 rs4) ∨ (∃ rd rs1 rs2 rs4, i = .vsubs rd rs1 rs2 rs4) ∨
      (∃ rd rs1 rs2 c rs4, i = .vfma rd rs1 rs2 c rs4) ∨ (∃ rd rs1 rs2 rs4, i = .vmul rd rs1 rs2 rs4) ∨
      (∃ rs1 omega, i = .nttinit rs1 omega) ∨ (∃ rd rs1 fin fout, i = .nttfwd rd rs1 fin fout) ∨
      (∃ rd rs1 fin fout, i = .nttinv rd rs1 fin fout)) →
    exec i s = .next t → ∀ r, t.getX r = s.getX r

/-! ### ModArith (40_modarith.md) -/

/-- R122, MULMOD: its word, its checks in order, and the exact product modulo Q. -/
def Obligations.MulmodMeaning : Prop :=
  ∀ (rd rs1 rs2 : Reg) (s : State),
    decode (commandWord 0x10 rd rs1 rs2 0 0 0 0) = .ok (.mulmod rd rs1 rs2) ∧
    (¬ s.QInRange → exec (.mulmod rd rs1 rs2) s = .next (s.reported 1 0x10 0)) ∧
    (s.QInRange → s.modulus ≤ s.valX rs1 →
      exec (.mulmod rd rs1 rs2) s = .next (s.reported 1 0x11 (BitVec.ofNat 32 rs1.toNat))) ∧
    (s.QInRange → s.valX rs1 < s.modulus → s.modulus ≤ s.valX rs2 →
      exec (.mulmod rd rs1 rs2) s = .next (s.reported 1 0x11 (BitVec.ofNat 32 rs2.toNat))) ∧
    (s.QInRange → s.valX rs1 < s.modulus → s.valX rs2 < s.modulus →
      exec (.mulmod rd rs1 rs2) s = .next (s.withResult rd (s.valX rs1 * s.valX rs2 % s.modulus)))

/-- R123, BRED: its word, its check, and the canonical residue of any u64. -/
def Obligations.BredMeaning : Prop :=
  ∀ (rd rs1 : Reg) (s : State),
    decode (commandWord 0x11 rd rs1 0 0 0 0 0) = .ok (.bred rd rs1) ∧
    (¬ s.QInRange → exec (.bred rd rs1) s = .next (s.reported 1 0x10 0)) ∧
    (s.QInRange → exec (.bred rd rs1) s = .next (s.withResult rd (s.valX rs1 % s.modulus)))

/-- R124, POWMOD: its word, its check, and b^e mod Q for every u64 b and e, 0^0 = 1. -/
def Obligations.PowmodMeaning : Prop :=
  ∀ (rd rs1 rs2 : Reg) (s : State),
    decode (commandWord 0x12 rd rs1 rs2 0 0 0 0) = .ok (.powmod rd rs1 rs2) ∧
    (¬ s.QInRange → exec (.powmod rd rs1 rs2) s = .next (s.reported 1 0x10 0)) ∧
    (s.QInRange →
      exec (.powmod rd rs1 rs2) s = .next (s.withResult rd (s.valX rs1 ^ s.valX rs2 % s.modulus)))

/-- R125, INVMOD: its word, its checks in order, and the z in [1, Q) with a·z ≡ 1 (R18). -/
def Obligations.InvmodMeaning : Prop :=
  ∀ (rd rs1 : Reg) (s : State),
    decode (commandWord 0x13 rd rs1 0 0 0 0 0) = .ok (.invmod rd rs1) ∧
    (¬ s.QInRange → exec (.invmod rd rs1) s = .next (s.reported 1 0x10 0)) ∧
    (s.QInRange → Nat.gcd (s.valX rs1 % s.modulus) s.modulus ≠ 1 →
      exec (.invmod rd rs1) s = .next (s.reported 4 0x40 (BitVec.ofNat 32 rs1.toNat))) ∧
    (s.QInRange → Nat.gcd (s.valX rs1 % s.modulus) s.modulus = 1 →
      ∃ z, 1 ≤ z ∧ z < s.modulus ∧ s.valX rs1 * z % s.modulus = 1 ∧
        exec (.invmod rd rs1) s = .next (s.withResult rd z))

/-- R126, PRTEST: its word, its check, and 1 exactly when r^(d div 2) mod Q = Q − 1. -/
def Obligations.PrtestMeaning : Prop :=
  ∀ (rd rs1 rs2 : Reg) (s : State),
    decode (commandWord 0x14 rd rs1 rs2 0 0 0 0) = .ok (.prtest rd rs1 rs2) ∧
    (¬ s.QInRange → exec (.prtest rd rs1 rs2) s = .next (s.reported 1 0x10 0)) ∧
    (s.QInRange → exec (.prtest rd rs1 rs2) s =
      .next (s.withResult rd (if s.valX rs1 ^ (s.valX rs2 / 2) % s.modulus = s.modulus - 1 then 1 else 0)))

/-- R127 to R129, PROOT: its word, its checks in order; when a draw hits, the least primitive m-th root
whatever the draws were; when all PROOT_MAX_ATTEMPTS draws miss, RESOURCE and no other effect on the block.
That the draws taken stay taken (`useDraws`) is the model's choice (assumption 3). -/
def Obligations.ProotReturnsLeastRoot : Prop :=
  ∀ (rd rs1 : Reg) (s : State),
    decode (commandWord 0x15 rd rs1 0 0 0 0 0) = .ok (.proot rd rs1) ∧
    (¬ s.QInRange → exec (.proot rd rs1) s = .next (s.reported 1 0x10 0)) ∧
    (s.QInRange → ¬ (2 ≤ s.valX rs1 ∧ ∃ e, s.valX rs1 = 2 ^ e) →
      exec (.proot rd rs1) s = .next (s.reported 1 0x16 (BitVec.ofNat 32 rs1.toNat))) ∧
    (s.QInRange → (2 ≤ s.valX rs1 ∧ ∃ e, s.valX rs1 = 2 ^ e) →
      (¬ s.modulus.Prime → exec (.proot rd rs1) s = .next (s.reported 1 0x17 0)) ∧
      (s.modulus.Prime → (s.modulus - 1) % s.valX rs1 ≠ 0 →
        exec (.proot rd rs1) s = .next (s.reported 1 0x18 (BitVec.ofNat 32 rs1.toNat))) ∧
      (s.modulus.Prime → (s.modulus - 1) % s.valX rs1 = 0 →
        (∀ k < s.params.prootMaxAttempts, s.Hits (s.valX rs1) k → (∀ j < k, ¬ s.Hits (s.valX rs1) j) →
          ∃ r, LeastRoot r (s.valX rs1) s.modulus ∧
            exec (.proot rd rs1) s = .next ((s.useDraws (k + 1)).withResult rd r)) ∧
        ((∀ k < s.params.prootMaxAttempts, ¬ s.Hits (s.valX rs1) k) →
          exec (.proot rd rs1) s =
            .next ((s.useDraws s.params.prootMaxAttempts).reported 2 0x20 0))))

/-! ### MultiplyFactor (41_multiply_factor.md) -/

/-- R152, MULFAC: its word, its checks in order, and the factor (y · 2^B) div Q, below 2^B. -/
def Obligations.MulfacMeaning : Prop :=
  ∀ (rd rs1 : Reg) (b : Width) (s : State),
    decode (commandWord 0x20 rd rs1 0 0 0 (widthBit b) 0) = .ok (.mulfac rd rs1 b) ∧
    (¬ s.QInRange → exec (.mulfac rd rs1 b) s = .next (s.reported 1 0x10 0)) ∧
    (s.QInRange → s.modulus ≤ s.valX rs1 →
      exec (.mulfac rd rs1 b) s = .next (s.reported 1 0x11 (BitVec.ofNat 32 rs1.toNat))) ∧
    (s.QInRange → s.valX rs1 < s.modulus →
      s.valX rs1 * 2 ^ widthBits b / s.modulus < 2 ^ widthBits b ∧
      exec (.mulfac rd rs1 b) s =
        .next (s.withResult rd (s.valX rs1 * 2 ^ widthBits b / s.modulus)))

/-- R153 with R150 and R151, MULLAZY: its word, its checks in order, and the lazy product y·W − q_est·Q,
which is below 2Q, congruent to y·W modulo Q and needs no truncation. -/
def Obligations.MullazyMeaning : Prop :=
  ∀ (rd rs1 rs2 rs3 : Reg) (b : Width) (s : State),
    decode (commandWord 0x21 rd rs1 rs2 rs3 0 (widthBit b) 0) = .ok (.mullazy rd rs1 rs2 rs3 b) ∧
    (¬ s.QInRange → exec (.mullazy rd rs1 rs2 rs3 b) s = .next (s.reported 1 0x10 0)) ∧
    (s.QInRange → s.modulus ≤ s.valX rs2 →
      exec (.mullazy rd rs1 rs2 rs3 b) s = .next (s.reported 1 0x11 (BitVec.ofNat 32 rs2.toNat))) ∧
    (s.QInRange → s.valX rs2 < s.modulus →
      (s.valX rs3 ≠ s.valX rs2 * 2 ^ widthBits b / s.modulus →
        exec (.mullazy rd rs1 rs2 rs3 b) s = .next (s.reported 1 0x1A (BitVec.ofNat 32 rs3.toNat))) ∧
      (s.valX rs3 = s.valX rs2 * 2 ^ widthBits b / s.modulus → 2 ^ widthBits b ≤ s.valX rs1 →
        exec (.mullazy rd rs1 rs2 rs3 b) s = .next (s.reported 3 0x30 (BitVec.ofNat 32 rs1.toNat))) ∧
      (s.valX rs3 = s.valX rs2 * 2 ^ widthBits b / s.modulus → s.valX rs1 < 2 ^ widthBits b →
        ∃ v, s.valX rs1 * s.valX rs2 =
            v + s.valX rs1 * s.valX rs3 / 2 ^ widthBits b * s.modulus ∧
          v < 2 * s.modulus ∧ v % s.modulus = s.valX rs1 * s.valX rs2 % s.modulus ∧
          exec (.mullazy rd rs1 rs2 rs3 b) s = .next (s.withResult rd v)))

/-! ### Element-wise commands (42_eltwise.md) -/

/-- The checks of R170 report the first failure in the rule's order: Q, the buffers in field order, the
scalars, then the elements by ascending index and within one index in the order given. -/
def Obligations.VecChecksReportFirstFailure : Prop :=
  ∀ (s : State) (buffers scalars : List Reg) (elems : List (Cause × Reg)) (len : Nat),
    (¬ s.QInRange → vecChecks s buffers scalars elems len = .error ⟨.qRange, 0⟩) ∧
    (s.QInRange → ∀ pre r post, buffers = pre ++ r :: post → (∀ b ∈ pre, s.Fits b len) → ¬ s.Fits r len →
      vecChecks s buffers scalars elems len = .error ⟨.bufferRange, r.toNat⟩) ∧
    (s.QInRange → (∀ b ∈ buffers, s.Fits b len) →
      (∀ pre r post, scalars = pre ++ r :: post → (∀ b ∈ pre, s.valX b < s.modulus) →
        s.modulus ≤ s.valX r →
        vecChecks s buffers scalars elems len = .error ⟨.operandRange, r.toNat⟩) ∧
      ((∀ b ∈ scalars, s.valX b < s.modulus) →
        (∀ i < len, (∀ j < i, ∀ e ∈ elems, elem s e.2 j < s.modulus) →
          ∀ pre c r post, elems = pre ++ (c, r) :: post → (∀ e ∈ pre, elem s e.2 i < s.modulus) →
            s.modulus ≤ elem s r i → vecChecks s buffers scalars elems len = .error ⟨c, i⟩) ∧
        ((∀ i < len, ∀ e ∈ elems, elem s e.2 i < s.modulus) →
          vecChecks s buffers scalars elems len = .ok ())))

/-- R172, VSUB: its word, its failures in order, and out[i] = (a[i] + Q − b[i]) mod Q of the start-of-command
operands, stored at `x[rd]` and nothing else written (R78, R170). -/
def Obligations.VsubMeaning : Prop :=
  ∀ (rd rs1 rs2 rs4 : Reg) (s : State),
    decode (commandWord 0x30 rd rs1 rs2 0 rs4 0 0) = .ok (.vsub rd rs1 rs2 rs4) ∧
    (¬ s.QInRange → exec (.vsub rd rs1 rs2 rs4) s = .next (s.reported 1 0x10 0)) ∧
    (s.QInRange → ¬ s.Fits rd (s.valX rs4) →
      exec (.vsub rd rs1 rs2 rs4) s = .next (s.reported 1 0x15 (BitVec.ofNat 32 rd.toNat))) ∧
    (s.QInRange → s.Fits rd (s.valX rs4) → ¬ s.Fits rs1 (s.valX rs4) →
      exec (.vsub rd rs1 rs2 rs4) s = .next (s.reported 1 0x15 (BitVec.ofNat 32 rs1.toNat))) ∧
    (s.QInRange → s.Fits rd (s.valX rs4) → s.Fits rs1 (s.valX rs4) → ¬ s.Fits rs2 (s.valX rs4) →
      exec (.vsub rd rs1 rs2 rs4) s = .next (s.reported 1 0x15 (BitVec.ofNat 32 rs2.toNat))) ∧
    (s.QInRange → s.Fits rd (s.valX rs4) → s.Fits rs1 (s.valX rs4) → s.Fits rs2 (s.valX rs4) →
      ∀ i < s.valX rs4, (∀ j < i, elem s rs1 j < s.modulus ∧ elem s rs2 j < s.modulus) →
      (s.modulus ≤ elem s rs1 i →
        exec (.vsub rd rs1 rs2 rs4) s = .next (s.reported 1 0x12 (BitVec.ofNat 32 i))) ∧
      (elem s rs1 i < s.modulus → s.modulus ≤ elem s rs2 i →
        exec (.vsub rd rs1 rs2 rs4) s = .next (s.reported 1 0x13 (BitVec.ofNat 32 i)))) ∧
    (s.QInRange → s.Fits rd (s.valX rs4) → s.Fits rs1 (s.valX rs4) → s.Fits rs2 (s.valX rs4) →
      (∀ i < s.valX rs4, elem s rs1 i < s.modulus ∧ elem s rs2 i < s.modulus) →
      ∃ t, exec (.vsub rd rs1 rs2 rs4) s = .next t ∧
        StoresOnly s t (s.valX rd) (s.valX rs4)
          (fun i => (elem s rs1 i + s.modulus - elem s rs2 i) % s.modulus))

/-- R173, VSUBS: its word, its failures in order, and out[i] = (a[i] + Q − x[rs2]) mod Q. -/
def Obligations.VsubsMeaning : Prop :=
  ∀ (rd rs1 rs2 rs4 : Reg) (s : State),
    decode (commandWord 0x31 rd rs1 rs2 0 rs4 0 0) = .ok (.vsubs rd rs1 rs2 rs4) ∧
    (¬ s.QInRange → exec (.vsubs rd rs1 rs2 rs4) s = .next (s.reported 1 0x10 0)) ∧
    (s.QInRange → ¬ s.Fits rd (s.valX rs4) →
      exec (.vsubs rd rs1 rs2 rs4) s = .next (s.reported 1 0x15 (BitVec.ofNat 32 rd.toNat))) ∧
    (s.QInRange → s.Fits rd (s.valX rs4) → ¬ s.Fits rs1 (s.valX rs4) →
      exec (.vsubs rd rs1 rs2 rs4) s = .next (s.reported 1 0x15 (BitVec.ofNat 32 rs1.toNat))) ∧
    (s.QInRange → s.Fits rd (s.valX rs4) → s.Fits rs1 (s.valX rs4) →
      s.modulus ≤ s.valX rs2 →
      exec (.vsubs rd rs1 rs2 rs4) s = .next (s.reported 1 0x11 (BitVec.ofNat 32 rs2.toNat))) ∧
    (s.QInRange → s.Fits rd (s.valX rs4) → s.Fits rs1 (s.valX rs4) →
      s.valX rs2 < s.modulus →
      ∀ i < s.valX rs4, (∀ j < i, elem s rs1 j < s.modulus) →
      (s.modulus ≤ elem s rs1 i →
        exec (.vsubs rd rs1 rs2 rs4) s = .next (s.reported 1 0x12 (BitVec.ofNat 32 i)))) ∧
    (s.QInRange → s.Fits rd (s.valX rs4) → s.Fits rs1 (s.valX rs4) → s.valX rs2 < s.modulus →
      (∀ i < s.valX rs4, elem s rs1 i < s.modulus) →
      ∃ t, exec (.vsubs rd rs1 rs2 rs4) s = .next t ∧
        StoresOnly s t (s.valX rd) (s.valX rs4)
          (fun i => (elem s rs1 i + s.modulus - s.valX rs2) % s.modulus))

/-- R174, VFMA: both words, the failures of both forms in order, and out[i] = (a[i]·x[rs2] + c[i]) mod Q, or
without the add when c is absent. -/
def Obligations.VfmaMeaning : Prop :=
  ∀ (rd rs1 rs2 rs3 rs4 : Reg) (s : State),
    decode (commandWord 0x32 rd rs1 rs2 rs3 rs4 1 0) = .ok (.vfma rd rs1 rs2 (some rs3) rs4) ∧
    decode (commandWord 0x32 rd rs1 rs2 0 rs4 0 0) = .ok (.vfma rd rs1 rs2 none rs4) ∧
    (¬ s.QInRange → exec (.vfma rd rs1 rs2 (some rs3) rs4) s = .next (s.reported 1 0x10 0)) ∧
    (s.QInRange → ¬ s.Fits rd (s.valX rs4) →
      exec (.vfma rd rs1 rs2 (some rs3) rs4) s = .next (s.reported 1 0x15 (BitVec.ofNat 32 rd.toNat))) ∧
    (s.QInRange → s.Fits rd (s.valX rs4) → ¬ s.Fits rs1 (s.valX rs4) →
      exec (.vfma rd rs1 rs2 (some rs3) rs4) s = .next (s.reported 1 0x15 (BitVec.ofNat 32 rs1.toNat))) ∧
    (s.QInRange → s.Fits rd (s.valX rs4) → s.Fits rs1 (s.valX rs4) → ¬ s.Fits rs3 (s.valX rs4) →
      exec (.vfma rd rs1 rs2 (some rs3) rs4) s = .next (s.reported 1 0x15 (BitVec.ofNat 32 rs3.toNat))) ∧
    (s.QInRange → s.Fits rd (s.valX rs4) → s.Fits rs1 (s.valX rs4) → s.Fits rs3 (s.valX rs4) →
      s.modulus ≤ s.valX rs2 →
      exec (.vfma rd rs1 rs2 (some rs3) rs4) s = .next (s.reported 1 0x11 (BitVec.ofNat 32 rs2.toNat))) ∧
    (s.QInRange → s.Fits rd (s.valX rs4) → s.Fits rs1 (s.valX rs4) → s.Fits rs3 (s.valX rs4) →
      s.valX rs2 < s.modulus →
      ∀ i < s.valX rs4, (∀ j < i, elem s rs1 j < s.modulus ∧ elem s rs3 j < s.modulus) →
      (s.modulus ≤ elem s rs1 i →
        exec (.vfma rd rs1 rs2 (some rs3) rs4) s = .next (s.reported 1 0x12 (BitVec.ofNat 32 i))) ∧
      (elem s rs1 i < s.modulus → s.modulus ≤ elem s rs3 i →
        exec (.vfma rd rs1 rs2 (some rs3) rs4) s = .next (s.reported 1 0x14 (BitVec.ofNat 32 i)))) ∧
    (¬ s.QInRange → exec (.vfma rd rs1 rs2 none rs4) s = .next (s.reported 1 0x10 0)) ∧
    (s.QInRange → ¬ s.Fits rd (s.valX rs4) →
      exec (.vfma rd rs1 rs2 none rs4) s = .next (s.reported 1 0x15 (BitVec.ofNat 32 rd.toNat))) ∧
    (s.QInRange → s.Fits rd (s.valX rs4) → ¬ s.Fits rs1 (s.valX rs4) →
      exec (.vfma rd rs1 rs2 none rs4) s = .next (s.reported 1 0x15 (BitVec.ofNat 32 rs1.toNat))) ∧
    (s.QInRange → s.Fits rd (s.valX rs4) → s.Fits rs1 (s.valX rs4) →
      s.modulus ≤ s.valX rs2 →
      exec (.vfma rd rs1 rs2 none rs4) s = .next (s.reported 1 0x11 (BitVec.ofNat 32 rs2.toNat))) ∧
    (s.QInRange → s.Fits rd (s.valX rs4) → s.Fits rs1 (s.valX rs4) →
      s.valX rs2 < s.modulus →
      ∀ i < s.valX rs4, (∀ j < i, elem s rs1 j < s.modulus) →
      (s.modulus ≤ elem s rs1 i →
        exec (.vfma rd rs1 rs2 none rs4) s = .next (s.reported 1 0x12 (BitVec.ofNat 32 i)))) ∧
    (s.QInRange → s.Fits rd (s.valX rs4) → s.Fits rs1 (s.valX rs4) → s.valX rs2 < s.modulus →
      (∀ i < s.valX rs4, elem s rs1 i < s.modulus) →
      (∃ t, exec (.vfma rd rs1 rs2 none rs4) s = .next t ∧
        StoresOnly s t (s.valX rd) (s.valX rs4) (fun i => elem s rs1 i * s.valX rs2 % s.modulus)) ∧
      (s.Fits rs3 (s.valX rs4) → (∀ i < s.valX rs4, elem s rs3 i < s.modulus) →
        ∃ t, exec (.vfma rd rs1 rs2 (some rs3) rs4) s = .next t ∧
          StoresOnly s t (s.valX rd) (s.valX rs4)
            (fun i => (elem s rs1 i * s.valX rs2 + elem s rs3 i) % s.modulus)))

/-- R175, VMUL: its word, its failures in order, and out[i] = a[i]·b[i] mod Q. -/
def Obligations.VmulMeaning : Prop :=
  ∀ (rd rs1 rs2 rs4 : Reg) (s : State),
    decode (commandWord 0x33 rd rs1 rs2 0 rs4 0 0) = .ok (.vmul rd rs1 rs2 rs4) ∧
    (¬ s.QInRange → exec (.vmul rd rs1 rs2 rs4) s = .next (s.reported 1 0x10 0)) ∧
    (s.QInRange → ¬ s.Fits rd (s.valX rs4) →
      exec (.vmul rd rs1 rs2 rs4) s = .next (s.reported 1 0x15 (BitVec.ofNat 32 rd.toNat))) ∧
    (s.QInRange → s.Fits rd (s.valX rs4) → ¬ s.Fits rs1 (s.valX rs4) →
      exec (.vmul rd rs1 rs2 rs4) s = .next (s.reported 1 0x15 (BitVec.ofNat 32 rs1.toNat))) ∧
    (s.QInRange → s.Fits rd (s.valX rs4) → s.Fits rs1 (s.valX rs4) → ¬ s.Fits rs2 (s.valX rs4) →
      exec (.vmul rd rs1 rs2 rs4) s = .next (s.reported 1 0x15 (BitVec.ofNat 32 rs2.toNat))) ∧
    (s.QInRange → s.Fits rd (s.valX rs4) → s.Fits rs1 (s.valX rs4) → s.Fits rs2 (s.valX rs4) →
      ∀ i < s.valX rs4, (∀ j < i, elem s rs1 j < s.modulus ∧ elem s rs2 j < s.modulus) →
      (s.modulus ≤ elem s rs1 i →
        exec (.vmul rd rs1 rs2 rs4) s = .next (s.reported 1 0x12 (BitVec.ofNat 32 i))) ∧
      (elem s rs1 i < s.modulus → s.modulus ≤ elem s rs2 i →
        exec (.vmul rd rs1 rs2 rs4) s = .next (s.reported 1 0x13 (BitVec.ofNat 32 i)))) ∧
    (s.QInRange → s.Fits rd (s.valX rs4) → s.Fits rs1 (s.valX rs4) → s.Fits rs2 (s.valX rs4) →
      (∀ i < s.valX rs4, elem s rs1 i < s.modulus ∧ elem s rs2 i < s.modulus) →
      ∃ t, exec (.vmul rd rs1 rs2 rs4) s = .next t ∧
        StoresOnly s t (s.valX rd) (s.valX rs4) (fun i => elem s rs1 i * elem s rs2 i % s.modulus))

/-! ### NTT (43_ntt.md) -/

/-- The words of NTTINIT and its checks in the order of R191, for both forms: Q, degree, primality,
Q ≡ 1 (mod 2n), and the supplied root. -/
def Obligations.NttinitChecksInOrder : Prop :=
  ∀ (rs1 rs2 : Reg) (omega : Option Reg) (s : State),
    decode (commandWord 0x40 0 rs1 0 0 0 0 0) = .ok (.nttinit rs1 none) ∧
    decode (commandWord 0x40 0 rs1 rs2 0 0 1 0) = .ok (.nttinit rs1 (some rs2)) ∧
    (¬ s.QInRange → exec (.nttinit rs1 omega) s = .next (s.reported 1 0x10 0)) ∧
    (s.QInRange → ¬ (2 ≤ s.valX rs1 ∧ s.valX rs1 ≤ s.params.nmax ∧ ∃ e, s.valX rs1 = 2 ^ e) →
      exec (.nttinit rs1 omega) s = .next (s.reported 1 0x16 (BitVec.ofNat 32 rs1.toNat))) ∧
    (s.QInRange → (2 ≤ s.valX rs1 ∧ s.valX rs1 ≤ s.params.nmax ∧ ∃ e, s.valX rs1 = 2 ^ e) →
      (¬ s.modulus.Prime → exec (.nttinit rs1 omega) s = .next (s.reported 1 0x17 0)) ∧
      (s.modulus.Prime →
        ((s.modulus - 1) % (2 * s.valX rs1) ≠ 0 →
          exec (.nttinit rs1 omega) s = .next (s.reported 1 0x18 (BitVec.ofNat 32 rs1.toNat))) ∧
        ((s.modulus - 1) % (2 * s.valX rs1) = 0 →
          (s.modulus ≤ s.valX rs2 ∨ s.valX rs2 ^ s.valX rs1 % s.modulus ≠ s.modulus - 1) →
          exec (.nttinit rs1 (some rs2)) s = .next (s.reported 1 0x19 (BitVec.ofNat 32 rs2.toNat)))))

/-- NTTINIT with a supplied root builds the tables of R192 to R194 and latches the registers of R30 to
R35, and writes nothing else (R191). -/
def Obligations.NttinitWithRootBuildsTables : Prop :=
  ∀ (rs1 rs2 : Reg) (s : State),
    s.params.Legal → s.QInRange → 2 ≤ s.valX rs1 → s.valX rs1 ≤ s.params.nmax →
    isPow2 (s.valX rs1) = true → s.modulus.Prime → (s.modulus - 1) % (2 * s.valX rs1) = 0 →
    s.valX rs2 < s.modulus → s.valX rs2 ^ s.valX rs1 % s.modulus = s.modulus - 1 →
    ∃ t, exec (.nttinit rs1 (some rs2)) s = .next t ∧
      TablesBuilt s t (s.valX rs1) s.modulus (s.valX rs2)

/-- NTTINIT without a root: when a draw hits it builds the tables of the least primitive 2n-th root, so
the tables do not depend on the draws; when every draw misses it reports RESOURCE and builds nothing
(R128, R129, R191). That the draws taken stay taken (`useDraws`) is the model's choice (assumption 3). -/
def Obligations.NttinitSearchBuildsLeastRootTables : Prop :=
  ∀ (rs1 : Reg) (s : State),
    s.params.Legal → s.QInRange → 2 ≤ s.valX rs1 → s.valX rs1 ≤ s.params.nmax →
    isPow2 (s.valX rs1) = true → s.modulus.Prime → (s.modulus - 1) % (2 * s.valX rs1) = 0 →
    (∀ k < s.params.prootMaxAttempts, s.Hits (2 * s.valX rs1) k →
      (∀ j < k, ¬ s.Hits (2 * s.valX rs1) j) →
      ∃ w t, LeastRoot w (2 * s.valX rs1) s.modulus ∧ exec (.nttinit rs1 none) s = .next t ∧
        TablesBuilt (s.useDraws (k + 1)) t (s.valX rs1) s.modulus w) ∧
    ((∀ k < s.params.prootMaxAttempts, ¬ s.Hits (2 * s.valX rs1) k) →
      exec (.nttinit rs1 none) s = .next ((s.useDraws s.params.prootMaxAttempts).reported 2 0x20 0))

/-- R198, BFWD: its word, its checks in order, and the two results of the forward butterfly (R197). -/
def Obligations.BfwdMeaning : Prop :=
  ∀ (rd rs1 rs2 rs3 rs4 : Reg) (b : Width) (s : State), rd.toNat % 2 = 0 →
    decode (commandWord 0x41 rd rs1 rs2 rs3 rs4 (widthBit b) 0) = .ok (.bfwd rd rs1 rs2 rs3 rs4 b) ∧
    (¬ s.QInRange → exec (.bfwd rd rs1 rs2 rs3 rs4 b) s = .next (s.reported 1 0x10 0)) ∧
    (s.QInRange → 4 * s.modulus ≤ s.valX rs1 →
      exec (.bfwd rd rs1 rs2 rs3 rs4 b) s = .next (s.reported 1 0x11 (BitVec.ofNat 32 rs1.toNat))) ∧
    (s.QInRange → s.valX rs1 < 4 * s.modulus → 4 * s.modulus ≤ s.valX rs2 →
      exec (.bfwd rd rs1 rs2 rs3 rs4 b) s = .next (s.reported 1 0x11 (BitVec.ofNat 32 rs2.toNat))) ∧
    (s.QInRange → s.valX rs1 < 4 * s.modulus → s.valX rs2 < 4 * s.modulus → s.modulus ≤ s.valX rs3 →
      exec (.bfwd rd rs1 rs2 rs3 rs4 b) s = .next (s.reported 1 0x11 (BitVec.ofNat 32 rs3.toNat))) ∧
    (s.QInRange → s.valX rs1 < 4 * s.modulus → s.valX rs2 < 4 * s.modulus → s.valX rs3 < s.modulus →
      (s.valX rs4 ≠ s.valX rs3 * 2 ^ widthBits b / s.modulus →
        exec (.bfwd rd rs1 rs2 rs3 rs4 b) s = .next (s.reported 1 0x1A (BitVec.ofNat 32 rs4.toNat))) ∧
      (s.valX rs4 = s.valX rs3 * 2 ^ widthBits b / s.modulus → 2 ^ widthBits b ≤ s.valX rs2 →
        exec (.bfwd rd rs1 rs2 rs3 rs4 b) s = .next (s.reported 3 0x30 (BitVec.ofNat 32 rs2.toNat))) ∧
      (s.valX rs4 = s.valX rs3 * 2 ^ widthBits b / s.modulus → s.valX rs2 < 2 ^ widthBits b →
        ∃ x' t : Nat,
          x' = (if 2 * s.modulus ≤ s.valX rs1 then s.valX rs1 - 2 * s.modulus else s.valX rs1) ∧
          s.valX rs2 * s.valX rs3 = t + s.valX rs2 * s.valX rs4 / 2 ^ widthBits b * s.modulus ∧
          exec (.bfwd rd rs1 rs2 rs3 rs4 b) s =
            .next ((s.withResult rd (x' + t)).withResult (rd + 1) (x' + 2 * s.modulus - t))))

/-- R203, BINV: its word, its checks in order, and the two results of the inverse butterfly (R202). -/
def Obligations.BinvMeaning : Prop :=
  ∀ (rd rs1 rs2 rs3 rs4 : Reg) (b : Width) (s : State), rd.toNat % 2 = 0 →
    decode (commandWord 0x43 rd rs1 rs2 rs3 rs4 (widthBit b) 0) = .ok (.binv rd rs1 rs2 rs3 rs4 b) ∧
    (¬ s.QInRange → exec (.binv rd rs1 rs2 rs3 rs4 b) s = .next (s.reported 1 0x10 0)) ∧
    (s.QInRange → 2 * s.modulus ≤ s.valX rs1 →
      exec (.binv rd rs1 rs2 rs3 rs4 b) s = .next (s.reported 1 0x11 (BitVec.ofNat 32 rs1.toNat))) ∧
    (s.QInRange → s.valX rs1 < 2 * s.modulus → 2 * s.modulus ≤ s.valX rs2 →
      exec (.binv rd rs1 rs2 rs3 rs4 b) s = .next (s.reported 1 0x11 (BitVec.ofNat 32 rs2.toNat))) ∧
    (s.QInRange → s.valX rs1 < 2 * s.modulus → s.valX rs2 < 2 * s.modulus → s.modulus ≤ s.valX rs3 →
      exec (.binv rd rs1 rs2 rs3 rs4 b) s = .next (s.reported 1 0x11 (BitVec.ofNat 32 rs3.toNat))) ∧
    (s.QInRange → s.valX rs1 < 2 * s.modulus → s.valX rs2 < 2 * s.modulus → s.valX rs3 < s.modulus →
      (s.valX rs4 ≠ s.valX rs3 * 2 ^ widthBits b / s.modulus →
        exec (.binv rd rs1 rs2 rs3 rs4 b) s = .next (s.reported 1 0x1A (BitVec.ofNat 32 rs4.toNat))) ∧
      (s.valX rs4 = s.valX rs3 * 2 ^ widthBits b / s.modulus →
        2 ^ widthBits b ≤ s.valX rs1 + 2 * s.modulus - s.valX rs2 →
        exec (.binv rd rs1 rs2 rs3 rs4 b) s = .next (s.reported 3 0x30 (BitVec.ofNat 32 rs2.toNat))) ∧
      (s.valX rs4 = s.valX rs3 * 2 ^ widthBits b / s.modulus →
        s.valX rs1 + 2 * s.modulus - s.valX rs2 < 2 ^ widthBits b →
        ∃ ty y' : Nat, ty + s.valX rs2 = s.valX rs1 + 2 * s.modulus ∧
          ty * s.valX rs3 = y' + ty * s.valX rs4 / 2 ^ widthBits b * s.modulus ∧
          exec (.binv rd rs1 rs2 rs3 rs4 b) s =
            .next ((s.withResult rd
              (if 2 * s.modulus ≤ s.valX rs1 + s.valX rs2 then s.valX rs1 + s.valX rs2 - 2 * s.modulus
               else s.valX rs1 + s.valX rs2)).withResult (rd + 1) y')))

/-- The butterflies' ranges and residues (R197, R202): with the right factor, the forward outputs lie in
[0, 4q) and are congruent to X + W·Y and X − W·Y, the inverse outputs lie in [0, 2q) and are congruent to
X + Y and W·(X − Y). -/
def Obligations.ButterfliesStayInRange : Prop :=
  ∀ (x y w q : Nat) (b : Width), 2 ≤ q → q < 2 ^ 62 → w < q →
    (x < 4 * q → y < 2 ^ widthBits b →
      (fwdBfly x y w (fac w b q) q b).1 < 4 * q ∧ (fwdBfly x y w (fac w b q) q b).2 < 4 * q ∧
      (fwdBfly x y w (fac w b q) q b).1 % q = (x + w * y) % q ∧
      ((fwdBfly x y w (fac w b q) q b).2 + w * y) % q = x % q) ∧
    (x < 2 * q → y < 2 * q → x + 2 * q - y < 2 ^ widthBits b →
      (invBfly x y w (fac w b q) q b).1 < 2 * q ∧ (invBfly x y w (fac w b q) q b).2 < 2 * q ∧
      (invBfly x y w (fac w b q) q b).1 % q = (x + y) % q ∧
      ((invBfly x y w (fac w b q) q b).2 + w * y) % q = w * x % q)

/-- R196: a transform runs at B = 52 exactly when its latch is set, IFMA52_EN reads 1 and
NTT_N >= 16. -/
def Obligations.TransformWidthIsFixedByLatchAndCtrl : Prop :=
  ∀ (s : State) (latch : Bool),
    (latch = true ∧ s.params.hasIfma52 = true ∧ s.ctrlIfma52 = true ∧ 16 ≤ s.ntt.n.toNat →
      transformWidth s latch = .b52) ∧
    (latch = false ∨ s.params.hasIfma52 = false ∨ s.ctrlIfma52 = false ∨ s.ntt.n.toNat < 16 →
      transformWidth s latch = .b64)

/-- R199, NTTFWD: its word, its checks in order, and the transform of the start-of-command source words
stored at `x[rd]`, nothing else written; Q is not read. -/
def Obligations.NttfwdMeaning : Prop :=
  ∀ (rd rs1 : Reg) (fin : FwdIn) (fout : FwdOut) (s : State),
    decode (commandWord 0x42 rd rs1 0 0 0 (if fin = .four then 1 else 0) (if fout = .four then 1 else 0)) =
      .ok (.nttfwd rd rs1 fin fout) ∧
    (s.ntt.valid = false → exec (.nttfwd rd rs1 fin fout) s = .next (s.reported 1 0x1B 0)) ∧
    (s.ntt.valid = true → ¬ s.Fits rd s.ntt.n.toNat →
      exec (.nttfwd rd rs1 fin fout) s = .next (s.reported 1 0x15 (BitVec.ofNat 32 rd.toNat))) ∧
    (s.ntt.valid = true → s.Fits rd s.ntt.n.toNat → ¬ s.Fits rs1 s.ntt.n.toNat →
      exec (.nttfwd rd rs1 fin fout) s = .next (s.reported 1 0x15 (BitVec.ofNat 32 rs1.toNat))) ∧
    (s.ntt.valid = true → s.Fits rd s.ntt.n.toNat → s.Fits rs1 s.ntt.n.toNat →
      (∀ i < s.ntt.n.toNat, (∀ j < i, elem s rs1 j < fwdInFactor fin * s.ntt.q.toNat) →
        fwdInFactor fin * s.ntt.q.toNat ≤ elem s rs1 i →
        exec (.nttfwd rd rs1 fin fout) s = .next (s.reported 1 0x12 (BitVec.ofNat 32 i))) ∧
      ((∀ i < s.ntt.n.toNat, elem s rs1 i < fwdInFactor fin * s.ntt.q.toNat) →
        ∃ t out, exec (.nttfwd rd rs1 fin fout) s = .next t ∧
          out = forwardNTT (s.tRead 0) (s.tRead (fwdFactorTable (transformWidth s s.ntt.fwd52)))
            ((List.range s.ntt.n.toNat).map (elem s rs1)) s.ntt.n.toNat s.ntt.q.toNat
            (transformWidth s s.ntt.fwd52) fout ∧
          (TablesOk s → out.length = s.ntt.n.toNat) ∧
          StoresOnly s t (s.valX rd) out.length (fun i => out.getD i 0 % 2 ^ 64)))

/-- R204, NTTINV: its word, its checks in order, and the transform of the start-of-command source words
stored at `x[rd]`, nothing else written; Q is not read. -/
def Obligations.NttinvMeaning : Prop :=
  ∀ (rd rs1 : Reg) (fin fout : InvFactor) (s : State),
    decode (commandWord 0x44 rd rs1 0 0 0 (if fin = .two then 1 else 0) (if fout = .two then 1 else 0)) =
      .ok (.nttinv rd rs1 fin fout) ∧
    (s.ntt.valid = false → exec (.nttinv rd rs1 fin fout) s = .next (s.reported 1 0x1B 0)) ∧
    (s.ntt.valid = true → ¬ s.Fits rd s.ntt.n.toNat →
      exec (.nttinv rd rs1 fin fout) s = .next (s.reported 1 0x15 (BitVec.ofNat 32 rd.toNat))) ∧
    (s.ntt.valid = true → s.Fits rd s.ntt.n.toNat → ¬ s.Fits rs1 s.ntt.n.toNat →
      exec (.nttinv rd rs1 fin fout) s = .next (s.reported 1 0x15 (BitVec.ofNat 32 rs1.toNat))) ∧
    (s.ntt.valid = true → s.Fits rd s.ntt.n.toNat → s.Fits rs1 s.ntt.n.toNat →
      (∀ i < s.ntt.n.toNat, (∀ j < i, elem s rs1 j < invInFactor fin * s.ntt.q.toNat) →
        invInFactor fin * s.ntt.q.toNat ≤ elem s rs1 i →
        exec (.nttinv rd rs1 fin fout) s = .next (s.reported 1 0x12 (BitVec.ofNat 32 i))) ∧
      ((∀ i < s.ntt.n.toNat, elem s rs1 i < invInFactor fin * s.ntt.q.toNat) →
        ∃ t out, exec (.nttinv rd rs1 fin fout) s = .next t ∧
          out = inverseNTT (s.tRead 1) (s.tRead (invFactorTable (transformWidth s s.ntt.inv52)))
            s.ntt.invN.toNat ((List.range s.ntt.n.toNat).map (elem s rs1)) s.ntt.n.toNat s.ntt.q.toNat
            (transformWidth s s.ntt.inv52) fout ∧
          (TablesOk s → out.length = s.ntt.n.toNat) ∧
          StoresOnly s t (s.valX rd) out.length (fun i => out.getD i 0 % 2 ^ 64)))

/-- R207, the bounds: with the tables in place and every source word below fin·q, every value of NTTFWD
between its layers is below 4q and every output is below fout·q, and every value of NTTINV between its
layers is below 2q and every output is below fout·q, at both widths; 4q is below 2^64, and below 2^52 where
a transform runs at B = 52. These are bounds on the exact lists, so no word is truncated: the words stored
are the list's own. -/
def Obligations.TransformOutputsAreBounded : Prop :=
  ∀ (rd rs1 : Reg) (s : State), s.params.Legal → TablesOk s → s.ntt.valid = true →
    s.Fits rd s.ntt.n.toNat → s.Fits rs1 s.ntt.n.toNat →
    4 * s.ntt.q.toNat < 2 ^ 64 ∧
    (s.fwdWidth = .b52 ∨ s.invWidth = .b52 → 4 * s.ntt.q.toNat < 2 ^ 52) ∧
    (∀ fin, (∀ i < s.ntt.n.toNat, elem s rs1 i < fwdInFactor fin * s.ntt.q.toNat) →
      (∀ k ≤ Nat.log2 s.ntt.n.toNat, ∀ v ∈ s.fwdStage k (s.source rs1), v < 4 * s.ntt.q.toNat) ∧
      ∀ fout, (∀ v ∈ s.fwdOutput fout (s.source rs1), v < (if fout = .one then 1 else 4) * s.ntt.q.toNat) ∧
        ∃ t, exec (.nttfwd rd rs1 fin fout) s = .next t ∧ ∀ i < s.ntt.n.toNat,
          (s.fwdOutput fout (s.source rs1))[i]? = some (t.memRead (s.valX rd + i))) ∧
    (∀ fin, (∀ i < s.ntt.n.toNat, elem s rs1 i < invInFactor fin * s.ntt.q.toNat) →
      (∀ k < Nat.log2 s.ntt.n.toNat, ∀ v ∈ s.invStage k (s.source rs1), v < 2 * s.ntt.q.toNat) ∧
      ∀ fout, (∀ v ∈ s.invOutput fout (s.source rs1), v < (if fout = .one then 1 else 2) * s.ntt.q.toNat) ∧
        ∃ t, exec (.nttinv rd rs1 fin fout) s = .next t ∧ ∀ i < s.ntt.n.toNat,
          (s.invOutput fout (s.source rs1))[i]? = some (t.memRead (s.valX rd + i)))

/-- R208, what the forward transform computes: output word k of `NTTFWD ... .o1` is the evaluation of the
source polynomial at ω^(2·bitrev(k, log2 n) + 1) modulo q, and output word k of `NTTFWD ... .o4` is congruent
to it modulo q, for both input factors and both widths. -/
def Obligations.ForwardTransformEvaluatesPolynomial : Prop :=
  ∀ (rd rs1 : Reg) (fin : FwdIn) (fout : FwdOut) (s : State),
    s.params.Legal → TablesOk s → s.ntt.valid = true →
    s.Fits rd s.ntt.n.toNat → s.Fits rs1 s.ntt.n.toNat →
    (∀ i < s.ntt.n.toNat, elem s rs1 i < fwdInFactor fin * s.ntt.q.toNat) →
    ∃ t, exec (.nttfwd rd rs1 fin fout) s = .next t ∧ ∀ k < s.ntt.n.toNat,
      t.memRead (s.valX rd + k) % s.ntt.q.toNat = s.evaluation (elem s rs1) k % s.ntt.q.toNat ∧
      (fout = .one → t.memRead (s.valX rd + k) = s.evaluation (elem s rs1) k % s.ntt.q.toNat)

/-- R208, the round trip: NTTINV, with any input and output factor, applied to the output of NTTFWD.o1 gives
the source words back modulo q, and exactly their residues with output factor 1, for both input factors of
NTTFWD and both widths; so a source below q comes back exactly under NTTINV.i1.o1. -/
def Obligations.InverseTransformUndoesForward : Prop :=
  ∀ (rd rd' rs1 : Reg) (fin : FwdIn) (fin' fout' : InvFactor) (s : State),
    s.params.Legal → TablesOk s → s.ntt.valid = true →
    s.Fits rd s.ntt.n.toNat → s.Fits rd' s.ntt.n.toNat → s.Fits rs1 s.ntt.n.toNat →
    (∀ i < s.ntt.n.toNat, elem s rs1 i < fwdInFactor fin * s.ntt.q.toNat) →
    ∃ t u, exec (.nttfwd rd rs1 fin .one) s = .next t ∧ exec (.nttinv rd' rd fin' fout') t = .next u ∧
      ∀ i < s.ntt.n.toNat,
        u.memRead (s.valX rd' + i) % s.ntt.q.toNat = elem s rs1 i % s.ntt.q.toNat ∧
        (fout' = .one → u.memRead (s.valX rd' + i) = elem s rs1 i % s.ntt.q.toNat)

/-- What the inverse transform computes, for every legal source (also the words in [q, 2q) that `.i2`
admits), both output factors and both widths: the polynomial whose coefficients are the output words takes
the value of source word k at ω^(2·bitrev(k, log2 n) + 1), modulo q, and with output factor 1 the output is
canonical (R206 to R208). -/
def Obligations.InverseTransformInterpolatesSource : Prop :=
  ∀ (rd rs1 : Reg) (fin fout : InvFactor) (s : State),
    s.params.Legal → TablesOk s → s.ntt.valid = true →
    s.Fits rd s.ntt.n.toNat → s.Fits rs1 s.ntt.n.toNat →
    (∀ i < s.ntt.n.toNat, elem s rs1 i < invInFactor fin * s.ntt.q.toNat) →
    ∃ t, exec (.nttinv rd rs1 fin fout) s = .next t ∧
      (∀ k < s.ntt.n.toNat,
        s.evaluation (fun i => t.memRead (s.valX rd + i)) k % s.ntt.q.toNat = elem s rs1 k % s.ntt.q.toNat) ∧
      (fout = .one → ∀ k < s.ntt.n.toNat, t.memRead (s.valX rd + k) < s.ntt.q.toNat)

/-! ### The host port (10_state.md, 20_memory.md) -/

/-- The address map of R23 and R64 to R66: every register, DMEM word and TMEM word is at its offset, and
the ranges the table calls unmapped name nothing. -/
def Obligations.AddressMapIsTheManuals : Prop :=
  ∀ p : Params, p.Legal →
    (targetOf p 0x000 = some (.reg .id) ∧ targetOf p 0x008 = some (.reg .ctrl) ∧
      targetOf p 0x010 = some (.reg .status) ∧ targetOf p 0x018 = some (.reg .errinfo) ∧
      targetOf p 0x020 = some (.reg .q) ∧ targetOf p 0x028 = some (.reg .cmd) ∧
      targetOf p 0x030 = some (.reg .nttCfg) ∧ targetOf p 0x038 = some (.reg .nttN) ∧
      targetOf p 0x040 = some (.reg .nttQ) ∧ targetOf p 0x048 = some (.reg .nttOmega) ∧
      targetOf p 0x050 = some (.reg .nttOmegaInv) ∧ targetOf p 0x058 = some (.reg .nttInvN)) ∧
    (∀ r : Reg, targetOf p (0x100 + 8 * r.toNat) = some (.gpr r)) ∧
    (∀ a < p.dmemWords, targetOf p (0x01000000 + 8 * a) = some (.dmem a)) ∧
    (∀ t ≤ 5, ∀ k < p.nmax, targetOf p (0x02000000 + t * 0x00800000 + 8 * k) = some (.tmem t k)) ∧
    (∀ t ≤ 5, ∀ o, 8 * p.nmax ≤ o → o < 0x00800000 →
      targetOf p (0x02000000 + t * 0x00800000 + o) = none) ∧
    (∀ off, (0x60 ≤ off ∧ off < 0x100) ∨ (0x180 ≤ off ∧ off < 0x01000000) ∨
      (0x01000000 + 8 * p.dmemWords ≤ off ∧ off < 0x02000000) ∨ 0x05000000 ≤ off →
      targetOf p off = none)

/-- R60, R254: a host access that is not 8 bytes wide, not at a multiple of 8 or at an unmapped offset stops
the host's step with a bus error; a well-formed one never does. That an address below BASE is unmapped is
the model's inference (assumption 13). -/
def Obligations.IllFormedAccessIsBusError : Prop :=
  ∀ (s : State) (es : List Event) (addr width : Nat) (v : Word) (e : Event),
    (e = .hostRead addr width ∨ e = .hostWrite addr width v) → s.inputs = e :: es →
    (width ≠ 8 ∨ addr % 8 ≠ 0 ∨ addr < s.params.base ∨ targetOf s.params (addr - s.params.base) = none →
      step s = .fault (.busError addr width)) ∧
    (width = 8 → addr % 8 = 0 → s.params.base ≤ addr →
      targetOf s.params (addr - s.params.base) ≠ none → ∃ t, step s = .next t)

/-- R70, a host write to CMD: accepted when BUSY = 0, rejected with OVR set when BUSY = 1. -/
def Obligations.CmdWriteStartsOrIsRejected : Prop :=
  ∀ (s : State) (es : List Event) (v : Word), s.params.base % 8 = 0 →
    s.inputs = .hostWrite (s.params.base + 0x028) 8 v :: es →
    (s.inflight = none → step s = .next { s with
      inputs := es, response := none, cmd := v, err := {}, lastop := v.extractLsb' 0 8,
      inflight := some v }) ∧
    (s.inflight ≠ none → step s = .next { s with inputs := es, response := none, ovr := true })

/-- R71, R255: while BUSY = 1 every host write but one to STATUS is rejected, changes nothing and sets OVR;
a W1C write to STATUS still clears OVR, and a write to STATUS without bit 2 changes nothing (R26). That a
write to a read-only register or to TMEM sets OVR follows R255 where R71 can be read otherwise, and that one
to STATUS without bit 2 does not follows R26 where R255 can be read otherwise (assumption 7). -/
def Obligations.BusyWritesOnlyTouchOvr : Prop :=
  ∀ (s : State) (es : List Event) (addr : Nat) (v : Word) (tgt : Target),
    s.inflight ≠ none → s.inputs = .hostWrite addr 8 v :: es →
    wellFormedTarget s.params addr 8 = some tgt →
    (tgt ≠ .reg .status → step s = .next { s with inputs := es, response := none, ovr := true }) ∧
    (tgt = .reg .status → v.getLsbD 2 = true →
      step s = .next { s with inputs := es, response := none, ovr := false }) ∧
    (tgt = .reg .status → v.getLsbD 2 = false →
      step s = .next { s with inputs := es, response := none })

/-- R72: while BUSY = 1, reads of ID, CTRL, STATUS, Q and CMD return their current values, and every
other read returns a draw, the next one each time (how a draw is represented is the model's: assumption
3). -/
def Obligations.BusyReadsReturnCurrentValueOrDraw : Prop :=
  ∀ (s : State) (es : List Event) (addr : Nat) (tgt : Target),
    s.inflight ≠ none → s.inputs = .hostRead addr 8 :: es → wellFormedTarget s.params addr 8 = some tgt →
    (tgt = .reg .id → step s = .next { s with inputs := es, response := some 0x4252454400070001 }) ∧
    (tgt = .reg .ctrl → step s = .next { s with inputs := es, response := some s.ctrlWord }) ∧
    (tgt = .reg .status → step s = .next { s with inputs := es, response := some s.statusWord }) ∧
    (tgt = .reg .q → step s = .next { s with inputs := es, response := some s.q }) ∧
    (tgt = .reg .cmd → step s = .next { s with inputs := es, response := some s.cmd }) ∧
    (tgt ≠ .reg .id → tgt ≠ .reg .ctrl → tgt ≠ .reg .status → tgt ≠ .reg .q → tgt ≠ .reg .cmd →
      step s = .next { s with
        inputs := es, response := some (s.drawAt 0), entropy := s.entropy.drop 1, draws := s.draws + 1 })

/-- R39, R63: a host read while BUSY = 0 returns the word and has no side effect: the word of each register of
R23 (whose layouts StatusAndErrinfoLayout says), of each general register, DMEM word and TMEM word. -/
def Obligations.IdleReadsHaveNoSideEffect : Prop :=
  ∀ (s : State) (es : List Event) (addr : Nat) (tgt : Target),
    s.inflight = none → s.inputs = .hostRead addr 8 :: es → wellFormedTarget s.params addr 8 = some tgt →
    step s = .next { s with inputs := es, response := some (targetRead s tgt) } ∧
    (tgt = .reg .id → targetRead s tgt = 0x4252454400070001) ∧
    (tgt = .reg .ctrl → targetRead s tgt = s.ctrlWord) ∧
    (tgt = .reg .status → targetRead s tgt = s.statusWord) ∧
    (tgt = .reg .errinfo → targetRead s tgt = s.errinfoWord) ∧
    (tgt = .reg .q → targetRead s tgt = s.q) ∧
    (tgt = .reg .cmd → targetRead s tgt = s.cmd) ∧
    (tgt = .reg .nttCfg → targetRead s tgt = s.nttCfgWord) ∧
    (tgt = .reg .nttN → targetRead s tgt = s.ntt.n) ∧
    (tgt = .reg .nttQ → targetRead s tgt = s.ntt.q) ∧
    (tgt = .reg .nttOmega → targetRead s tgt = s.ntt.omega) ∧
    (tgt = .reg .nttOmegaInv → targetRead s tgt = s.ntt.omegaInv) ∧
    (tgt = .reg .nttInvN → targetRead s tgt = s.ntt.invN) ∧
    (∀ a, tgt = .dmem a → targetRead s tgt = BitVec.ofNat 64 (s.memRead a)) ∧
    (∀ t k, tgt = .tmem t k → targetRead s tgt = BitVec.ofNat 64 (s.tRead t k)) ∧
    (∀ r, tgt = .gpr r → targetRead s tgt = s.getX r)

/-- R37, R25, R26: while BUSY = 0 a host write to a read-only register or TMEM has no effect and a write to
CTRL keeps only bit 0 (and not that when HAS_IFMA52 = false); a write to STATUS changes only OVR, whether
BUSY is 0 or 1. That a write to STATUS without bit 2 leaves OVR alone while BUSY = 1 follows R26 where R255
can be read otherwise: the model's inference (assumption 7). -/
def Obligations.ReadOnlyAndReservedWritesAreIgnored : Prop :=
  ∀ (s : State) (es : List Event) (addr : Nat) (v : Word) (tgt : Target),
    s.inputs = .hostWrite addr 8 v :: es → wellFormedTarget s.params addr 8 = some tgt →
    (tgt = .reg .id ∨ tgt = .reg .errinfo ∨ tgt = .reg .nttCfg ∨ tgt = .reg .nttN ∨ tgt = .reg .nttQ ∨
        tgt = .reg .nttOmega ∨ tgt = .reg .nttOmegaInv ∨ tgt = .reg .nttInvN ∨
        (∃ t k, tgt = .tmem t k) →
      s.inflight = none → step s = .next { s with inputs := es, response := none }) ∧
    (tgt = .reg .ctrl → s.inflight = none →
      step s = .next { s with
        inputs := es, response := none, ctrlIfma52 := s.params.hasIfma52 && v.getLsbD 0 }) ∧
    (tgt = .reg .status →
      step s = .next { s with
        inputs := es, response := none, ovr := if v.getLsbD 2 then false else s.ovr })

/-- R22, R28: a host write of any u64 to Q or to a general register while BUSY = 0 stores the value there
and changes nothing else. -/
def Obligations.IdleWritesStoreTheirValue : Prop :=
  ∀ (s : State) (es : List Event) (addr : Nat) (v : Word),
    s.inflight = none → s.inputs = .hostWrite addr 8 v :: es →
    (wellFormedTarget s.params addr 8 = some (.reg .q) →
      step s = .next { s with inputs := es, response := none, q := v }) ∧
    (∀ r, wellFormedTarget s.params addr 8 = some (.gpr r) →
      ∃ t, step s = .next t ∧ t.getX r = v ∧ (∀ r', r' ≠ r → t.getX r' = s.getX r') ∧
        t = { s with inputs := es, response := none, x := t.x })

/-- R65, R73: a host write to a DMEM word while BUSY = 0 followed by a read of that word returns the value
written, and no other byte of DMEM or TMEM changes. -/
def Obligations.DmemWriteThenReadReturnsValue : Prop :=
  ∀ (s : State) (es : List Event) (a : Nat) (v : Word),
    s.params.Legal → s.params.base % 8 = 0 → s.inflight = none → a < s.params.dmemWords →
    s.inputs = .hostWrite (s.params.base + 0x01000000 + 8 * a) 8 v ::
      .hostRead (s.params.base + 0x01000000 + 8 * a) 8 :: es →
    ∃ t u, step s = .next t ∧ step t = .next u ∧ u.response = some v ∧
      ∀ c, c < 0x01000000 + 8 * a ∨ 0x01000000 + 8 * a + 8 ≤ c → u.byteAt c = s.byteAt c

/-- The fields of STATUS, ERRINFO, CTRL and NTT_CFG stand where R26, R27, R25 and R35 put them, the reserved
bits read 0, ERR equals (ERRCODE ≠ 0), and IFMA52_EN reads 0 without HAS_IFMA52. -/
def Obligations.StatusAndErrinfoLayout : Prop :=
  ∀ s : State,
    s.statusWord.getLsbD 0 = s.inflight.isSome ∧
    s.statusWord.getLsbD 1 = (s.err.errcode != 0) ∧
    s.statusWord.getLsbD 2 = s.ovr ∧
    s.statusWord.extractLsb' 3 5 = 0 ∧
    s.statusWord.extractLsb' 8 8 = s.err.errcode ∧
    s.statusWord.extractLsb' 16 8 = s.lastop ∧
    s.statusWord.extractLsb' 24 40 = 0 ∧
    s.errinfoWord.extractLsb' 0 8 = s.err.cause ∧
    s.errinfoWord.extractLsb' 8 24 = 0 ∧
    s.errinfoWord.extractLsb' 32 32 = s.err.index ∧
    s.ctrlWord.getLsbD 0 = (s.params.hasIfma52 && s.ctrlIfma52) ∧
    s.ctrlWord.extractLsb' 1 63 = 0 ∧
    s.nttCfgWord.getLsbD 0 = s.ntt.valid ∧
    s.nttCfgWord.getLsbD 1 = s.ntt.fwd52 ∧
    s.nttCfgWord.getLsbD 2 = s.ntt.inv52 ∧
    s.nttCfgWord.extractLsb' 3 61 = 0

/-! ### Reset (70_reset_and_hazards.md) -/

/-- R43, R281: after reset every register reads 0 but ID, no command is in flight, and every DMEM and
TMEM byte is a free value (Config.unwritten: assumption 4). -/
def Obligations.ResetLeavesTheManualsValues : Prop :=
  idWord = 0x4252454400070001 ∧ State.reset.ctrlWord = 0 ∧ State.reset.statusWord = 0 ∧
  State.reset.errinfoWord = 0 ∧ State.reset.q = 0 ∧ State.reset.cmd = 0 ∧ State.reset.nttCfgWord = 0 ∧
  State.reset.ntt.n = 0 ∧ State.reset.ntt.q = 0 ∧ State.reset.ntt.omega = 0 ∧
  State.reset.ntt.omegaInv = 0 ∧ State.reset.ntt.invN = 0 ∧ (∀ r, State.reset.getX r = 0) ∧
  State.reset.inflight = none ∧ ∀ a, State.reset.byteAt a = Config.unwritten 0 a

/-- The reset input in any state, also while a command is in flight (R280, R282): every register takes
its reset value, the command is abandoned, and every DMEM and TMEM byte is a fresh free value. That all of
them become unspecified is the model's choice among those R282 allows (assumption 8). -/
def Obligations.ResetEventAbandonsCommand : Prop :=
  ∀ (s : State) (es : List Event), s.inputs = .reset :: es →
    ∃ t, step s = .next t ∧ t.inflight = none ∧ t.ctrlWord = 0 ∧ t.statusWord = 0 ∧ t.errinfoWord = 0 ∧
      t.q = 0 ∧ t.cmd = 0 ∧ t.ntt = {} ∧ (∀ r, t.getX r = 0) ∧ t.params = s.params ∧ t.inputs = es ∧
      t.draws = s.draws ∧ t.entropy = s.entropy ∧ t.epoch = s.epoch + 1 ∧
      ∀ a, t.byteAt a = Config.unwritten (s.epoch + 1) a

/-- The reset state has every invariant below. -/
def Obligations.ResetSatisfiesInvariants : Prop :=
  State.reset.params.Legal ∧ MemoryOk State.reset ∧ ReportOk State.reset ∧ CommandOk State.reset ∧
  CtrlOk State.reset ∧ TablesOk State.reset

/-! ### Invariants every step keeps -/

/-- Every step keeps the memory in its canonical form (the model's own, assumption 4) with mapped bytes only
(R42, R67). -/
def Obligations.StepKeepsMemoryCanonical : Prop :=
  ∀ s t : State, MemoryOk s → step s = .next t → MemoryOk t

/-- Every step keeps STATUS.ERRCODE and ERRINFO a row of R242: "Every other CAUSE value is never
written". -/
def Obligations.StepKeepsReportARowOfTheTable : Prop :=
  ∀ s t : State, ReportOk s → step s = .next t → ReportOk t

/-- Every step keeps LASTOP = CMD[7:0], the command in flight equal to CMD with its report cleared (R26,
R29, R70), IFMA52_EN hardwired 0 without HAS_IFMA52 (R25), and the parameters as they are (R8). -/
def Obligations.StepKeepsCommandAndCtrlConsistent : Prop :=
  ∀ s t : State, CommandOk s → CtrlOk s → step s = .next t →
    CommandOk t ∧ CtrlOk t ∧ t.params = s.params

/-- Every step keeps the tables valid: as long as NTT_CFG.VALID = 1, TMEM and the NTT registers hold the
tables of one degree, prime modulus and primitive root (R30 to R35, R41, R190). -/
def Obligations.StepKeepsTablesValid : Prop :=
  ∀ s t : State, s.params.Legal → TablesOk s → step s = .next t → TablesOk t
end

