-- ==== Sys2Proof/Laws/Arith.lean ====
section
/-! SUPPORT. The executable primitives mean what R15, R17, R18 and R19 say: primality is mathematical
primality, the modular exponent is exact, and the inverse is the inverse. -/

namespace Sys2Proof.Machine

/-! ### PowMod (R17) -/

theorem powGo_eq (q : Nat) (hq : 2 ≤ q) (fuel b e acc : Nat) (he : e < 2 ^ fuel) (hacc : acc < q) :
    powGo q fuel b e acc = acc * b ^ e % q := by
  induction fuel generalizing b e acc with
  | zero =>
    have : e = 0 := by simpa using he
    subst this
    simp [powGo, Nat.mod_eq_of_lt hacc]
  | succ fuel ih =>
    rw [powGo]
    by_cases h0 : e = 0
    · subst h0; simp [Nat.mod_eq_of_lt hacc]
    rw [if_neg h0]
    have he2 : e / 2 < 2 ^ fuel := by rw [pow_succ] at he; omega
    rcases Nat.mod_two_eq_zero_or_one e with h | h
    · rw [if_neg (by omega), ih _ _ _ he2 hacc, Nat.mul_mod, ← Nat.pow_mod, ← Nat.mul_mod,
        ← pow_two, ← pow_mul, show 2 * (e / 2) = e by omega]
    · rw [if_pos h, ih _ _ _ he2 (Nat.mod_lt _ (by omega)), Nat.mul_mod, ← Nat.pow_mod, Nat.mod_mod,
        ← Nat.mul_mod, ← pow_two, ← pow_mul, mul_assoc, ← pow_succ', show 2 * (e / 2) + 1 = e by omega]

/-- `PowMod(b, e, q) = b^e mod q` for every u64 exponent (R17). -/
theorem powMod_eq (b e q : Nat) (hq : 2 ≤ q) (he : e < 2 ^ 64) : powMod b e q = b ^ e % q := by
  rw [powMod, powGo_eq q hq 64 _ _ _ he (Nat.mod_lt _ (by omega)), Nat.mod_eq_of_lt (by omega : 1 < q),
    one_mul, ← Nat.pow_mod]

theorem powMod_lt (b e q : Nat) (hq : 2 ≤ q) (he : e < 2 ^ 64) : powMod b e q < q := by
  rw [powMod_eq b e q hq he]
  exact Nat.mod_lt _ (by omega)

/-- `IsPrimRoot(r, d, q)` in exact arithmetic (R19). -/
theorem isPrimRoot_iff (r d q : Nat) (hq : 2 ≤ q) (hd : d < 2 ^ 65) :
    isPrimRoot r d q = true ↔ r ^ (d / 2) % q = q - 1 := by
  unfold isPrimRoot
  rw [powMod_eq r (d / 2) q hq (by omega)]
  simp

/-! ### IsPrime (R15) -/

theorem noOddDivisorFrom_iff (v : Nat) (hv : v % 2 = 1) (fuel d : Nat) (hd : d % 2 = 1) (h3 : 3 ≤ d)
    (hfuel : v < d + 2 * fuel) (hbelow : ∀ k, 2 ≤ k → k < d → ¬ k ∣ v) :
    noOddDivisorFrom v fuel d = true ↔ ∀ k, 2 ≤ k → k * k ≤ v → ¬ k ∣ v := by
  induction fuel generalizing d with
  | zero =>
    simp only [noOddDivisorFrom, true_iff]
    intro k hk hkk
    exact hbelow k hk (by nlinarith)
  | succ fuel ih =>
    rw [noOddDivisorFrom]
    by_cases hlt : v < d * d
    · rw [if_pos hlt]
      simp only [true_iff]
      intro k hk hkk
      exact hbelow k hk (by nlinarith)
    rw [if_neg hlt]
    by_cases hdvd : v % d = 0
    · rw [if_pos hdvd]
      simp only [Bool.false_eq_true, false_iff, not_forall, not_not]
      exact ⟨d, by omega, by omega, Nat.dvd_of_mod_eq_zero hdvd⟩
    rw [if_neg hdvd]
    refine ih (d + 2) (by omega) (by omega) (by omega) ?_
    intro k hk hkd hkv
    rcases (by omega : k < d ∨ k = d ∨ k = d + 1) with h | rfl | rfl
    · exact hbelow k hk h hkv
    · exact hdvd (Nat.mod_eq_zero_of_dvd hkv)
    · have : 2 ∣ v := (show 2 ∣ d + 1 by omega).trans hkv
      omega

/-- "`IsPrime(v)` is true exactly when v is a prime number" (R15). -/
theorem isPrime_iff (v : Nat) : isPrime v = true ↔ v.Prime := by
  unfold isPrime
  by_cases h2 : v < 2
  · rw [if_pos h2]
    simp only [Bool.false_eq_true, false_iff]
    exact fun h => absurd h.two_le (by omega)
  rw [if_neg h2]
  by_cases h : v = 2
  · subst h; simp [Nat.prime_two]
  rw [if_neg h]
  by_cases he : v % 2 = 0
  · rw [if_pos he]
    simp only [Bool.false_eq_true, false_iff]
    intro hp
    exact h ((Nat.prime_dvd_prime_iff_eq Nat.prime_two hp).mp (Nat.dvd_of_mod_eq_zero he)).symm
  rw [if_neg he, noOddDivisorFrom_iff v (by omega) v 3 (by omega) (by omega) (by omega)
    (by intro k hk hk3 hkv; have : k = 2 := by omega
        subst this; omega)]
  rw [Nat.prime_def_le_sqrt]
  constructor
  · intro hk
    exact ⟨by omega, fun m hm hms => hk m hm (Nat.le_sqrt.mp hms)⟩
  · rintro ⟨-, hk⟩ k h2k hkk
    exact hk k h2k (Nat.le_sqrt.mpr hkk)

/-! ### InvMod (R18) -/

/-- The invariant of the extended Euclidean loop: t0 and t1 are coefficients of a modulo q. -/
theorem invGo_spec (q a : Nat) (hq : 2 ≤ q) (fuel r0 r1 t0 t1 : Nat) (hfuel : r1 < fuel)
    (h0 : t0 * a % q = r0 % q) (h1 : t1 * a % q = r1 % q) (ht0 : t0 < q) (ht1 : t1 < q) :
    invGo q fuel r0 r1 t0 t1 * a % q = Nat.gcd r0 r1 % q ∧ invGo q fuel r0 r1 t0 t1 < q := by
  induction fuel generalizing r0 r1 t0 t1 with
  | zero => omega
  | succ fuel ih =>
    rw [invGo]
    by_cases hr : r1 = 0
    · subst hr
      simp [h0, ht0]
    rw [if_neg hr]
    have hpos : 0 < r1 := Nat.pos_of_ne_zero hr
    have hlt : r0 % r1 < r1 := Nat.mod_lt _ hpos
    have hstep : (t0 + (q - (r0 / r1 * t1) % q)) % q * a % q = r0 % r1 % q := by
      have hle : (r0 / r1 * t1) % q ≤ q := (Nat.mod_lt _ (by omega)).le
      have hdiv : r0 = r1 * (r0 / r1) + r0 % r1 := (Nat.div_add_mod r0 r1).symm
      have key : ((t0 + (q - (r0 / r1 * t1) % q)) % q * a : Nat) ≡ r0 % r1 [MOD q] := by
        refine Nat.ModEq.add_right_cancel' (r0 / r1 * r1) ?_
        have e1 : ((t0 + (q - (r0 / r1 * t1) % q)) % q * a : Nat) ≡
            (t0 + (q - (r0 / r1 * t1) % q)) * a [MOD q] := (Nat.mod_modEq _ _).mul_right a
        have e2 : (r0 / r1 * r1 : Nat) ≡ (r0 / r1 * t1) % q * a [MOD q] := by
          have : (t1 * a : Nat) ≡ r1 [MOD q] := h1
          calc (r0 / r1 * r1 : Nat) ≡ r0 / r1 * (t1 * a) [MOD q] := (this.symm).mul_left _
            _ = r0 / r1 * t1 * a := by ring
            _ ≡ (r0 / r1 * t1) % q * a [MOD q] := ((Nat.mod_modEq _ _).symm).mul_right a
        calc ((t0 + (q - (r0 / r1 * t1) % q)) % q * a + r0 / r1 * r1 : Nat)
            ≡ (t0 + (q - (r0 / r1 * t1) % q)) * a + (r0 / r1 * t1) % q * a [MOD q] := e1.add e2
          _ = (t0 + (q - (r0 / r1 * t1) % q) + (r0 / r1 * t1) % q) * a := by ring
          _ = (t0 + q) * a := by rw [Nat.add_assoc, Nat.sub_add_cancel hle]
          _ = t0 * a + q * a := by ring
          _ ≡ t0 * a + 0 [MOD q] := Nat.ModEq.add_left _ (by simp [Nat.ModEq])
          _ ≡ r0 [MOD q] := by rw [Nat.add_zero]; exact h0
          _ = r0 % r1 + r0 / r1 * r1 := by rw [Nat.mul_comm (r0 / r1)]; omega
      exact key
    have := ih r1 (r0 % r1) t1 _ (by omega) h1 hstep ht1 (Nat.mod_lt _ (by omega))
    rw [Nat.gcd_comm r0 r1, Nat.gcd_rec r1 r0, Nat.gcd_comm]
    exact this

/-- `InvMod(a, q)` is the z in [1, q) with (a·z) mod q = 1 when gcd(a mod q, q) = 1 (R18). -/
theorem invMod_spec (a q : Nat) (hq : 2 ≤ q) (h : Nat.gcd (a % q) q = 1) :
    1 ≤ invMod a q ∧ invMod a q < q ∧ a * invMod a q % q = 1 := by
  have hlt : a % q < q := Nat.mod_lt _ (by omega)
  have := invGo_spec q a hq (q + 1) q (a % q) 0 1 (by omega) (by simp) (by simp) (by omega) (by omega)
  rw [Nat.gcd_comm, h, Nat.mod_eq_of_lt (by omega : 1 < q)] at this
  refine ⟨?_, this.2, by rw [Nat.mul_comm]; exact this.1⟩
  rcases Nat.eq_zero_or_pos (invMod a q) with h0 | h0
  · have h1 := this.1
    rw [show invGo q (q + 1) q (a % q) 0 1 = invMod a q from rfl, h0] at h1
    simp at h1
  · exact h0

/-! ### The lazy product (R150, R151) -/

theorem fac_mul_le (w q : Nat) (b : Width) : fac w b q * q ≤ w * 2 ^ widthBits b :=
  Nat.div_mul_le_self _ _

/-- With the right factor the subtraction of R150 is never negative. -/
theorem quotient_mul_le (y w q : Nat) (b : Width) :
    y * fac w b q / 2 ^ widthBits b * q ≤ y * w := by
  have hp : 0 < 2 ^ widthBits b := Nat.two_pow_pos _
  refine Nat.le_of_mul_le_mul_left ?_ hp
  have h1 := Nat.div_mul_le_self (y * fac w b q) (2 ^ widthBits b)
  have h2 := fac_mul_le w q b
  calc 2 ^ widthBits b * (y * fac w b q / 2 ^ widthBits b * q)
      = y * fac w b q / 2 ^ widthBits b * 2 ^ widthBits b * q := by ring
    _ ≤ y * fac w b q * q := Nat.mul_le_mul_right q h1
    _ = y * (fac w b q * q) := by ring
    _ ≤ y * (w * 2 ^ widthBits b) := Nat.mul_le_mul_left y h2
    _ = 2 ^ widthBits b * (y * w) := by ring

/-- The lazy product with the right factor, without wrap-around: y·W minus a multiple of q, below 2q. -/
theorem lazyMul_spec (y w q : Nat) (b : Width) (hq : 0 < q) (hq62 : q < 2 ^ 62)
    (hy : y < 2 ^ widthBits b) :
    lazyMul y w (fac w b q) q b = y * w - y * fac w b q / 2 ^ widthBits b * q ∧
    lazyMul y w (fac w b q) q b < 2 * q ∧
    lazyMul y w (fac w b q) q b % q = y * w % q := by
  have hp : 0 < 2 ^ widthBits b := Nat.two_pow_pos _
  have hle := quotient_mul_le y w q b
  have hlt : y * w < y * fac w b q / 2 ^ widthBits b * q + 2 * q := by
    have h1 : y * fac w b q < (y * fac w b q / 2 ^ widthBits b + 1) * 2 ^ widthBits b := by
      have := Nat.div_add_mod (y * fac w b q) (2 ^ widthBits b)
      have := Nat.mod_lt (y * fac w b q) hp
      nlinarith
    have h2 : w * 2 ^ widthBits b < (fac w b q + 1) * q := by
      have := Nat.div_add_mod (w * 2 ^ widthBits b) q
      have := Nat.mod_lt (w * 2 ^ widthBits b) hq
      unfold fac
      nlinarith
    refine Nat.lt_of_mul_lt_mul_left (a := 2 ^ widthBits b) ?_
    rcases Nat.eq_zero_or_pos y with rfl | hy0
    · simpa using hq
    calc 2 ^ widthBits b * (y * w) = y * (w * 2 ^ widthBits b) := by ring
      _ < y * ((fac w b q + 1) * q) := Nat.mul_lt_mul_of_pos_left h2 hy0
      _ = y * fac w b q * q + y * q := by ring
      _ ≤ (y * fac w b q / 2 ^ widthBits b + 1) * 2 ^ widthBits b * q + 2 ^ widthBits b * q :=
          Nat.add_le_add (Nat.mul_le_mul_right q h1.le) (Nat.mul_le_mul_right q hy.le)
      _ = 2 ^ widthBits b * (y * fac w b q / 2 ^ widthBits b * q + 2 * q) := by ring
  have hval : lazyMul y w (fac w b q) q b = y * w - y * fac w b q / 2 ^ widthBits b * q := by
    have hnn : ((y * w : Nat) : Int) - ((y * fac w b q / 2 ^ widthBits b * q : Nat) : Int) =
        ((y * w - y * fac w b q / 2 ^ widthBits b * q : Nat) : Int) := by
      rw [Nat.cast_sub hle]
    unfold lazyMul
    rw [hnn, show (2 ^ 64 : Int) = ((2 ^ 64 : Nat) : Int) by norm_num]
    show ((((y * w - y * fac w b q / 2 ^ widthBits b * q : Nat) : Int) % ((2 ^ 64 : Nat) : Int))).toNat = _
    rw [← Int.natCast_mod, Int.toNat_natCast, Nat.mod_eq_of_lt (by omega)]
  refine ⟨hval, by omega, ?_⟩
  rw [hval]
  have hle' : q * (y * fac w b q / 2 ^ widthBits b) ≤ y * w := by rw [Nat.mul_comm]; exact hle
  rw [Nat.mul_comm (y * fac w b q / 2 ^ widthBits b)]
  exact Nat.sub_mul_mod hle'

/-! ### Powers of two -/

theorem isPow2_iff (v : Nat) : isPow2 v = true ↔ ∃ k, v = 2 ^ k := by
  unfold isPow2
  simp only [ne_eq, decide_eq_true_eq]
  constructor
  · rintro ⟨-, h⟩
    exact ⟨_, h.symm⟩
  · rintro ⟨k, rfl⟩
    simp

end Sys2Proof.Machine
end

