-- ==== Sys2Proof/Laws/State.lean ====
section
/-! SUPPORT. One lemma per field per named update of the state, each true by unfolding, so that no later
proof unfolds a record update. -/

namespace Sys2Proof.Machine

variable (s : State)

/-! ### writeWords -/

@[simp] theorem State.writeWords_params (a : Nat) (ws : List Word) : (s.writeWords a ws).params = s.params := rfl
@[simp] theorem State.writeWords_x (a : Nat) (ws : List Word) : (s.writeWords a ws).x = s.x := rfl
@[simp] theorem State.writeWords_q (a : Nat) (ws : List Word) : (s.writeWords a ws).q = s.q := rfl
@[simp] theorem State.writeWords_cmd (a : Nat) (ws : List Word) : (s.writeWords a ws).cmd = s.cmd := rfl
@[simp] theorem State.writeWords_ctrlIfma52 (a : Nat) (ws : List Word) : (s.writeWords a ws).ctrlIfma52 = s.ctrlIfma52 := rfl
@[simp] theorem State.writeWords_ovr (a : Nat) (ws : List Word) : (s.writeWords a ws).ovr = s.ovr := rfl
@[simp] theorem State.writeWords_lastop (a : Nat) (ws : List Word) : (s.writeWords a ws).lastop = s.lastop := rfl
@[simp] theorem State.writeWords_err (a : Nat) (ws : List Word) : (s.writeWords a ws).err = s.err := rfl
@[simp] theorem State.writeWords_ntt (a : Nat) (ws : List Word) : (s.writeWords a ws).ntt = s.ntt := rfl
@[simp] theorem State.writeWords_mem (a : Nat) (ws : List Word) :
    (s.writeWords a ws).mem = s.mem.writeBytes a (wordsBytes ws) := rfl
@[simp] theorem State.writeWords_inflight (a : Nat) (ws : List Word) : (s.writeWords a ws).inflight = s.inflight := rfl
@[simp] theorem State.writeWords_inputs (a : Nat) (ws : List Word) : (s.writeWords a ws).inputs = s.inputs := rfl
@[simp] theorem State.writeWords_response (a : Nat) (ws : List Word) : (s.writeWords a ws).response = s.response := rfl
@[simp] theorem State.writeWords_entropy (a : Nat) (ws : List Word) : (s.writeWords a ws).entropy = s.entropy := rfl
@[simp] theorem State.writeWords_draws (a : Nat) (ws : List Word) : (s.writeWords a ws).draws = s.draws := rfl
@[simp] theorem State.writeWords_epoch (a : Nat) (ws : List Word) : (s.writeWords a ws).epoch = s.epoch := rfl

/-! ### setX -/

@[simp] theorem State.setX_params (r : Reg) (v : Word) : (s.setX r v).params = s.params := rfl
@[simp] theorem State.setX_x (r : Reg) (v : Word) : (s.setX r v).x = s.x.set r.toNat v := rfl
@[simp] theorem State.setX_q (r : Reg) (v : Word) : (s.setX r v).q = s.q := rfl
@[simp] theorem State.setX_cmd (r : Reg) (v : Word) : (s.setX r v).cmd = s.cmd := rfl
@[simp] theorem State.setX_ctrlIfma52 (r : Reg) (v : Word) : (s.setX r v).ctrlIfma52 = s.ctrlIfma52 := rfl
@[simp] theorem State.setX_ovr (r : Reg) (v : Word) : (s.setX r v).ovr = s.ovr := rfl
@[simp] theorem State.setX_lastop (r : Reg) (v : Word) : (s.setX r v).lastop = s.lastop := rfl
@[simp] theorem State.setX_err (r : Reg) (v : Word) : (s.setX r v).err = s.err := rfl
@[simp] theorem State.setX_ntt (r : Reg) (v : Word) : (s.setX r v).ntt = s.ntt := rfl
@[simp] theorem State.setX_mem (r : Reg) (v : Word) : (s.setX r v).mem = s.mem := rfl
@[simp] theorem State.setX_inflight (r : Reg) (v : Word) : (s.setX r v).inflight = s.inflight := rfl
@[simp] theorem State.setX_inputs (r : Reg) (v : Word) : (s.setX r v).inputs = s.inputs := rfl
@[simp] theorem State.setX_response (r : Reg) (v : Word) : (s.setX r v).response = s.response := rfl
@[simp] theorem State.setX_entropy (r : Reg) (v : Word) : (s.setX r v).entropy = s.entropy := rfl
@[simp] theorem State.setX_draws (r : Reg) (v : Word) : (s.setX r v).draws = s.draws := rfl
@[simp] theorem State.setX_epoch (r : Reg) (v : Word) : (s.setX r v).epoch = s.epoch := rfl

/-! ### putX -/

@[simp] theorem State.putX_params (r : Reg) (v : Nat) : (s.putX r v).params = s.params := rfl
@[simp] theorem State.putX_x (r : Reg) (v : Nat) :
    (s.putX r v).x = s.x.set r.toNat (BitVec.ofNat 64 v) := rfl
@[simp] theorem State.putX_q (r : Reg) (v : Nat) : (s.putX r v).q = s.q := rfl
@[simp] theorem State.putX_cmd (r : Reg) (v : Nat) : (s.putX r v).cmd = s.cmd := rfl
@[simp] theorem State.putX_ctrlIfma52 (r : Reg) (v : Nat) : (s.putX r v).ctrlIfma52 = s.ctrlIfma52 := rfl
@[simp] theorem State.putX_ovr (r : Reg) (v : Nat) : (s.putX r v).ovr = s.ovr := rfl
@[simp] theorem State.putX_lastop (r : Reg) (v : Nat) : (s.putX r v).lastop = s.lastop := rfl
@[simp] theorem State.putX_err (r : Reg) (v : Nat) : (s.putX r v).err = s.err := rfl
@[simp] theorem State.putX_ntt (r : Reg) (v : Nat) : (s.putX r v).ntt = s.ntt := rfl
@[simp] theorem State.putX_mem (r : Reg) (v : Nat) : (s.putX r v).mem = s.mem := rfl
@[simp] theorem State.putX_inflight (r : Reg) (v : Nat) : (s.putX r v).inflight = s.inflight := rfl
@[simp] theorem State.putX_inputs (r : Reg) (v : Nat) : (s.putX r v).inputs = s.inputs := rfl
@[simp] theorem State.putX_response (r : Reg) (v : Nat) : (s.putX r v).response = s.response := rfl
@[simp] theorem State.putX_entropy (r : Reg) (v : Nat) : (s.putX r v).entropy = s.entropy := rfl
@[simp] theorem State.putX_draws (r : Reg) (v : Nat) : (s.putX r v).draws = s.draws := rfl
@[simp] theorem State.putX_epoch (r : Reg) (v : Nat) : (s.putX r v).epoch = s.epoch := rfl

/-! ### latchNtt -/

@[simp] theorem State.latchNtt_params (n : NttRegs) : (s.latchNtt n).params = s.params := rfl
@[simp] theorem State.latchNtt_x (n : NttRegs) : (s.latchNtt n).x = s.x := rfl
@[simp] theorem State.latchNtt_q (n : NttRegs) : (s.latchNtt n).q = s.q := rfl
@[simp] theorem State.latchNtt_cmd (n : NttRegs) : (s.latchNtt n).cmd = s.cmd := rfl
@[simp] theorem State.latchNtt_ctrlIfma52 (n : NttRegs) : (s.latchNtt n).ctrlIfma52 = s.ctrlIfma52 := rfl
@[simp] theorem State.latchNtt_ovr (n : NttRegs) : (s.latchNtt n).ovr = s.ovr := rfl
@[simp] theorem State.latchNtt_lastop (n : NttRegs) : (s.latchNtt n).lastop = s.lastop := rfl
@[simp] theorem State.latchNtt_err (n : NttRegs) : (s.latchNtt n).err = s.err := rfl
@[simp] theorem State.latchNtt_ntt (n : NttRegs) : (s.latchNtt n).ntt = n := rfl
@[simp] theorem State.latchNtt_mem (n : NttRegs) : (s.latchNtt n).mem = s.mem := rfl
@[simp] theorem State.latchNtt_inflight (n : NttRegs) : (s.latchNtt n).inflight = s.inflight := rfl
@[simp] theorem State.latchNtt_inputs (n : NttRegs) : (s.latchNtt n).inputs = s.inputs := rfl
@[simp] theorem State.latchNtt_response (n : NttRegs) : (s.latchNtt n).response = s.response := rfl
@[simp] theorem State.latchNtt_entropy (n : NttRegs) : (s.latchNtt n).entropy = s.entropy := rfl
@[simp] theorem State.latchNtt_draws (n : NttRegs) : (s.latchNtt n).draws = s.draws := rfl
@[simp] theorem State.latchNtt_epoch (n : NttRegs) : (s.latchNtt n).epoch = s.epoch := rfl

/-! ### useDraws -/

@[simp] theorem State.useDraws_params (k : Nat) : (s.useDraws k).params = s.params := rfl
@[simp] theorem State.useDraws_x (k : Nat) : (s.useDraws k).x = s.x := rfl
@[simp] theorem State.useDraws_q (k : Nat) : (s.useDraws k).q = s.q := rfl
@[simp] theorem State.useDraws_cmd (k : Nat) : (s.useDraws k).cmd = s.cmd := rfl
@[simp] theorem State.useDraws_ctrlIfma52 (k : Nat) : (s.useDraws k).ctrlIfma52 = s.ctrlIfma52 := rfl
@[simp] theorem State.useDraws_ovr (k : Nat) : (s.useDraws k).ovr = s.ovr := rfl
@[simp] theorem State.useDraws_lastop (k : Nat) : (s.useDraws k).lastop = s.lastop := rfl
@[simp] theorem State.useDraws_err (k : Nat) : (s.useDraws k).err = s.err := rfl
@[simp] theorem State.useDraws_ntt (k : Nat) : (s.useDraws k).ntt = s.ntt := rfl
@[simp] theorem State.useDraws_mem (k : Nat) : (s.useDraws k).mem = s.mem := rfl
@[simp] theorem State.useDraws_inflight (k : Nat) : (s.useDraws k).inflight = s.inflight := rfl
@[simp] theorem State.useDraws_inputs (k : Nat) : (s.useDraws k).inputs = s.inputs := rfl
@[simp] theorem State.useDraws_response (k : Nat) : (s.useDraws k).response = s.response := rfl
@[simp] theorem State.useDraws_entropy (k : Nat) : (s.useDraws k).entropy = s.entropy.drop k := rfl
@[simp] theorem State.useDraws_draws (k : Nat) : (s.useDraws k).draws = s.draws + k := rfl
@[simp] theorem State.useDraws_epoch (k : Nat) : (s.useDraws k).epoch = s.epoch := rfl

/-! ### accept -/

@[simp] theorem State.accept_params (v : Word) : (s.accept v).params = s.params := rfl
@[simp] theorem State.accept_x (v : Word) : (s.accept v).x = s.x := rfl
@[simp] theorem State.accept_q (v : Word) : (s.accept v).q = s.q := rfl
@[simp] theorem State.accept_cmd (v : Word) : (s.accept v).cmd = v := rfl
@[simp] theorem State.accept_ctrlIfma52 (v : Word) : (s.accept v).ctrlIfma52 = s.ctrlIfma52 := rfl
@[simp] theorem State.accept_ovr (v : Word) : (s.accept v).ovr = s.ovr := rfl
@[simp] theorem State.accept_lastop (v : Word) : (s.accept v).lastop = v.extractLsb' 0 8 := rfl
@[simp] theorem State.accept_err (v : Word) : (s.accept v).err = {} := rfl
@[simp] theorem State.accept_ntt (v : Word) : (s.accept v).ntt = s.ntt := rfl
@[simp] theorem State.accept_mem (v : Word) : (s.accept v).mem = s.mem := rfl
@[simp] theorem State.accept_inflight (v : Word) : (s.accept v).inflight = some v := rfl
@[simp] theorem State.accept_inputs (v : Word) : (s.accept v).inputs = s.inputs := rfl
@[simp] theorem State.accept_response (v : Word) : (s.accept v).response = s.response := rfl
@[simp] theorem State.accept_entropy (v : Word) : (s.accept v).entropy = s.entropy := rfl
@[simp] theorem State.accept_draws (v : Word) : (s.accept v).draws = s.draws := rfl
@[simp] theorem State.accept_epoch (v : Word) : (s.accept v).epoch = s.epoch := rfl

/-! ### retire -/

@[simp] theorem State.retire_params : (s.retire).params = s.params := rfl
@[simp] theorem State.retire_x : (s.retire).x = s.x := rfl
@[simp] theorem State.retire_q : (s.retire).q = s.q := rfl
@[simp] theorem State.retire_cmd : (s.retire).cmd = s.cmd := rfl
@[simp] theorem State.retire_ctrlIfma52 : (s.retire).ctrlIfma52 = s.ctrlIfma52 := rfl
@[simp] theorem State.retire_ovr : (s.retire).ovr = s.ovr := rfl
@[simp] theorem State.retire_lastop : (s.retire).lastop = s.lastop := rfl
@[simp] theorem State.retire_err : (s.retire).err = s.err := rfl
@[simp] theorem State.retire_ntt : (s.retire).ntt = s.ntt := rfl
@[simp] theorem State.retire_mem : (s.retire).mem = s.mem := rfl
@[simp] theorem State.retire_inflight : (s.retire).inflight = none := rfl
@[simp] theorem State.retire_inputs : (s.retire).inputs = s.inputs := rfl
@[simp] theorem State.retire_response : (s.retire).response = s.response := rfl
@[simp] theorem State.retire_entropy : (s.retire).entropy = s.entropy := rfl
@[simp] theorem State.retire_draws : (s.retire).draws = s.draws := rfl
@[simp] theorem State.retire_epoch : (s.retire).epoch = s.epoch := rfl

/-! ### fail -/

@[simp] theorem State.fail_params (e : CmdError) : (s.fail e).params = s.params := rfl
@[simp] theorem State.fail_x (e : CmdError) : (s.fail e).x = s.x := rfl
@[simp] theorem State.fail_q (e : CmdError) : (s.fail e).q = s.q := rfl
@[simp] theorem State.fail_cmd (e : CmdError) : (s.fail e).cmd = s.cmd := rfl
@[simp] theorem State.fail_ctrlIfma52 (e : CmdError) : (s.fail e).ctrlIfma52 = s.ctrlIfma52 := rfl
@[simp] theorem State.fail_ovr (e : CmdError) : (s.fail e).ovr = s.ovr := rfl
@[simp] theorem State.fail_lastop (e : CmdError) : (s.fail e).lastop = s.lastop := rfl
@[simp] theorem State.fail_err (e : CmdError) : (s.fail e).err = e.report := rfl
@[simp] theorem State.fail_ntt (e : CmdError) : (s.fail e).ntt = s.ntt := rfl
@[simp] theorem State.fail_mem (e : CmdError) : (s.fail e).mem = s.mem := rfl
@[simp] theorem State.fail_inflight (e : CmdError) : (s.fail e).inflight = none := rfl
@[simp] theorem State.fail_inputs (e : CmdError) : (s.fail e).inputs = s.inputs := rfl
@[simp] theorem State.fail_response (e : CmdError) : (s.fail e).response = s.response := rfl
@[simp] theorem State.fail_entropy (e : CmdError) : (s.fail e).entropy = s.entropy := rfl
@[simp] theorem State.fail_draws (e : CmdError) : (s.fail e).draws = s.draws := rfl
@[simp] theorem State.fail_epoch (e : CmdError) : (s.fail e).epoch = s.epoch := rfl

/-! ### respond -/

@[simp] theorem State.respond_params (r : Option Word) : (s.respond r).params = s.params := rfl
@[simp] theorem State.respond_x (r : Option Word) : (s.respond r).x = s.x := rfl
@[simp] theorem State.respond_q (r : Option Word) : (s.respond r).q = s.q := rfl
@[simp] theorem State.respond_cmd (r : Option Word) : (s.respond r).cmd = s.cmd := rfl
@[simp] theorem State.respond_ctrlIfma52 (r : Option Word) : (s.respond r).ctrlIfma52 = s.ctrlIfma52 := rfl
@[simp] theorem State.respond_ovr (r : Option Word) : (s.respond r).ovr = s.ovr := rfl
@[simp] theorem State.respond_lastop (r : Option Word) : (s.respond r).lastop = s.lastop := rfl
@[simp] theorem State.respond_err (r : Option Word) : (s.respond r).err = s.err := rfl
@[simp] theorem State.respond_ntt (r : Option Word) : (s.respond r).ntt = s.ntt := rfl
@[simp] theorem State.respond_mem (r : Option Word) : (s.respond r).mem = s.mem := rfl
@[simp] theorem State.respond_inflight (r : Option Word) : (s.respond r).inflight = s.inflight := rfl
@[simp] theorem State.respond_inputs (r : Option Word) : (s.respond r).inputs = s.inputs := rfl
@[simp] theorem State.respond_response (r : Option Word) : (s.respond r).response = r := rfl
@[simp] theorem State.respond_entropy (r : Option Word) : (s.respond r).entropy = s.entropy := rfl
@[simp] theorem State.respond_draws (r : Option Word) : (s.respond r).draws = s.draws := rfl
@[simp] theorem State.respond_epoch (r : Option Word) : (s.respond r).epoch = s.epoch := rfl

/-! ### setOvr -/

@[simp] theorem State.setOvr_params (b : Bool) : (s.setOvr b).params = s.params := rfl
@[simp] theorem State.setOvr_x (b : Bool) : (s.setOvr b).x = s.x := rfl
@[simp] theorem State.setOvr_q (b : Bool) : (s.setOvr b).q = s.q := rfl
@[simp] theorem State.setOvr_cmd (b : Bool) : (s.setOvr b).cmd = s.cmd := rfl
@[simp] theorem State.setOvr_ctrlIfma52 (b : Bool) : (s.setOvr b).ctrlIfma52 = s.ctrlIfma52 := rfl
@[simp] theorem State.setOvr_ovr (b : Bool) : (s.setOvr b).ovr = b := rfl
@[simp] theorem State.setOvr_lastop (b : Bool) : (s.setOvr b).lastop = s.lastop := rfl
@[simp] theorem State.setOvr_err (b : Bool) : (s.setOvr b).err = s.err := rfl
@[simp] theorem State.setOvr_ntt (b : Bool) : (s.setOvr b).ntt = s.ntt := rfl
@[simp] theorem State.setOvr_mem (b : Bool) : (s.setOvr b).mem = s.mem := rfl
@[simp] theorem State.setOvr_inflight (b : Bool) : (s.setOvr b).inflight = s.inflight := rfl
@[simp] theorem State.setOvr_inputs (b : Bool) : (s.setOvr b).inputs = s.inputs := rfl
@[simp] theorem State.setOvr_response (b : Bool) : (s.setOvr b).response = s.response := rfl
@[simp] theorem State.setOvr_entropy (b : Bool) : (s.setOvr b).entropy = s.entropy := rfl
@[simp] theorem State.setOvr_draws (b : Bool) : (s.setOvr b).draws = s.draws := rfl
@[simp] theorem State.setOvr_epoch (b : Bool) : (s.setOvr b).epoch = s.epoch := rfl

/-! ### setCtrl -/

@[simp] theorem State.setCtrl_params (v : Word) : (s.setCtrl v).params = s.params := rfl
@[simp] theorem State.setCtrl_x (v : Word) : (s.setCtrl v).x = s.x := rfl
@[simp] theorem State.setCtrl_q (v : Word) : (s.setCtrl v).q = s.q := rfl
@[simp] theorem State.setCtrl_cmd (v : Word) : (s.setCtrl v).cmd = s.cmd := rfl
@[simp] theorem State.setCtrl_ctrlIfma52 (v : Word) : (s.setCtrl v).ctrlIfma52 = (s.params.hasIfma52 && v.getLsbD 0) := rfl
@[simp] theorem State.setCtrl_ovr (v : Word) : (s.setCtrl v).ovr = s.ovr := rfl
@[simp] theorem State.setCtrl_lastop (v : Word) : (s.setCtrl v).lastop = s.lastop := rfl
@[simp] theorem State.setCtrl_err (v : Word) : (s.setCtrl v).err = s.err := rfl
@[simp] theorem State.setCtrl_ntt (v : Word) : (s.setCtrl v).ntt = s.ntt := rfl
@[simp] theorem State.setCtrl_mem (v : Word) : (s.setCtrl v).mem = s.mem := rfl
@[simp] theorem State.setCtrl_inflight (v : Word) : (s.setCtrl v).inflight = s.inflight := rfl
@[simp] theorem State.setCtrl_inputs (v : Word) : (s.setCtrl v).inputs = s.inputs := rfl
@[simp] theorem State.setCtrl_response (v : Word) : (s.setCtrl v).response = s.response := rfl
@[simp] theorem State.setCtrl_entropy (v : Word) : (s.setCtrl v).entropy = s.entropy := rfl
@[simp] theorem State.setCtrl_draws (v : Word) : (s.setCtrl v).draws = s.draws := rfl
@[simp] theorem State.setCtrl_epoch (v : Word) : (s.setCtrl v).epoch = s.epoch := rfl

/-! ### setQ -/

@[simp] theorem State.setQ_params (v : Word) : (s.setQ v).params = s.params := rfl
@[simp] theorem State.setQ_x (v : Word) : (s.setQ v).x = s.x := rfl
@[simp] theorem State.setQ_q (v : Word) : (s.setQ v).q = v := rfl
@[simp] theorem State.setQ_cmd (v : Word) : (s.setQ v).cmd = s.cmd := rfl
@[simp] theorem State.setQ_ctrlIfma52 (v : Word) : (s.setQ v).ctrlIfma52 = s.ctrlIfma52 := rfl
@[simp] theorem State.setQ_ovr (v : Word) : (s.setQ v).ovr = s.ovr := rfl
@[simp] theorem State.setQ_lastop (v : Word) : (s.setQ v).lastop = s.lastop := rfl
@[simp] theorem State.setQ_err (v : Word) : (s.setQ v).err = s.err := rfl
@[simp] theorem State.setQ_ntt (v : Word) : (s.setQ v).ntt = s.ntt := rfl
@[simp] theorem State.setQ_mem (v : Word) : (s.setQ v).mem = s.mem := rfl
@[simp] theorem State.setQ_inflight (v : Word) : (s.setQ v).inflight = s.inflight := rfl
@[simp] theorem State.setQ_inputs (v : Word) : (s.setQ v).inputs = s.inputs := rfl
@[simp] theorem State.setQ_response (v : Word) : (s.setQ v).response = s.response := rfl
@[simp] theorem State.setQ_entropy (v : Word) : (s.setQ v).entropy = s.entropy := rfl
@[simp] theorem State.setQ_draws (v : Word) : (s.setQ v).draws = s.draws := rfl
@[simp] theorem State.setQ_epoch (v : Word) : (s.setQ v).epoch = s.epoch := rfl

/-! ### setInputs -/

@[simp] theorem State.setInputs_params (es : List Event) : (s.setInputs es).params = s.params := rfl
@[simp] theorem State.setInputs_x (es : List Event) : (s.setInputs es).x = s.x := rfl
@[simp] theorem State.setInputs_q (es : List Event) : (s.setInputs es).q = s.q := rfl
@[simp] theorem State.setInputs_cmd (es : List Event) : (s.setInputs es).cmd = s.cmd := rfl
@[simp] theorem State.setInputs_ctrlIfma52 (es : List Event) : (s.setInputs es).ctrlIfma52 = s.ctrlIfma52 := rfl
@[simp] theorem State.setInputs_ovr (es : List Event) : (s.setInputs es).ovr = s.ovr := rfl
@[simp] theorem State.setInputs_lastop (es : List Event) : (s.setInputs es).lastop = s.lastop := rfl
@[simp] theorem State.setInputs_err (es : List Event) : (s.setInputs es).err = s.err := rfl
@[simp] theorem State.setInputs_ntt (es : List Event) : (s.setInputs es).ntt = s.ntt := rfl
@[simp] theorem State.setInputs_mem (es : List Event) : (s.setInputs es).mem = s.mem := rfl
@[simp] theorem State.setInputs_inflight (es : List Event) : (s.setInputs es).inflight = s.inflight := rfl
@[simp] theorem State.setInputs_inputs (es : List Event) : (s.setInputs es).inputs = es := rfl
@[simp] theorem State.setInputs_response (es : List Event) : (s.setInputs es).response = s.response := rfl
@[simp] theorem State.setInputs_entropy (es : List Event) : (s.setInputs es).entropy = s.entropy := rfl
@[simp] theorem State.setInputs_draws (es : List Event) : (s.setInputs es).draws = s.draws := rfl
@[simp] theorem State.setInputs_epoch (es : List Event) : (s.setInputs es).epoch = s.epoch := rfl

/-- `memWrite` is a block of word writes. -/
@[simp] theorem State.memWrite_eq (a : Nat) (vs : List Nat) : s.memWrite a vs = s.writeWords (dmemOff a) (vs.map (BitVec.ofNat 64)) := rfl

/-- `tWrite` is a block of word writes. -/
@[simp] theorem State.tWrite_eq (t : Nat) (vs : List Nat) : s.tWrite t vs = s.writeWords (tmemOff t 0) (vs.map (BitVec.ofNat 64)) := rfl

end Sys2Proof.Machine
end

