-- ==== Sys2Proof/Laws/HostPort.lean ====
section
/-! SUPPORT. What a host access can do, once: a write while BUSY = 1 only touches OVR, a write to STATUS only
OVR, and a read does not depend on the events to come. -/

namespace Sys2Proof.Machine

variable (s : State)

theorem State.busy_iff : s.busy = true ↔ s.inflight ≠ none := by
  simp [State.busy, Option.isSome_iff_ne_none]

/-- While BUSY = 1 a guarded write is rejected and sets OVR (R71, R255). -/
theorem guarded_busy (write : State → State) (h : s.inflight ≠ none) : guarded s write = s.setOvr true := by
  rw [guarded, if_pos ((State.busy_iff s).2 h)]

/-- While BUSY = 0 a guarded write takes effect (R70). -/
theorem guarded_idle (write : State → State) (h : s.inflight = none) : guarded s write = write s := by
  rw [guarded, if_neg (by simp [State.busy, h])]

/-- While BUSY = 1 a host write to anything but STATUS only sets OVR (R255). -/
theorem targetWrite_busy (v : Word) (t : Target) (h : s.inflight ≠ none) (ht : t ≠ .reg .status) :
    targetWrite s v t = s.setOvr true := by
  cases t with
  | reg r => cases r <;> first | exact absurd rfl ht | simp only [targetWrite, guarded_busy s _ h]
  | gpr r => simp only [targetWrite, guarded_busy s _ h]
  | dmem a => simp only [targetWrite, guarded_busy s _ h]
  | tmem t k => simp only [targetWrite, guarded_busy s _ h]

/-- A write to STATUS changes only OVR, and only when bit 2 is 1 (R26). -/
theorem targetWrite_status (v : Word) :
    targetWrite s v (.reg .status) = s.setOvr (if v.getLsbD 2 then false else s.ovr) := by
  cases h : v.getLsbD 2 <;> simp only [targetWrite, h] <;> rfl

/-- The value of a host read while BUSY = 0, whatever events are to come (R39). -/
@[simp] theorem targetRead_setInputs (es : List Event) (t : Target) :
    targetRead (s.setInputs es) t = targetRead s t := by
  cases t with
  | reg r => cases r <;> rfl
  | gpr r => rfl
  | dmem a => rfl
  | tmem t k => rfl

end Sys2Proof.Machine
end

