-- ==== Sys2Proof/Laws/Memory.lean ====
section
/-! SUPPORT. What the memory operations do, once: a read after a write gives the value written, a write
leaves every other byte alone, and every write keeps the canonical form. -/

namespace Sys2Proof.Machine

/-! ### Bytes -/

theorem Memory.get_cons (b : Nat) (v : Byte) (m : Memory) (a : Nat) :
    Memory.get ((b, v) :: m) a = if b = a then some v else m.get a := rfl

@[simp] theorem Memory.get_nil (a : Nat) : Memory.get [] a = none := rfl

theorem Memory.get_append (m₁ m₂ : Memory) (a : Nat) :
    Memory.get (m₁ ++ m₂) a = (Memory.get m₁ a).or (Memory.get m₂ a) := by
  induction m₁ with
  | nil => rfl
  | cons c m₁ ih =>
    obtain ⟨b, v⟩ := c
    rw [List.cons_append, Memory.get_cons, Memory.get_cons, ih]
    split <;> simp

/-- Reading through a filter that depends on the address only. -/
theorem Memory.get_filter (p : Nat → Bool) (m : Memory) (a : Nat) :
    Memory.get (m.filter fun c => p c.1) a = if p a then m.get a else none := by
  induction m with
  | nil => simp
  | cons c m ih =>
    obtain ⟨b, v⟩ := c
    simp only [List.filter_cons, Memory.get_cons]
    by_cases hb : b = a
    · subst hb
      cases h : p b <;> simp [h, ih, Memory.get_cons]
    · cases h : p b <;> simp [hb, ih, Memory.get_cons]

theorem get_cellsFrom (bs : List Byte) (a c : Nat) :
    Memory.get (cellsFrom a bs) c = if a ≤ c then bs[c - a]? else none := by
  induction bs generalizing a with
  | nil => simp [cellsFrom]
  | cons b bs ih =>
    rw [cellsFrom, Memory.get_cons, ih]
    by_cases h : a = c
    · subst h; simp
    · by_cases hle : a ≤ c
      · have : c - a = (c - (a + 1)) + 1 := by omega
        simp [h, hle, this, show a + 1 ≤ c by omega]
      · simp [h, hle, show ¬ a + 1 ≤ c by omega]

/-- What a write of consecutive bytes does to every address. -/
theorem Memory.get_writeBytes (m : Memory) (a : Nat) (bs : List Byte) (c : Nat) :
    (m.writeBytes a bs).get c =
      if a ≤ c ∧ c < a + bs.length then bs[c - a]? else m.get c := by
  unfold Memory.writeBytes
  rw [Memory.get_append, Memory.get_append, Memory.get_filter (fun x => decide (x < a)),
    Memory.get_filter (fun x => decide (a + bs.length ≤ x)), get_cellsFrom]
  by_cases h1 : c < a
  · simp [h1, show ¬ a ≤ c by omega, show ¬ a + bs.length ≤ c by omega]
  · by_cases h2 : a + bs.length ≤ c
    · simp [h1, h2, show ¬ c < a + bs.length by omega, show bs.length ≤ c - a by omega]
    · simp [h1, h2, show a ≤ c by omega, show c < a + bs.length by omega]

/-- A byte outside the block written keeps its value. -/
theorem Memory.get_writeBytes_outside (m : Memory) (a : Nat) (bs : List Byte) {c : Nat}
    (h : c < a ∨ a + bs.length ≤ c) : (m.writeBytes a bs).get c = m.get c := by
  rw [Memory.get_writeBytes, if_neg (by omega)]

/-! ### The canonical form -/

theorem risingFrom_mono {lo lo' : Nat} (h : lo ≤ lo') {m : Memory} (hm : risingFrom lo' m = true) :
    risingFrom lo m = true := by
  cases m with
  | nil => rfl
  | cons c m =>
    simp only [risingFrom, Bool.and_eq_true, decide_eq_true_eq] at hm ⊢
    exact ⟨by omega, hm.2⟩

theorem risingFrom_le {lo : Nat} {m : Memory} (hm : risingFrom lo m = true) :
    ∀ c ∈ m, lo ≤ c.1 := by
  induction m generalizing lo with
  | nil => simp
  | cons c m ih =>
    simp only [risingFrom, Bool.and_eq_true, decide_eq_true_eq] at hm
    intro d hd
    rcases List.mem_cons.mp hd with rfl | hd
    · exact hm.1
    · have := ih hm.2 d hd
      omega

theorem risingFrom_filter (p : Host.Cell → Bool) {lo : Nat} {m : Memory}
    (hm : risingFrom lo m = true) : risingFrom lo (m.filter p) = true := by
  induction m generalizing lo with
  | nil => rfl
  | cons c m ih =>
    simp only [risingFrom, Bool.and_eq_true, decide_eq_true_eq] at hm
    rw [List.filter_cons]
    split
    · simp only [risingFrom, Bool.and_eq_true, decide_eq_true_eq]
      exact ⟨hm.1, ih hm.2⟩
    · exact risingFrom_mono (by omega) (ih hm.2)

/-- A rising list followed by one that starts at or above a bound past all of it. -/
theorem risingFrom_append {lo mid : Nat} {m₁ m₂ : Memory} (h₁ : risingFrom lo m₁ = true)
    (hb : ∀ c ∈ m₁, c.1 < mid) (h₂ : risingFrom mid m₂ = true) (hlo : lo ≤ mid) :
    risingFrom lo (m₁ ++ m₂) = true := by
  induction m₁ generalizing lo with
  | nil => exact risingFrom_mono hlo h₂
  | cons c m₁ ih =>
    simp only [risingFrom, Bool.and_eq_true, decide_eq_true_eq, List.cons_append] at h₁ ⊢
    have hc : c.1 < mid := hb c (by simp)
    exact ⟨h₁.1, ih h₁.2 (fun d hd => hb d (by simp [hd])) (by omega)⟩

theorem risingFrom_cellsFrom (a : Nat) (bs : List Byte) : risingFrom a (cellsFrom a bs) = true := by
  induction bs generalizing a with
  | nil => rfl
  | cons b bs ih => simp [cellsFrom, risingFrom, ih]

theorem cellsFrom_range (a : Nat) (bs : List Byte) :
    ∀ c ∈ cellsFrom a bs, a ≤ c.1 ∧ c.1 < a + bs.length := by
  induction bs generalizing a with
  | nil => simp [cellsFrom]
  | cons b bs ih =>
    intro c hc
    rcases List.mem_cons.mp hc with rfl | hc
    · simp
    · have := ih (a + 1) c hc
      simp only [List.length_cons]
      omega

theorem risingFrom_of_le {lo b : Nat} {m : Memory} (hm : risingFrom lo m = true)
    (h : ∀ c ∈ m, b ≤ c.1) : risingFrom b m = true := by
  cases m with
  | nil => rfl
  | cons c m =>
    simp only [risingFrom, Bool.and_eq_true, decide_eq_true_eq] at hm ⊢
    exact ⟨h c (by simp), hm.2⟩

/-- Every write keeps the canonical form. -/
theorem Memory.wf_writeBytes {m : Memory} (hm : m.wf = true) (a : Nat) (bs : List Byte) :
    (m.writeBytes a bs).wf = true := by
  unfold Memory.wf at *
  unfold Memory.writeBytes
  have hlow : ∀ c ∈ m.filter (fun c => decide (c.1 < a)), c.1 < a := by
    intro c hc; simpa using (List.mem_filter.mp hc).2
  have hhigh : risingFrom (a + bs.length) (m.filter fun c => decide (a + bs.length ≤ c.1)) = true :=
    risingFrom_of_le (risingFrom_filter _ hm)
      (by intro c hc; simpa using (List.mem_filter.mp hc).2)
  rw [List.append_assoc]
  refine risingFrom_append (risingFrom_filter _ hm) hlow ?_ (Nat.zero_le _)
  exact risingFrom_append (risingFrom_cellsFrom a bs) (fun c hc => (cellsFrom_range a bs c hc).2)
    hhigh (by omega)

/-- Where the cells of a written memory come from. -/
theorem Memory.mem_writeBytes {m : Memory} {a : Nat} {bs : List Byte} {c : Host.Cell}
    (h : c ∈ m.writeBytes a bs) : c ∈ m ∨ a ≤ c.1 ∧ c.1 < a + bs.length := by
  unfold Memory.writeBytes at h
  simp only [List.mem_append] at h
  rcases h with (h | h) | h
  · exact .inl (List.mem_filter.mp h).1
  · exact .inr (cellsFrom_range a bs c h)
  · exact .inl (List.mem_filter.mp h).1

@[simp] theorem Memory.wf_reset : State.reset.mem.wf = true := rfl

/-! ### Words -/

@[simp] theorem laneBytes_length (v : Word) : (laneBytes v).length = 8 := rfl

@[simp] theorem wordsBytes_length (ws : List Word) : (wordsBytes ws).length = 8 * ws.length := by
  induction ws with
  | nil => rfl
  | cons w ws ih => simp [wordsBytes, ih]; omega

/-- The lanes of a word make that word again (R61, R62). -/
theorem ofLanes_byteLane (v : Word) :
    ofLanes (byteLane v 0) (byteLane v 1) (byteLane v 2) (byteLane v 3) (byteLane v 4)
      (byteLane v 5) (byteLane v 6) (byteLane v 7) = v := by
  unfold ofLanes byteLane
  have join (a w : Nat) :
      v.extractLsb' (a + 8) w ++ v.extractLsb' a 8 = v.extractLsb' a (w + 8) := by
    rw [BitVec.extractLsb'_append_extractLsb'_eq_extractLsb' rfl]
  have h6 := join 48 8
  have h5 := join 40 16
  have h4 := join 32 24
  have h3 := join 24 32
  have h2 := join 16 40
  have h1 := join 8 48
  have h0 := join 0 56
  simp only [Nat.reduceAdd, Nat.reduceMul] at *
  erw [h6, h5, h4, h3, h2, h1, h0]
  simp

theorem wordsBytes_getElem? (ws : List Word) (i k : Nat) (hk : k < 8) :
    (wordsBytes ws)[8 * i + k]? = (ws[i]?).map fun w => byteLane w k := by
  induction ws generalizing i with
  | nil => simp [wordsBytes]
  | cons w ws ih =>
    cases i with
    | zero =>
      rw [wordsBytes, List.getElem?_append_left (by simp; omega)]
      rcases (by omega : k = 0 ∨ k = 1 ∨ k = 2 ∨ k = 3 ∨ k = 4 ∨ k = 5 ∨ k = 6 ∨ k = 7)
        with rfl | rfl | rfl | rfl | rfl | rfl | rfl | rfl <;> rfl
    | succ i =>
      rw [wordsBytes, List.getElem?_append_right (by simp; omega), laneBytes_length,
        show 8 * (i + 1) + k - 8 = 8 * i + k by omega, ih]
      simp

/-- A byte outside the words written keeps its value. -/
theorem State.byteAt_writeWords_outside (s : State) (a : Nat) (ws : List Word) {c : Nat}
    (h : c < a ∨ a + 8 * ws.length ≤ c) : (s.writeWords a ws).byteAt c = s.byteAt c := by
  unfold State.byteAt
  rw [State.writeWords_mem, State.writeWords_epoch,
    Memory.get_writeBytes_outside _ _ _ (by simpa using h)]

/-- A word outside the words written keeps its value. -/
theorem State.wordAt_writeWords_outside (s : State) (a : Nat) (ws : List Word) {c : Nat}
    (h : c + 8 ≤ a ∨ a + 8 * ws.length ≤ c) : (s.writeWords a ws).wordAt c = s.wordAt c := by
  unfold State.wordAt
  simp only [State.byteAt_writeWords_outside s a ws (c := c) (by omega),
    State.byteAt_writeWords_outside s a ws (c := c + 1) (by omega),
    State.byteAt_writeWords_outside s a ws (c := c + 2) (by omega),
    State.byteAt_writeWords_outside s a ws (c := c + 3) (by omega),
    State.byteAt_writeWords_outside s a ws (c := c + 4) (by omega),
    State.byteAt_writeWords_outside s a ws (c := c + 5) (by omega),
    State.byteAt_writeWords_outside s a ws (c := c + 6) (by omega),
    State.byteAt_writeWords_outside s a ws (c := c + 7) (by omega)]

theorem State.byteAt_writeWords_inside (s : State) (a : Nat) (ws : List Word) {i k : Nat}
    (hi : i < ws.length) (hk : k < 8) :
    (s.writeWords a ws).byteAt (a + 8 * i + k) = byteLane ws[i] k := by
  unfold State.byteAt
  rw [State.writeWords_mem, Memory.get_writeBytes, if_pos (by simp; omega),
    show a + 8 * i + k - a = 8 * i + k by omega, wordsBytes_getElem? ws i k hk]
  simp [hi]

/-- Reading back word i of the words written gives word i (R11, R65). -/
theorem State.wordAt_writeWords_inside (s : State) (a : Nat) (ws : List Word) {i : Nat}
    (hi : i < ws.length) : (s.writeWords a ws).wordAt (a + 8 * i) = ws[i] := by
  unfold State.wordAt
  have h (k : Nat) (hk : k < 8) := State.byteAt_writeWords_inside s a ws hi hk
  have h0 := h 0 (by omega)
  rw [Nat.add_zero] at h0
  rw [h0, h 1 (by omega), h 2 (by omega), h 3 (by omega), h 4 (by omega), h 5 (by omega),
    h 6 (by omega), h 7 (by omega), ofLanes_byteLane]

/-- A value read from memory is a u64. -/
theorem State.memRead_lt (s : State) (a : Nat) : s.memRead a < 2 ^ 64 := (s.wordAt _).isLt

theorem State.tRead_lt (s : State) (t k : Nat) : s.tRead t k < 2 ^ 64 := (s.wordAt _).isLt

/-- `MemRead` after `MemWrite` of a block, inside the block. -/
theorem State.memRead_memWrite_inside (s : State) (a : Nat) (vs : List Nat) {i : Nat}
    (hi : i < vs.length) : (s.memWrite a vs).memRead (a + i) = vs[i] % 2 ^ 64 := by
  unfold State.memRead
  rw [State.memWrite_eq, show dmemOff (a + i) = dmemOff a + 8 * i by unfold dmemOff; omega,
    State.wordAt_writeWords_inside _ _ _ (by simpa using hi)]
  simp

/-- `MemRead` after `MemWrite` of a block, outside the block. -/
theorem State.memRead_memWrite_outside (s : State) (a : Nat) (vs : List Nat) {c : Nat}
    (h : c < a ∨ a + vs.length ≤ c) : (s.memWrite a vs).memRead c = s.memRead c := by
  unfold State.memRead
  rw [State.memWrite_eq, State.wordAt_writeWords_outside _ _ _ (by simp [dmemOff]; omega)]

end Sys2Proof.Machine
end

