-- ==== Sys2Proof/Laws/Ops.lean ====
section
/-! SUPPORT. What the shared operations do, once: registers, the checks of a command, completion. -/

namespace Sys2Proof.Machine

/-! ### Registers -/

@[simp] theorem State.getX_setX_same (s : State) (r : Reg) (v : Word) : (s.setX r v).getX r = v := by
  simp [State.getX, State.setX]

theorem State.getX_setX_other (s : State) {r r' : Reg} (v : Word) (h : r ≠ r') :
    (s.setX r v).getX r' = s.getX r' := by
  have h' : r.toNat ≠ r'.toNat := fun hh => h (BitVec.eq_of_toNat_eq hh)
  simp [State.getX, State.setX, h']

theorem State.putX_eq (s : State) (r : Reg) (v : Nat) : s.putX r v = s.setX r (BitVec.ofNat 64 v) := rfl

/-- A u64 written to a register reads back (R120). -/
theorem State.valX_putX_same (s : State) (r : Reg) {v : Nat} (hv : v < 2 ^ 64) :
    (s.putX r v).valX r = v := by
  rw [State.valX, State.putX_eq, State.getX_setX_same, BitVec.toNat_ofNat, Nat.mod_eq_of_lt hv]

theorem State.valX_putX_other (s : State) {r r' : Reg} (v : Nat) (h : r ≠ r') :
    (s.putX r v).valX r' = s.valX r' := by
  rw [State.valX, State.putX_eq, State.getX_setX_other _ _ h, ← State.valX]

theorem State.valX_lt (s : State) (r : Reg) : s.valX r < 2 ^ 64 := (s.getX r).isLt

theorem State.modulus_lt (s : State) : s.modulus < 2 ^ 64 := s.q.isLt

@[simp] theorem State.getX_writeWords (s : State) (a : Nat) (ws : List Word) (r : Reg) :
    (s.writeWords a ws).getX r = s.getX r := rfl

@[simp] theorem State.getX_useDraws (s : State) (k : Nat) (r : Reg) :
    (s.useDraws k).getX r = s.getX r := rfl

/-! ### Checks -/

@[simp] theorem require_ok_iff (b : Bool) (c : Cause) (i : Nat) (u : Unit) :
    require b c i = .ok u ↔ b = true := by
  unfold require; cases b <;> simp

@[simp] theorem require_error_iff (b : Bool) (c : Cause) (i : Nat) (e : CmdError) :
    require b c i = .error e ↔ b = false ∧ e = ⟨c, i⟩ := by
  unfold require; cases b <;> simp [eq_comm]

/-- A check and what follows it succeed when both do. -/
theorem check_bind_ok_iff {β : Type} (r : Except CmdError Unit) (f : Unit → Except CmdError β) (b : β) :
    (r >>= f) = .ok b ↔ r = .ok () ∧ f () = .ok b := by
  cases r <;> simp [bind, Except.bind]

/-- A check and what follows it fail when the check fails, or it passes and what follows fails. -/
theorem check_bind_error_iff {β : Type} (r : Except CmdError Unit) (f : Unit → Except CmdError β)
    (e : CmdError) :
    (r >>= f) = .error e ↔ r = .error e ∨ (r = .ok () ∧ f () = .error e) := by
  cases r <;> simp [bind, Except.bind]

theorem checkQ_ok_iff (s : State) (u : Unit) :
    checkQ s = .ok u ↔ 2 ≤ s.modulus ∧ s.modulus < 2 ^ 62 := by
  unfold checkQ Config.qLimit
  simp

theorem checkBelow_ok_iff (s : State) (bound : Nat) (r : Reg) (u : Unit) :
    checkBelow s bound r = .ok u ↔ s.valX r < bound := by
  unfold checkBelow
  simp

theorem checkScalars_ok_iff (s : State) (bound : Nat) (rs : List Reg) (u : Unit) :
    checkScalars s bound rs = .ok u ↔ ∀ r ∈ rs, s.valX r < bound := by
  induction rs with
  | nil => simp [checkScalars]
  | cons r rs ih => simp [checkScalars, check_bind_ok_iff, checkBelow_ok_iff, ih]

theorem checkFactor_ok_iff (s : State) (w : Nat) (b : Width) (r : Reg) (u : Unit) :
    checkFactor s w b r = .ok u ↔ s.valX r = fac w b s.modulus := by
  unfold checkFactor
  simp

theorem checkWidth_ok_iff (v : Nat) (b : Width) (r : Reg) (u : Unit) :
    checkWidth v b r = .ok u ↔ v < 2 ^ widthBits b := by
  unfold checkWidth
  simp

theorem checkBuffers_ok_iff (s : State) (len : Nat) (rs : List Reg) (u : Unit) :
    checkBuffers s len rs = .ok u ↔ ∀ r ∈ rs, s.valX r + len ≤ s.params.dmemWords := by
  induction rs with
  | nil => simp [checkBuffers]
  | cons r rs ih => simp [checkBuffers, check_bind_ok_iff, ih]

theorem checkRow_ok_iff (s : State) (bound i : Nat) (es : List (Cause × Reg)) (u : Unit) :
    checkRow s bound i es = .ok u ↔ ∀ e ∈ es, elem s e.2 i < bound := by
  induction es with
  | nil => simp [checkRow]
  | cons e es ih =>
    obtain ⟨c, r⟩ := e
    simp [checkRow, check_bind_ok_iff, ih]

/-- The element checks pass when every element of every operand is below the bound (R170). -/
theorem checkElems_ok_iff (s : State) (bound : Nat) (es : List (Cause × Reg)) (count i : Nat) (u : Unit) :
    checkElems s bound es count i = .ok u ↔
      ∀ k, i ≤ k → k < i + count → ∀ e ∈ es, elem s e.2 k < bound := by
  induction count generalizing i with
  | zero => simp only [checkElems, true_iff]; omega
  | succ count ih =>
    simp only [checkElems, check_bind_ok_iff, checkRow_ok_iff, ih]
    constructor
    · rintro ⟨h0, h1⟩ k hk hk'
      rcases Nat.eq_or_lt_of_le hk with rfl | hlt
      · exact h0
      · exact h1 k hlt (by omega)
    · intro h
      exact ⟨h i (le_refl i) (by omega), fun k hk hk' => h k (by omega) (by omega)⟩

/-- When the checks of a vector command pass (R170). -/
theorem vecChecks_ok_iff (s : State) (buffers scalars : List Reg) (elems : List (Cause × Reg))
    (len : Nat) (u : Unit) :
    vecChecks s buffers scalars elems len = .ok u ↔
      (2 ≤ s.modulus ∧ s.modulus < 2 ^ 62) ∧
      (∀ r ∈ buffers, s.valX r + len ≤ s.params.dmemWords) ∧
      (∀ r ∈ scalars, s.valX r < s.modulus) ∧
      ∀ k < len, ∀ e ∈ elems, elem s e.2 k < s.modulus := by
  simp only [vecChecks, check_bind_ok_iff, checkQ_ok_iff, checkBuffers_ok_iff, checkScalars_ok_iff,
    checkElems_ok_iff, Nat.zero_le, Nat.zero_add, true_implies]

/-- When the checks of a transform pass (R199, R204). -/
theorem transformChecks_ok_iff (s : State) (rd rs1 : Reg) (fin : Nat) (u : Unit) :
    transformChecks s rd rs1 fin = .ok u ↔
      s.ntt.valid = true ∧
      (s.valX rd + s.ntt.n.toNat ≤ s.params.dmemWords ∧ s.valX rs1 + s.ntt.n.toNat ≤ s.params.dmemWords) ∧
      ∀ k < s.ntt.n.toNat, elem s rs1 k < fin * s.ntt.q.toNat := by
  simp [transformChecks, check_bind_ok_iff, checkBuffers_ok_iff, checkElems_ok_iff]

/-! ### Completion -/

@[simp] theorem complete_ok (s s' : State) : complete s (.ok s') = .next s'.retire := rfl

@[simp] theorem complete_error (s : State) (e : CmdError) : complete s (.error e) = .next (s.fail e) := rfl

/-- Everything `complete` can do: success commits the command's writes, failure only reports (R241). -/
theorem complete_cases {s t : State} {r : Except CmdError State} (h : complete s r = .next t) :
    (∃ s', r = .ok s' ∧ t = s'.retire) ∨ (∃ e, r = .error e ∧ t = s.fail e) := by
  cases r with
  | ok s' => exact .inl ⟨s', rfl, by simpa using h.symm⟩
  | error e => exact .inr ⟨e, rfl, by simpa using h.symm⟩

/-- A command always completes with a next state: it never faults and is never refused (R240). -/
theorem complete_next (s : State) (r : Except CmdError State) : ∃ t, complete s r = .next t := by
  cases r <;> simp

end Sys2Proof.Machine
end

