-- ==== Sys2Proof/Laws/PerInstr.lean ====
section
/-! SUPPORT. The per-instruction family OpcodeByte: an encoded command carries its row's opcode and leaves
bits 63 to 30 at 0 (R91, R94, R97). -/

namespace Sys2Proof.Laws.OpcodeByte
open Sys2Proof

/-- The row of R94 a command belongs to. -/
def row : Instr → Opcode
  | .mulmod _ _ _ => .mulmod
  | .bred _ _ => .bred
  | .powmod _ _ _ => .powmod
  | .invmod _ _ => .invmod
  | .prtest _ _ _ => .prtest
  | .proot _ _ => .proot
  | .mulfac _ _ _ => .mulfac
  | .mullazy _ _ _ _ _ => .mullazy
  | .vsub _ _ _ _ => .vsub
  | .vsubs _ _ _ _ => .vsubs
  | .vfma _ _ _ _ _ => .vfma
  | .vmul _ _ _ _ => .vmul
  | .nttinit _ _ => .nttinit
  | .bfwd _ _ _ _ _ _ => .bfwd
  | .nttfwd _ _ _ _ => .nttfwd
  | .binv _ _ _ _ _ _ => .binv
  | .nttinv _ _ _ _ => .nttinv

/-- The low byte of the encoded command is its row's opcode and bits 63 to 30 are 0. -/
def Statement (i : Instr) : Prop :=
  fieldOp (encode i) = (row i).code ∧ (encode i).extractLsb' 30 34 = 0#34

theorem fieldOp_assemble (op : Opcode) (rd rs1 rs2 rs3 rs4 : Reg) (f0 f1 : Bool) :
    fieldOp (assemble op rd rs1 rs2 rs3 rs4 f0 f1) = op.code := by
  apply BitVec.eq_of_getLsbD_eq
  intro i hi
  have h : 0 + i < 64 ∧ 0 + i < 8 := by omega
  simp only [fieldOp, assemble, BitVec.getLsbD_extractLsb', BitVec.getLsbD_setWidth, BitVec.getLsbD_append, h.1,
    h.2, hi]
  simp

theorem high_assemble (op : Opcode) (rd rs1 rs2 rs3 rs4 : Reg) (f0 f1 : Bool) :
    (assemble op rd rs1 rs2 rs3 rs4 f0 f1).extractLsb' 30 34 = 0#34 := by
  apply BitVec.eq_of_getLsbD_eq
  intro i hi
  simp only [assemble, BitVec.getLsbD_extractLsb', BitVec.getLsbD_setWidth, BitVec.getLsbD_zero]
  rw [BitVec.getLsbD_of_ge _ _ (by omega)]
  simp

theorem mulmod (rd : Reg) (rs1 : Reg) (rs2 : Reg) : Statement (.mulmod rd rs1 rs2) :=
  ⟨fieldOp_assemble .., high_assemble ..⟩
theorem bred (rd : Reg) (rs1 : Reg) : Statement (.bred rd rs1) :=
  ⟨fieldOp_assemble .., high_assemble ..⟩
theorem powmod (rd : Reg) (rs1 : Reg) (rs2 : Reg) : Statement (.powmod rd rs1 rs2) :=
  ⟨fieldOp_assemble .., high_assemble ..⟩
theorem invmod (rd : Reg) (rs1 : Reg) : Statement (.invmod rd rs1) :=
  ⟨fieldOp_assemble .., high_assemble ..⟩
theorem prtest (rd : Reg) (rs1 : Reg) (rs2 : Reg) : Statement (.prtest rd rs1 rs2) :=
  ⟨fieldOp_assemble .., high_assemble ..⟩
theorem proot (rd : Reg) (rs1 : Reg) : Statement (.proot rd rs1) :=
  ⟨fieldOp_assemble .., high_assemble ..⟩
theorem mulfac (rd : Reg) (rs1 : Reg) (b : Width) : Statement (.mulfac rd rs1 b) :=
  ⟨fieldOp_assemble .., high_assemble ..⟩
theorem mullazy (rd : Reg) (rs1 : Reg) (rs2 : Reg) (rs3 : Reg) (b : Width) : Statement (.mullazy rd rs1 rs2 rs3 b) :=
  ⟨fieldOp_assemble .., high_assemble ..⟩
theorem vsub (rd : Reg) (rs1 : Reg) (rs2 : Reg) (rs4 : Reg) : Statement (.vsub rd rs1 rs2 rs4) :=
  ⟨fieldOp_assemble .., high_assemble ..⟩
theorem vsubs (rd : Reg) (rs1 : Reg) (rs2 : Reg) (rs4 : Reg) : Statement (.vsubs rd rs1 rs2 rs4) :=
  ⟨fieldOp_assemble .., high_assemble ..⟩
theorem vfma (rd : Reg) (rs1 : Reg) (rs2 : Reg) (c : Option Reg) (rs4 : Reg) : Statement (.vfma rd rs1 rs2 c rs4) :=
  ⟨fieldOp_assemble .., high_assemble ..⟩
theorem vmul (rd : Reg) (rs1 : Reg) (rs2 : Reg) (rs4 : Reg) : Statement (.vmul rd rs1 rs2 rs4) :=
  ⟨fieldOp_assemble .., high_assemble ..⟩
theorem nttinit (rs1 : Reg) (omega : Option Reg) : Statement (.nttinit rs1 omega) :=
  ⟨fieldOp_assemble .., high_assemble ..⟩
theorem bfwd (rd : Reg) (rs1 : Reg) (rs2 : Reg) (rs3 : Reg) (rs4 : Reg) (b : Width) : Statement (.bfwd rd rs1 rs2 rs3 rs4 b) :=
  ⟨fieldOp_assemble .., high_assemble ..⟩
theorem nttfwd (rd : Reg) (rs1 : Reg) (fin : FwdIn) (fout : FwdOut) : Statement (.nttfwd rd rs1 fin fout) :=
  ⟨fieldOp_assemble .., high_assemble ..⟩
theorem binv (rd : Reg) (rs1 : Reg) (rs2 : Reg) (rs3 : Reg) (rs4 : Reg) (b : Width) : Statement (.binv rd rs1 rs2 rs3 rs4 b) :=
  ⟨fieldOp_assemble .., high_assemble ..⟩
theorem nttinv (rd : Reg) (rs1 : Reg) (fin : InvFactor) (fout : InvFactor) : Statement (.nttinv rd rs1 fin fout) :=
  ⟨fieldOp_assemble .., high_assemble ..⟩

end Sys2Proof.Laws.OpcodeByte
end

