-- ==== Sys2Proof/Laws/Transform.lean ====
section
/-! SUPPORT. What table building, the root search, the vector write and the transforms' layers can do, once:
the fields they leave, the lengths they give, and the outcomes of the search. -/

namespace Sys2Proof.Machine

variable (s : State)

/-! ### Table building leaves every field but the memory and the NTT registers (R191) -/

@[simp] theorem State.writeTables_params (q : Nat) (r ri : List Nat) :
    (s.writeTables q r ri).params = s.params := by
  simp only [State.writeTables, State.tWrite, State.writeWords_params]
@[simp] theorem State.writeTables_x (q : Nat) (r ri : List Nat) :
    (s.writeTables q r ri).x = s.x := by
  simp only [State.writeTables, State.tWrite, State.writeWords_x]
@[simp] theorem State.writeTables_q (q : Nat) (r ri : List Nat) :
    (s.writeTables q r ri).q = s.q := by
  simp only [State.writeTables, State.tWrite, State.writeWords_q]
@[simp] theorem State.writeTables_cmd (q : Nat) (r ri : List Nat) :
    (s.writeTables q r ri).cmd = s.cmd := by
  simp only [State.writeTables, State.tWrite, State.writeWords_cmd]
@[simp] theorem State.writeTables_ctrlIfma52 (q : Nat) (r ri : List Nat) :
    (s.writeTables q r ri).ctrlIfma52 = s.ctrlIfma52 := by
  simp only [State.writeTables, State.tWrite, State.writeWords_ctrlIfma52]
@[simp] theorem State.writeTables_ovr (q : Nat) (r ri : List Nat) :
    (s.writeTables q r ri).ovr = s.ovr := by
  simp only [State.writeTables, State.tWrite, State.writeWords_ovr]
@[simp] theorem State.writeTables_lastop (q : Nat) (r ri : List Nat) :
    (s.writeTables q r ri).lastop = s.lastop := by
  simp only [State.writeTables, State.tWrite, State.writeWords_lastop]
@[simp] theorem State.writeTables_err (q : Nat) (r ri : List Nat) :
    (s.writeTables q r ri).err = s.err := by
  simp only [State.writeTables, State.tWrite, State.writeWords_err]
@[simp] theorem State.writeTables_inflight (q : Nat) (r ri : List Nat) :
    (s.writeTables q r ri).inflight = s.inflight := by
  simp only [State.writeTables, State.tWrite, State.writeWords_inflight]
@[simp] theorem State.writeTables_inputs (q : Nat) (r ri : List Nat) :
    (s.writeTables q r ri).inputs = s.inputs := by
  simp only [State.writeTables, State.tWrite, State.writeWords_inputs]
@[simp] theorem State.writeTables_response (q : Nat) (r ri : List Nat) :
    (s.writeTables q r ri).response = s.response := by
  simp only [State.writeTables, State.tWrite, State.writeWords_response]
@[simp] theorem State.writeTables_entropy (q : Nat) (r ri : List Nat) :
    (s.writeTables q r ri).entropy = s.entropy := by
  simp only [State.writeTables, State.tWrite, State.writeWords_entropy]
@[simp] theorem State.writeTables_draws (q : Nat) (r ri : List Nat) :
    (s.writeTables q r ri).draws = s.draws := by
  simp only [State.writeTables, State.tWrite, State.writeWords_draws]
@[simp] theorem State.writeTables_epoch (q : Nat) (r ri : List Nat) :
    (s.writeTables q r ri).epoch = s.epoch := by
  simp only [State.writeTables, State.tWrite, State.writeWords_epoch]
@[simp] theorem State.writeTables_ntt (q : Nat) (r ri : List Nat) :
    (s.writeTables q r ri).ntt = s.ntt := by
  simp only [State.writeTables, State.tWrite, State.writeWords_ntt]

@[simp] theorem buildTables_params (n q w : Nat) : (buildTables s n q w).params = s.params := by
  rw [buildTables, State.latchNtt_params, State.writeTables_params]
@[simp] theorem buildTables_x (n q w : Nat) : (buildTables s n q w).x = s.x := by
  rw [buildTables, State.latchNtt_x, State.writeTables_x]
@[simp] theorem buildTables_q (n q w : Nat) : (buildTables s n q w).q = s.q := by
  rw [buildTables, State.latchNtt_q, State.writeTables_q]
@[simp] theorem buildTables_cmd (n q w : Nat) : (buildTables s n q w).cmd = s.cmd := by
  rw [buildTables, State.latchNtt_cmd, State.writeTables_cmd]
@[simp] theorem buildTables_ctrlIfma52 (n q w : Nat) : (buildTables s n q w).ctrlIfma52 = s.ctrlIfma52 := by
  rw [buildTables, State.latchNtt_ctrlIfma52, State.writeTables_ctrlIfma52]
@[simp] theorem buildTables_ovr (n q w : Nat) : (buildTables s n q w).ovr = s.ovr := by
  rw [buildTables, State.latchNtt_ovr, State.writeTables_ovr]
@[simp] theorem buildTables_lastop (n q w : Nat) : (buildTables s n q w).lastop = s.lastop := by
  rw [buildTables, State.latchNtt_lastop, State.writeTables_lastop]
@[simp] theorem buildTables_err (n q w : Nat) : (buildTables s n q w).err = s.err := by
  rw [buildTables, State.latchNtt_err, State.writeTables_err]
@[simp] theorem buildTables_inflight (n q w : Nat) : (buildTables s n q w).inflight = s.inflight := by
  rw [buildTables, State.latchNtt_inflight, State.writeTables_inflight]
@[simp] theorem buildTables_inputs (n q w : Nat) : (buildTables s n q w).inputs = s.inputs := by
  rw [buildTables, State.latchNtt_inputs, State.writeTables_inputs]
@[simp] theorem buildTables_response (n q w : Nat) : (buildTables s n q w).response = s.response := by
  rw [buildTables, State.latchNtt_response, State.writeTables_response]
@[simp] theorem buildTables_entropy (n q w : Nat) : (buildTables s n q w).entropy = s.entropy := by
  rw [buildTables, State.latchNtt_entropy, State.writeTables_entropy]
@[simp] theorem buildTables_draws (n q w : Nat) : (buildTables s n q w).draws = s.draws := by
  rw [buildTables, State.latchNtt_draws, State.writeTables_draws]
@[simp] theorem buildTables_epoch (n q w : Nat) : (buildTables s n q w).epoch = s.epoch := by
  rw [buildTables, State.latchNtt_epoch, State.writeTables_epoch]
@[simp] theorem buildTables_ntt (n q w : Nat) : (buildTables s n q w).ntt = tableRegs s.params n q w := by
  rw [buildTables, State.latchNtt_ntt]

/-! ### Reads after a table or a buffer write -/

/-- A word of the table just written (R191). -/
theorem State.tRead_tWrite_same (t : Nat) (vs : List Nat) {k : Nat} (hk : k < vs.length) :
    (s.tWrite t vs).tRead t k = vs[k] % 2 ^ 64 := by
  have h : tmemOff t k = tmemOff t 0 + 8 * k := by simp [tmemOff]
  rw [State.tRead, h, State.tWrite, State.wordAt_writeWords_inside _ _ _ (by simpa using hk)]
  simp

/-- A word of another table, or of the same table beyond the words written (D44). -/
theorem State.tRead_tWrite_other {t t' : Nat} (vs : List Nat) {k : Nat} (hk : k < 2 ^ 20)
    (hlen : vs.length ≤ 2 ^ 20) (h : t ≠ t' ∨ vs.length ≤ k) : (s.tWrite t vs).tRead t' k = s.tRead t' k := by
  rw [State.tRead, State.tRead, State.tWrite, State.wordAt_writeWords_outside]
  simp only [List.length_map, tmemOff, tmemSlot]
  omega

/-- Writing a table leaves DMEM (R42). -/
theorem State.memRead_tWrite (t : Nat) (vs : List Nat) {a : Nat} (ha : a < 2 ^ 21) :
    (s.tWrite t vs).memRead a = s.memRead a := by
  rw [State.memRead, State.memRead, State.tWrite, State.wordAt_writeWords_outside]
  simp only [List.length_map, tmemOff, tmemSlot, dmemOff]
  omega

/-- Writing a buffer that lies in DMEM leaves TMEM (R79). -/
theorem State.tRead_memWrite {a : Nat} (vs : List Nat) (t k : Nat) (h : a + vs.length ≤ 2 ^ 21) :
    (s.memWrite a vs).tRead t k = s.tRead t k := by
  rw [State.tRead, State.tRead, State.memWrite, State.wordAt_writeWords_outside]
  simp only [List.length_map, tmemOff, tmemSlot, dmemOff]
  omega

/-! ### The vector write -/

theorem vecWrite_eq (rd : Reg) (len : Nat) (out : Nat → Nat) :
    vecWrite s rd len out = s.memWrite (s.valX rd) ((List.range len).map out) := rfl

/-- A vector command's stores: word i of the destination holds out i, truncated to 64 bits (R170). -/
theorem memRead_vecWrite_inside (rd : Reg) (len : Nat) (out : Nat → Nat) {i : Nat} (hi : i < len) :
    (vecWrite s rd len out).memRead (s.valX rd + i) = out i % 2 ^ 64 := by
  rw [vecWrite_eq, State.memRead_memWrite_inside _ _ _ (by simpa using hi)]
  simp

/-- A vector command's frame: every byte outside the destination words reads as before (R170). -/
theorem byteAt_vecWrite_outside (rd : Reg) (len : Nat) (out : Nat → Nat) {c : Nat}
    (h : c < dmemOff (s.valX rd) ∨ dmemOff (s.valX rd) + 8 * len ≤ c) :
    (vecWrite s rd len out).byteAt c = s.byteAt c := by
  rw [vecWrite_eq]
  exact State.byteAt_writeWords_outside s _ _ (by simpa using h)

/-! ### Lengths of the transforms -/

theorem layer_length_le (bfly : Nat → Nat → Nat → Nat × Nat) (t blocks root : Nat) (a : List Nat) :
    (layer bfly t blocks root a).length ≤ a.length := by
  induction blocks generalizing root a with
  | zero => simp [layer]
  | succ blocks ih =>
    have := ih (root + 1) (a.drop (2 * t))
    simp only [layer, List.length_append, List.length_map, List.length_zipWith, List.length_take,
      List.length_drop] at this ⊢
    omega

/-- A layer keeps the length of a list that its blocks fit in. -/
theorem layer_length (bfly : Nat → Nat → Nat → Nat × Nat) (t blocks root : Nat) (a : List Nat)
    (h : 2 * t * blocks ≤ a.length) : (layer bfly t blocks root a).length = a.length := by
  induction blocks generalizing root a with
  | zero => simp [layer]
  | succ blocks ih =>
    have hm : 2 * t * (blocks + 1) = 2 * t * blocks + 2 * t := by ring
    have := ih (root + 1) (a.drop (2 * t)) (by rw [List.length_drop]; omega)
    simp only [layer, List.length_append, List.length_map, List.length_zipWith, List.length_take,
      List.length_drop] at this ⊢
    omega

theorem fwdLayers_length_le (bfly : Nat → Nat → Nat → Nat × Nat) (layers m t : Nat) (a : List Nat) :
    (fwdLayers bfly layers m t a).length ≤ a.length := by
  induction layers generalizing m t a with
  | zero => simp [fwdLayers]
  | succ layers ih => exact (ih _ _ _).trans (layer_length_le _ _ _ _ _)

theorem invLayers_length_le (bfly : Nat → Nat → Nat → Nat × Nat) (layers m t root : Nat) (a : List Nat) :
    (invLayers bfly layers m t root a).1.length ≤ a.length := by
  induction layers generalizing m t root a with
  | zero => simp [invLayers]
  | succ layers ih => exact (ih _ _ _ _).trans (layer_length_le _ _ _ _ _)

/-- NTTFWD stores at most as many words as it reads, also with tables that are not the block's. -/
theorem forwardNTT_length_le (r p : Nat → Nat) (a : List Nat) (n q : Nat) (b : Width) (fout : FwdOut) :
    (forwardNTT r p a n q b fout).length ≤ a.length := by
  simpa [forwardNTT] using fwdLayers_length_le _ _ _ _ _

/-- NTTINV stores at most as many words as it reads. -/
theorem inverseNTT_length_le (ri p : Nat → Nat) (invN : Nat) (a : List Nat) (n q : Nat) (b : Width)
    (fout : InvFactor) : (inverseNTT ri p invN a n q b fout).length ≤ a.length := by
  simp only [inverseNTT, invFinal, List.length_map]
  exact (layer_length_le _ _ _ _ _).trans (invLayers_length_le _ _ _ _ _ _)

/-! ### The root search -/

/-- The candidate g of the attempt that takes draw k (R128). -/
def candidate (draw : Nat → Word) (m q k : Nat) : Nat := powMod ((draw k).toNat % q) ((q - 1) / m) q

/-- Everything the search can do: the first attempt that passes decides, or all miss (R128). -/
theorem rootSearch_cases (draw : Nat → Word) (m q attempts k : Nat) :
    (∃ j < attempts, isPrimRoot (candidate draw m q (k + j)) m q = true ∧
      (∀ i < j, isPrimRoot (candidate draw m q (k + i)) m q = false) ∧
      rootSearch draw m q attempts k =
        (some (leastOddPower q (candidate draw m q (k + j) * candidate draw m q (k + j) % q) (m / 2 - 1)
          (candidate draw m q (k + j)) (candidate draw m q (k + j))), k + j + 1)) ∨
    ((∀ i < attempts, isPrimRoot (candidate draw m q (k + i)) m q = false) ∧
      rootSearch draw m q attempts k = (none, k + attempts)) := by
  induction attempts generalizing k with
  | zero => exact .inr ⟨fun i hi => absurd hi (by omega), rfl⟩
  | succ attempts ih =>
    by_cases h : isPrimRoot (candidate draw m q k) m q = true
    · refine .inl ⟨0, by omega, h, fun i hi => absurd hi (by omega), ?_⟩
      simp only [rootSearch]
      exact if_pos h
    · have hf : isPrimRoot (candidate draw m q k) m q = false := by simpa using h
      have hs : rootSearch draw m q (attempts + 1) k = rootSearch draw m q attempts (k + 1) := by
        simp only [rootSearch]
        exact if_neg h
      rcases ih (k + 1) with ⟨j, hj, hh, hm, he⟩ | ⟨hm, he⟩
      · refine .inl ⟨j + 1, by omega, by rwa [Nat.add_right_comm k 1 j] at hh, ?_, ?_⟩
        · intro i hi
          cases i with
          | zero => exact hf
          | succ i =>
            have e : k + 1 + i = k + (i + 1) := by omega
            exact e ▸ hm i (by omega)
        · rw [hs, he]
          have : k + 1 + j = k + (j + 1) := by omega
          simp only [this]
      · refine .inr ⟨?_, by rw [hs, he]; congr 1; omega⟩
        intro i hi
        cases i with
        | zero => exact hf
        | succ i =>
          have e : k + 1 + i = k + (i + 1) := by omega
          exact e ▸ hm i (by omega)

/-- The state after the search differs only by the draws it has taken. -/
theorem minPrimRoot_state (m q : Nat) : ∃ k, (minPrimRoot s m q).2 = s.useDraws k := ⟨_, rfl⟩

end Sys2Proof.Machine
end

