-- ==== Sys2Proof/Machine/Asm.lean ====
section
/-! DEFINITION. The textual form of a command (R100): the disassembler. Text is a list of characters;
`disassemble` gives the string. -/

namespace Sys2Proof.Machine

/-- The decimal digits of a register number below 16. -/
def regDigits (r : Reg) : List Char :=
  if r.toNat < 10 then [Char.ofNat (48 + r.toNat)] else ['1', Char.ofNat (38 + r.toNat)]

/-- A register operand, `x0` to `x15` (R100). -/
def regText (r : Reg) : List Char := 'x' :: regDigits r

/-- Operands separated by a comma and a space (R100). -/
def operandText : List Reg → List Char
  | [] => []
  | [r] => regText r
  | r :: rs => regText r ++ ", ".toList ++ operandText rs

/-- `.52` for f0 = 1; a missing suffix means B = 64 (R100). -/
def widthText : Width → List Char
  | .b64 => []
  | .b52 => ".52".toList

/-- Digit of NTTFWD's input suffix `.i2` or `.i4` (R100). -/
def fwdInDigit : FwdIn → Char
  | .two => '2'
  | .four => '4'

/-- Digit of NTTFWD's output suffix `.o1` or `.o4` (R100). -/
def fwdOutDigit : FwdOut → Char
  | .one => '1'
  | .four => '4'

/-- Digit of NTTINV's suffixes `.i1`, `.i2`, `.o1`, `.o2` (R100). -/
def invDigit : InvFactor → Char
  | .one => '1'
  | .two => '2'

/-- Mnemonic, suffix and operands in the order of R100. -/
def lineText (mnemonic : List Char) (suffix : List Char) (regs : List Reg) : List Char :=
  mnemonic ++ suffix ++ " ".toList ++ operandText regs

/-- The text of a command (R100). -/
def instrText : Instr → List Char
  | .mulmod rd rs1 rs2 => lineText "MULMOD".toList [] [rd, rs1, rs2]
  | .bred rd rs1 => lineText "BRED".toList [] [rd, rs1]
  | .powmod rd rs1 rs2 => lineText "POWMOD".toList [] [rd, rs1, rs2]
  | .invmod rd rs1 => lineText "INVMOD".toList [] [rd, rs1]
  | .prtest rd rs1 rs2 => lineText "PRTEST".toList [] [rd, rs1, rs2]
  | .proot rd rs1 => lineText "PROOT".toList [] [rd, rs1]
  | .mulfac rd rs1 b => lineText "MULFAC".toList (widthText b) [rd, rs1]
  | .mullazy rd rs1 rs2 rs3 b => lineText "MULLAZY".toList (widthText b) [rd, rs1, rs2, rs3]
  | .vsub rd rs1 rs2 rs4 => lineText "VSUB".toList [] [rd, rs1, rs2, rs4]
  | .vsubs rd rs1 rs2 rs4 => lineText "VSUBS".toList [] [rd, rs1, rs2, rs4]
  | .vfma rd rs1 rs2 (some c) rs4 => lineText "VFMA".toList [] [rd, rs1, rs2, c, rs4]
  | .vfma rd rs1 rs2 none rs4 => lineText "VFMA".toList ".noc".toList [rd, rs1, rs2, rs4]
  | .vmul rd rs1 rs2 rs4 => lineText "VMUL".toList [] [rd, rs1, rs2, rs4]
  | .nttinit rs1 none => lineText "NTTINIT".toList [] [rs1]
  | .nttinit rs1 (some rs2) => lineText "NTTINIT".toList ".w".toList [rs1, rs2]
  | .bfwd rd rs1 rs2 rs3 rs4 b => lineText "BFWD".toList (widthText b) [rd, rs1, rs2, rs3, rs4]
  | .nttfwd rd rs1 fin fout =>
    lineText "NTTFWD".toList ['.','i', fwdInDigit fin, '.','o', fwdOutDigit fout] [rd, rs1]
  | .binv rd rs1 rs2 rs3 rs4 b => lineText "BINV".toList (widthText b) [rd, rs1, rs2, rs3, rs4]
  | .nttinv rd rs1 fin fout =>
    lineText "NTTINV".toList ['.','i', invDigit fin, '.','o', invDigit fout] [rd, rs1]

/-- One hexadecimal digit; lower case (DESIGN CHOICE, assumption 10). -/
def hexDigit (d : BitVec 4) : Char :=
  if d.toNat < 10 then Char.ofNat (48 + d.toNat) else Char.ofNat (87 + d.toNat)

/-- The lowest `digits` hexadecimal digits of a word, the highest first. -/
def hexText (v : Word) : (digits : Nat) → List Char
  | 0 => []
  | digits + 1 => hexDigit (v.extractLsb' (4 * digits) 4) :: hexText v digits

/-- A CMD value as a disassembler prints it: the command's form, `.word` with 8 digits for a word that
fails R97, `.word64` with 16 digits when CMD[63:32] ≠ 0 (R100). -/
def disassembleText (v : Word) : List Char :=
  match decode v with
  | .ok i => instrText i
  | .error _ =>
    if v.extractLsb' 32 32 = 0#32 then ".word 0x".toList ++ hexText v 8
    else ".word64 0x".toList ++ hexText v 16

/-- The printed form of a CMD value (R100). -/
def disassemble (v : Word) : String := String.ofList (disassembleText v)

end Sys2Proof.Machine
end

