-- ==== Sys2Proof/Tests/Slice0.lean ====
section
/-! SUPPORT. Tests: ill-formed commands, words written out from the manual's encodings, one step on small
states with results from 95_test_vectors.md, and a witness for the hypotheses of each obligation. -/

namespace Sys2Proof.Tests
set_option Elab.async false
open Sys2Proof Sys2Proof.Machine

/-! ### Small states and what an outcome shows -/

/-- The reset state with a modulus and some general registers. -/
def st (q : Nat) (regs : List (Reg × Nat)) : State :=
  regs.foldl (fun s r => s.putX r.1 r.2) { State.reset with q := BitVec.ofNat 64 q }

/-- `s` with a fixed draw sequence and a bound on the attempts. -/
def withDraws (s : State) (attempts : Nat) (draws : List Nat) : State :=
  { s with params := { prootMaxAttempts := attempts }, entropy := draws.map (BitVec.ofNat 64) }

/-- The value of a register after the step. -/
def outX (o : Outcome) (r : Reg) : Option Nat :=
  match o with
  | .next t => if t.err = {} then some (t.valX r) else none
  | _ => none

/-- DMEM words from `a` on after the step. -/
def outMem (o : Outcome) (a len : Nat) : Option (List Nat) :=
  match o with
  | .next t => if t.err = {} then some ((List.range len).map fun i => t.memRead (a + i)) else none
  | _ => none

/-- TMEM words 0, 1, … of table `tb` after the step. -/
def outTab (o : Outcome) (tb len : Nat) : Option (List Nat) :=
  match o with
  | .next t => if t.err = {} then some ((List.range len).map (t.tRead tb)) else none
  | _ => none

/-- ERRCODE, CAUSE and INDEX after the step. -/
def outErr (o : Outcome) : Option (Nat × Nat × Nat) :=
  match o with
  | .next t => some (t.err.errcode.toNat, t.err.cause.toNat, t.err.index.toNat)
  | _ => none

/-- What the host gets back. -/
def outResponse (o : Outcome) : Option (Option Word) :=
  match o with
  | .next t => some t.response
  | _ => none

/-- The state after a step that goes on. -/
def after (o : Outcome) (s : State) : State :=
  match o with
  | .next t => t
  | _ => s

/-! ### Ill-formed commands are refused (R96) -/

theorem test_wf_bfwd_odd : Instr.wellFormed (.bfwd 7 1 2 3 4 .b64) = false := by decide
theorem test_wf_bfwd_even : Instr.wellFormed (.bfwd 14 1 2 3 4 .b64) = true := by decide
theorem test_wf_binv_odd : Instr.wellFormed (.binv 15 1 2 3 4 .b52) = false := by decide
theorem test_wf_binv_even : Instr.wellFormed (.binv 0 1 2 3 4 .b52) = true := by decide

/-! ### Words of the manual (R95, R102, 95_test_vectors.md) and what they decode to -/

theorem test_decode_mulmod : decode 0x00021310 = .ok (.mulmod 3 1 2) := by decide
theorem test_decode_bred : decode 0x00001211 = .ok (.bred 2 1) := by decide
theorem test_decode_powmod : decode 0x00021312 = .ok (.powmod 3 1 2) := by decide
theorem test_decode_invmod : decode 0x00001413 = .ok (.invmod 4 1) := by decide
theorem test_decode_prtest : decode 0x00021514 = .ok (.prtest 5 1 2) := by decide
theorem test_decode_proot : decode 0x00001615 = .ok (.proot 6 1) := by decide
theorem test_decode_mulfac : decode 0x00001220 = .ok (.mulfac 2 1 .b64) := by decide
theorem test_decode_mulfac52 : decode 0x10001220 = .ok (.mulfac 2 1 .b52) := by decide
theorem test_decode_mullazy : decode 0x00321421 = .ok (.mullazy 4 1 2 3 .b64) := by decide
theorem test_decode_mullazy52 : decode 0x10321421 = .ok (.mullazy 4 1 2 3 .b52) := by decide
theorem test_decode_vsub : decode 0x04021330 = .ok (.vsub 3 1 2 4) := by decide
theorem test_decode_vsubs : decode 0x04021331 = .ok (.vsubs 3 1 2 4) := by decide
theorem test_decode_vfma : decode 0x15321432 = .ok (.vfma 4 1 2 (some 3) 5) := by decide
theorem test_decode_vfma_noc : decode 0x05021432 = .ok (.vfma 4 1 2 none 5) := by decide
theorem test_decode_vmul : decode 0x04021333 = .ok (.vmul 3 1 2 4) := by decide
theorem test_decode_nttinit : decode 0x00001040 = .ok (.nttinit 1 none) := by decide
theorem test_decode_nttinit_w : decode 0x10021040 = .ok (.nttinit 1 (some 2)) := by decide
theorem test_decode_bfwd : decode 0x04321641 = .ok (.bfwd 6 1 2 3 4 .b64) := by decide
theorem test_decode_bfwd52 : decode 0x14321641 = .ok (.bfwd 6 1 2 3 4 .b52) := by decide
theorem test_decode_nttfwd : decode 0x00002342 = .ok (.nttfwd 3 2 .two .one) := by decide
theorem test_decode_nttfwd_i2o4 : decode 0x20002342 = .ok (.nttfwd 3 2 .two .four) := by decide
theorem test_decode_nttfwd_i4o1 : decode 0x10002342 = .ok (.nttfwd 3 2 .four .one) := by decide
theorem test_decode_binv : decode 0x04321843 = .ok (.binv 8 1 2 3 4 .b64) := by decide
theorem test_decode_nttinv : decode 0x00003344 = .ok (.nttinv 3 3 .one .one) := by decide
theorem test_decode_nttinv_o2 : decode 0x20003344 = .ok (.nttinv 3 3 .one .two) := by decide
theorem test_decode_nttinv_i2 : decode 0x10003344 = .ok (.nttinv 3 3 .two .one) := by decide

/-! ### The decoder's errors (95_test_vectors.md section 3.1) -/

theorem test_decode_zero : decode 0 = .error (.undefOpcode 0) := by decide
theorem test_decode_past_proot : decode 0x16 = .error (.undefOpcode 0x16) := by decide
theorem test_decode_reserved_rs3 : decode 0x00F21310 = .error .reservedField := by decide
theorem test_decode_reserved_high : decode 0x0000000100021310 = .error .reservedField := by decide
theorem test_decode_vfma_rs3 : decode 0x05321432 = .error .reservedField := by decide
theorem test_decode_nttinit_rs2 : decode 0x00021040 = .error .reservedField := by decide
theorem test_decode_odd_pair : decode 0x04321741 = .error (.oddPair 7) := by decide
theorem test_decode_reserved_before_pair : decode 0x40001741 = .error .reservedField := by decide
theorem test_decode_opcode_first : decode 0x00F00000 = .error (.undefOpcode 0) := by decide

/-! ### Disassembly (R100) -/

theorem test_disassemble_mullazy52 : disassembleText 0x10321421 = "MULLAZY.52 x4, x1, x2, x3".toList := by
  decide
theorem test_disassemble_vfma_noc : disassembleText 0x05021432 = "VFMA.noc x4, x1, x2, x5".toList := by decide
theorem test_disassemble_nttfwd : disassembleText 0x20002342 = "NTTFWD.i2.o4 x3, x2".toList := by decide
theorem test_disassemble_word : disassembleText 0 = ".word 0x00000000".toList := by decide
theorem test_disassemble_word64 :
    disassembleText 0x0000000100021310 = ".word64 0x0000000100021310".toList := by decide

/-! ### One step of each command (95_test_vectors.md sections 3.2 to 3.5) -/

/-- Q62 of 95_test_vectors.md: 2^62 − 57. -/
def q62 : Nat := 4611686018427387847

theorem test_mulmod_wide : outX (exec (.mulmod 3 1 2) (st q62 [(1, 2 ^ 61), (2, 3)])) 3 =
    some 2305843009213694009 := by decide +kernel
theorem test_mulmod_rs1_first : outErr (exec (.mulmod 3 1 2) (st 769 [(1, 900), (2, 900)])) =
    some (1, 0x11, 1) := by decide +kernel
theorem test_bred_full : outX (exec (.bred 2 1) (st q62 [(1, 2 ^ 64 - 1)])) 2 = some 227 := by decide +kernel
theorem test_bred_q_range : outErr (exec (.bred 2 1) (st 1 [])) = some (1, 0x10, 0) := by decide +kernel
theorem test_powmod_full : outX (exec (.powmod 3 1 2) (st 769 [(1, 2), (2, 2 ^ 64 - 1)])) 3 = some 204 := by
  decide +kernel
theorem test_powmod_zero_zero : outX (exec (.powmod 3 1 2) (st 769 [])) 3 = some 1 := by decide +kernel
theorem test_invmod_unreduced : outX (exec (.invmod 4 1) (st 769 [(1, 774)])) 4 = some 154 := by decide +kernel
theorem test_invmod_composite : outErr (exec (.invmod 4 1) (st 10 [(1, 4)])) = some (4, 0x40, 1) := by decide +kernel
theorem test_prtest_order16 : outX (exec (.prtest 5 1 2) (st 769 [(1, 27), (2, 16)])) 5 = some 1 := by decide +kernel
theorem test_prtest_wrong_order : outX (exec (.prtest 5 1 2) (st 769 [(1, 62), (2, 16)])) 5 = some 0 := by
  decide +kernel
theorem test_proot_least : outX (exec (.proot 6 1) (withDraws (st 769 [(1, 16)]) 1000 [0, 11])) 6 = some 27 := by
  decide +kernel
theorem test_proot_exhausted : outErr (exec (.proot 6 1) (withDraws (st 769 [(1, 16)]) 2 [0, 769])) =
    some (2, 0x20, 0) := by decide +kernel
theorem test_mulfac_64 : outX (exec (.mulfac 2 1 .b64) (st 769 [(1, 27)])) 2 = some 647675019493053177 := by
  decide +kernel
theorem test_mulfac_52 : outX (exec (.mulfac 2 1 .b52) (st 769 [(1, 27)])) 2 = some 158123784055921 := by decide +kernel
theorem test_mullazy_not_canonical : outX (exec (.mullazy 4 1 2 3 .b64)
    (st 769 [(1, 2 ^ 64 - 1), (2, 27), (3, 647675019493053177)])) 4 = some 1261 := by decide +kernel
theorem test_mullazy_mismatch_before_width : outErr (exec (.mullazy 4 1 2 3 .b52)
    (st 769 [(1, 2 ^ 60), (2, 27)])) = some (1, 0x1A, 3) := by decide +kernel
theorem test_vsub_s3 : outMem (exec (.vsub 3 1 2 4)
    ((st 10 [(2, 8), (3, 16), (4, 8)]).memWrite 0 [1, 2, 3, 4, 5, 6, 7, 8, 1, 3, 5, 7, 9, 4, 4, 6])) 16 8 =
    some [0, 9, 8, 7, 6, 2, 3, 2] := by decide +kernel
theorem test_vsub_element_b : outErr (exec (.vsub 3 1 2 4)
    ((st 10 [(2, 8), (3, 16), (4, 2)]).memWrite 0 [1, 2, 3, 4, 5, 6, 7, 8, 1, 10])) =
    some (1, 0x13, 1) := by decide +kernel
theorem test_vsubs_in_place : outMem (exec (.vsubs 3 3 5 4)
    ((st 10 [(3, 16), (4, 8), (5, 2)]).memWrite 16 [0, 9, 8, 7, 6, 2, 3, 2])) 16 8 =
    some [8, 7, 6, 5, 4, 0, 1, 0] := by decide +kernel
theorem test_vsubs_scalar_at_zero_length : outErr (exec (.vsubs 3 1 2 4) (st 10 [(2, 10)])) =
    some (1, 0x11, 2) := by decide +kernel
theorem test_vfma_s4 : outMem (exec (.vfma 4 1 2 (some 3) 5)
    ((st 101 [(2, 3), (3, 4), (4, 8), (5, 4)]).memWrite 0 [1, 2, 3, 4, 2, 3, 4, 5])) 8 4 =
    some [5, 9, 13, 17] := by decide +kernel
theorem test_vfma_noc_range : outErr (exec (.vfma 4 1 2 none 5)
    (st 101 [(4, 262144), (5, 1)])) = some (1, 0x15, 4) := by decide +kernel
theorem test_vmul_s5 : outMem (exec (.vmul 3 1 2 4)
    ((st 281474976749569 [(2, 2), (3, 4), (4, 2)]).memWrite 0
      [281474976749566, 1, 281474976749565, 1])) 4 2 = some [12, 1] := by decide +kernel
theorem test_vmul_overlap : outMem (exec (.vmul 3 1 2 4)
    ((st 769 [(2, 0), (3, 1), (4, 3)]).memWrite 0 [2, 3, 4, 5])) 0 4 = some [2, 4, 9, 16] := by decide +kernel

/-- The tables of degree 2 for Q = 769 and ω = 62 (95_test_vectors.md section 3.5). -/
def s2 : State := buildTables (st 769 [(1, 2), (2, 62)]) 2 769 62

/-- S1 of 95_test_vectors.md: the state with the tables of degree 8 for Q = 769 and ω = 27. -/
def s1 : State := buildTables (st 769 [(1, 8), (3, 16)]) 8 769 27

theorem test_nttinit_w_ri : outTab (exec (.nttinit 1 (some 2)) (st 769 [(1, 8), (2, 27)])) 1 8 =
    some [1, 57, 311, 633, 742, 173, 40, 707] := by decide +kernel
theorem test_nttinit_least : outTab (exec (.nttinit 1 none) (withDraws (st 769 [(1, 8)]) 1000 [0, 11])) 0 8 =
    some [1, 62, 729, 596, 27, 136, 458, 712] := by decide +kernel
theorem test_bfwd_aliased : outX (exec (.bfwd 0 0 1 2 3 .b64)
    (st 769 [(0, 1), (1, 2), (2, 62), (3, 1487253748465529519)])) 1 = some 1415 := by decide +kernel
theorem test_bfwd_largest : outX (exec (.bfwd 6 1 2 3 4 .b52)
    (st 769 [(1, 3000), (2, 3075), (3, 62), (4, 363099059683967)])) 6 = some 2169 := by decide +kernel
theorem test_nttfwd_s1 : outMem (exec (.nttfwd 3 2 .two .one) (s1.memWrite 0 [0, 1, 2, 3, 4, 5, 6, 7])) 16 8 =
    some [43, 524, 130, 295, 11, 628, 92, 584] := by decide +kernel
theorem test_nttfwd_lazy : outMem (exec (.nttfwd 3 2 .two .four) (s1.memWrite 0 [0, 1, 2, 3, 4, 5, 6, 7])) 16 8 =
    some [812, 2062, 1668, 2602, 1549, 2935, 1630, 2122] := by decide +kernel
theorem test_binv_example : outX (exec (.binv 8 1 2 3 4 .b64)
    (st 769 [(1, 5), (2, 700), (3, 57), (4, 1367313930040890041)])) 9 = some 373 := by decide +kernel
theorem test_binv_width : outErr (exec (.binv 8 1 2 3 4 .b52) (st q62 [(1, 2 * q62 - 1)])) =
    some (3, 0x30, 2) := by decide +kernel
theorem test_nttinv_s1 : outMem (exec (.nttinv 3 3 .one .two)
    (s1.memWrite 16 [43, 524, 130, 295, 11, 628, 92, 584])) 16 8 = some [769, 1, 2, 3, 4, 5, 6, 7] := by decide +kernel
theorem test_nttinv_no_tables : outErr (exec (.nttinv 3 3 .one .one) State.reset) = some (1, 0x1B, 0) := by
  decide +kernel

/-! ### The host port (95_test_vectors.md section 3.6) and the step -/

/-- `s` with the events to come. -/
def withEvents (s : State) (es : List Event) : State := s.setInputs es

theorem test_read_id : outResponse (step (withEvents State.reset [.hostRead 0 8])) =
    some (some 0x4252454400070001) := by decide +kernel
theorem test_read_tmem : outResponse (step (withEvents s1 [.hostRead 0x04800008 8])) =
    some (some 333816877451389) := by decide +kernel
theorem test_status_after_error :
    (after (exec (.mulmod 2 1 1) ((st 769 [(1, 769)]).accept 0x00011210)) State.reset).statusWord =
      0x0000000000100102 := by decide +kernel
theorem test_errinfo_after_error :
    (after (exec (.mulmod 2 1 1) ((st 769 [(1, 769)]).accept 0x00011210)) State.reset).errinfoWord =
      0x0000000100000011 := by decide +kernel
theorem test_narrow_access_faults :
    step (withEvents State.reset [.hostRead 0 4]) = .fault (.busError 0 4) := by rfl
theorem test_placed_word_runs :
    step (State.reset.withFetchWord 32 0x00001211) =
      exec (.bred 2 1) (State.reset.accept 0x00001211) := by rfl

/-! ### Witnesses: the hypotheses of each obligation, clause by clause, at the ends of their ranges -/

/-- `s` with a command in flight. -/
def flying (s : State) (v : Word) : State := { s with inflight := some v }

/-- `s` with a step pending for each event. -/
def going (v : Word) (es : List Event) : State := withEvents (flying State.reset v) es

theorem witness_DecodeOfEncodeIsIdentity :
    Instr.wellFormed (.binv 14 15 15 15 15 .b52) = true ∧ Instr.wellFormed (.nttfwd 15 15 .four .four) = true := by
  decide
theorem witness_EncodeOfDecodeIsIdentity : decode 0x1FFFFE43 = .ok (.binv 14 15 15 15 15 .b52) := by decide
theorem witness_DecoderChecksInOrder_rejections :
    opcodeOf ((0 : Word).extractLsb' 0 8) = none ∧
    opcodeOf ((0x0000000100021310 : Word).extractLsb' 0 8) = some .mulmod ∧
    (0x0000000100021310 : Word).extractLsb' 32 32 ≠ 0#32 ∧
    opcodeOf ((0x80021310 : Word).extractLsb' 0 8) = some .mulmod ∧
    (0x80021310 : Word).extractLsb' 0 32 &&& Opcode.mask .mulmod ≠ Opcode.pattern .mulmod ∧
    opcodeOf ((0x05121432 : Word).extractLsb' 0 8) = some .vfma ∧
    (0x05121432 : Word).getLsbD 28 = false ∧ (0x05121432 : Word).extractLsb' 20 4 ≠ 0#4 ∧
    opcodeOf ((0x000F1040 : Word).extractLsb' 0 8) = some .nttinit ∧
    (0x000F1040 : Word).getLsbD 28 = false ∧ (0x000F1040 : Word).extractLsb' 16 4 ≠ 0#4 := by decide
theorem witness_DecoderChecksInOrder_pairs :
    opcodeOf ((0x04321F41 : Word).extractLsb' 0 8) = some .bfwd ∧
    (0x04321F41 : Word).extractLsb' 32 32 = 0#32 ∧
    (0x04321F41 : Word).extractLsb' 0 32 &&& Opcode.mask .bfwd = Opcode.pattern .bfwd ∧
    (0x04321F41 : Word).getLsbD 8 = true ∧
    opcodeOf ((0x04321E41 : Word).extractLsb' 0 8) = some .bfwd ∧
    (0x04321E41 : Word).extractLsb' 32 32 = 0#32 ∧
    (0x04321E41 : Word).extractLsb' 0 32 &&& Opcode.mask .bfwd = Opcode.pattern .bfwd ∧
    (0x04321E41 : Word).getLsbD 8 = false := by decide
theorem witness_StepRunsDecodedCommand :
    (going 0x00001211 []).inflight = some 0x00001211 ∧ decode 0x00001211 = .ok (.bred 2 1) ∧
    (going 0x00001211 []).inputs = [] ∧ (going 0x00001211 [.engine]).inputs = .engine :: [] := by decide
theorem witness_StepReportsIllegalWord :
    (going 0 []).inflight = some 0 ∧ (going 0 []).inputs = [] ∧
    (going 0 [.engine]).inflight = some 0 ∧ (going 0 [.engine]).inputs = .engine :: [] ∧ decode 0 = .error (.undefOpcode 0) ∧
    decode 0xFF = .error (.undefOpcode 0xFF) ∧ decode 0x00021040 = .error .reservedField ∧
    decode 0x04321F41 = .error (.oddPair 15) ∧ decode 0x04321143 = .error (.oddPair 1) := by decide
theorem witness_IdleStepChangesNothing :
    State.reset.inflight = none ∧ State.reset.inputs = [] ∧
    (withEvents State.reset [.engine]).inputs = .engine :: [] := by decide
theorem witness_PlacedWordRunsNext : decodeTableWord 32 0x00021310 = some (.mulmod 3 1 2) := by decide
theorem witness_FailedCommandWritesOnlyItsReport :
    (withDraws (st 769 [(1, 16)]) 2 [0, 769]).err = {} ∧
    ∃ t, exec (.proot 6 1) (withDraws (st 769 [(1, 16)]) 2 [0, 769]) = .next t ∧ t.err ≠ {} :=
  ⟨by decide +kernel, _, rfl, by decide +kernel⟩

/-- A state about to run NTTINIT.w x1, x2 for degree 2, Q = 769 and ω = 62. -/
def readyInit : State := flying (st 769 [(1, 2), (2, 62)]) 0x10021040

theorem witness_TablesChangeOnlyAtNttinitOrReset :
    readyInit.params.Legal ∧ (∃ t, step readyInit = .next t ∧ t.ntt ≠ readyInit.ntt) ∧
    s2.params.Legal ∧ ∃ t, step (withEvents s2 [.reset]) = .next t ∧ t.ntt ≠ (withEvents s2 [.reset]).ntt :=
  ⟨by decide +kernel, ⟨_, rfl, by decide +kernel⟩, by decide +kernel, _, rfl, by decide +kernel⟩
theorem witness_RegisterCommandsWriteOnlyTheirDestination :
    (∃ t, exec (.mulmod 3 1 2) (st 769 [(1, 5), (2, 200)]) = .next t ∧ t.getX 3 ≠ 0) ∧
    ∃ t, exec (.bfwd 6 1 2 3 4 .b64) (st 769 [(1, 1)]) = .next t ∧ t.getX 6 = 1 :=
  ⟨⟨_, rfl, by decide +kernel⟩, _, rfl, by decide +kernel⟩
theorem witness_BufferCommandsWriteNoRegister :
    (∃ t, exec (.vsub 3 1 2 4) (st 10 []) = .next t ∧ t.err = {}) ∧
    ∃ t, exec (.nttinit 1 (some 2)) (st 769 [(1, 2), (2, 62)]) = .next t ∧ t.err = {} :=
  ⟨⟨_, rfl, by decide +kernel⟩, _, rfl, by decide +kernel⟩

/-- The largest modulus that CheckQ takes is 2^62 − 1 and the smallest is 2 (R121). -/
theorem witness_QInRange_ends :
    ¬ (st 1 []).QInRange ∧ ¬ (st (2 ^ 62) []).QInRange ∧ (st 2 []).QInRange ∧ (st (2 ^ 62 - 1) []).QInRange := by
  decide +kernel
theorem witness_MulmodMeaning :
    ¬ (st 1 []).QInRange ∧
    ((st 2 [(1, 2)]).QInRange ∧ (st 2 [(1, 2)]).modulus ≤ (st 2 [(1, 2)]).valX 1) ∧
    ((st 2 [(2, 2)]).QInRange ∧ (st 2 [(2, 2)]).valX 1 < (st 2 [(2, 2)]).modulus ∧
      (st 2 [(2, 2)]).modulus ≤ (st 2 [(2, 2)]).valX 2) ∧
    ((st 2 [(1, 1), (2, 1)]).QInRange ∧ (st 2 [(1, 1), (2, 1)]).valX 1 < (st 2 [(1, 1), (2, 1)]).modulus ∧
      (st 2 [(1, 1), (2, 1)]).valX 2 < (st 2 [(1, 1), (2, 1)]).modulus) := by decide +kernel
theorem witness_BredMeaning : ¬ (st 1 []).QInRange ∧ (st 2 [(1, 7)]).QInRange := by decide +kernel
theorem witness_PowmodMeaning : ¬ (st 1 []).QInRange ∧ (st 2 [(2, 2 ^ 64 - 1)]).QInRange := by decide +kernel
theorem witness_InvmodMeaning :
    ¬ (st 1 []).QInRange ∧
    ((st 2 []).QInRange ∧ Nat.gcd ((st 2 []).valX 1 % (st 2 []).modulus) (st 2 []).modulus ≠ 1) ∧
    ((st 2 [(1, 1)]).QInRange ∧
      Nat.gcd ((st 2 [(1, 1)]).valX 1 % (st 2 [(1, 1)]).modulus) (st 2 [(1, 1)]).modulus = 1) := by
  decide +kernel
theorem witness_PrtestMeaning : ¬ (st 1 []).QInRange ∧ (st 769 [(1, 27), (2, 16)]).QInRange := by decide +kernel

theorem three_not_power : ¬ ∃ e, 3 = 2 ^ e := by
  rintro ⟨e, he⟩
  rcases e with _ | _ | e
  · simp at he
  · simp at he
  · rw [pow_add] at he; omega

theorem witness_ProotReturnsLeastRoot_checks :
    ((st 769 [(1, 1)]).QInRange ∧ ¬ (2 ≤ (st 769 [(1, 1)]).valX 1 ∧ ∃ e, (st 769 [(1, 1)]).valX 1 = 2 ^ e)) ∧
    ((st 769 [(1, 3)]).QInRange ∧ ¬ (2 ≤ (st 769 [(1, 3)]).valX 1 ∧ ∃ e, (st 769 [(1, 3)]).valX 1 = 2 ^ e)) ∧
    ((st 771 [(1, 4)]).QInRange ∧ (2 ≤ (st 771 [(1, 4)]).valX 1 ∧ ∃ e, (st 771 [(1, 4)]).valX 1 = 2 ^ e) ∧
      ¬ (st 771 [(1, 4)]).modulus.Prime) ∧
    ((st 2 [(1, 2)]).QInRange ∧ (2 ≤ (st 2 [(1, 2)]).valX 1 ∧ ∃ e, (st 2 [(1, 2)]).valX 1 = 2 ^ e) ∧
      (st 2 [(1, 2)]).modulus.Prime ∧ ((st 2 [(1, 2)]).modulus - 1) % (st 2 [(1, 2)]).valX 1 ≠ 0) := by
  have h1 : (st 769 [(1, 3)]).valX 1 = 3 := by decide +kernel
  have h2 : (st 771 [(1, 4)]).modulus = 771 := by decide +kernel
  have h3 : (st 2 [(1, 2)]).modulus = 2 := by decide +kernel
  refine ⟨⟨by decide +kernel, fun h => absurd h.1 (by decide +kernel)⟩,
    ⟨by decide +kernel, fun h => three_not_power (h1 ▸ h.2)⟩,
    ⟨by decide +kernel, ⟨by decide +kernel, 2, by decide +kernel⟩, by rw [h2]; norm_num⟩,
    by decide +kernel, ⟨by decide +kernel, 1, by decide +kernel⟩, by rw [h3]; norm_num, by decide +kernel⟩

/-- A PROOT state whose second and last draw hits, and one whose draws all miss. -/
def prootHit : State := withDraws (st 769 [(1, 16)]) 2 [0, 11]
def prootMiss : State := withDraws (st 769 [(1, 16)]) 2 [0, 769]

theorem prime_769 : (769 : Nat).Prime := by norm_num

theorem witness_ProotReturnsLeastRoot_search :
    prootHit.QInRange ∧ (2 ≤ prootHit.valX 1 ∧ ∃ e, prootHit.valX 1 = 2 ^ e) ∧ prootHit.modulus.Prime ∧
    (prootHit.modulus - 1) % prootHit.valX 1 = 0 ∧
    (1 < prootHit.params.prootMaxAttempts ∧ prootHit.Hits (prootHit.valX 1) 1 ∧
      ∀ j < 1, ¬ prootHit.Hits (prootHit.valX 1) j) ∧
    prootMiss.QInRange ∧ (2 ≤ prootMiss.valX 1 ∧ ∃ e, prootMiss.valX 1 = 2 ^ e) ∧ prootMiss.modulus.Prime ∧
    (prootMiss.modulus - 1) % prootMiss.valX 1 = 0 ∧
    ∀ k < prootMiss.params.prootMaxAttempts, ¬ prootMiss.Hits (prootMiss.valX 1) k := by
  have h1 : prootHit.modulus = 769 := by decide +kernel
  have h2 : prootMiss.modulus = 769 := by decide +kernel
  exact ⟨by decide +kernel, ⟨by decide +kernel, 4, by decide +kernel⟩, h1 ▸ prime_769, by decide +kernel,
    by decide +kernel, by decide +kernel, ⟨by decide +kernel, 4, by decide +kernel⟩, h2 ▸ prime_769,
    by decide +kernel, by decide +kernel⟩

theorem witness_MulfacMeaning :
    ¬ (st 1 []).QInRange ∧
    ((st 2 [(1, 2)]).QInRange ∧ (st 2 [(1, 2)]).modulus ≤ (st 2 [(1, 2)]).valX 1) ∧
    ((st 2 [(1, 1)]).QInRange ∧ (st 2 [(1, 1)]).valX 1 < (st 2 [(1, 1)]).modulus) := by decide +kernel

/-- MULLAZY.52 x4, x1, x2, x3 with the factor of W = 27 and a given Y. -/
def lazyAt (y : Nat) : State := st 769 [(1, y), (2, 27), (3, 158123784055921)]

theorem witness_MullazyMeaning :
    ¬ (st 1 []).QInRange ∧ ((st 2 [(2, 2)]).QInRange ∧ (st 2 [(2, 2)]).modulus ≤ (st 2 [(2, 2)]).valX 2) ∧
    ((lazyAt 1).QInRange ∧ (lazyAt 1).valX 2 < (lazyAt 1).modulus ∧
      (lazyAt 1).valX 3 ≠ (lazyAt 1).valX 2 * 2 ^ widthBits .b64 / (lazyAt 1).modulus) ∧
    ((lazyAt (2 ^ 52)).valX 3 = (lazyAt (2 ^ 52)).valX 2 * 2 ^ widthBits .b52 / (lazyAt (2 ^ 52)).modulus ∧
      2 ^ widthBits .b52 ≤ (lazyAt (2 ^ 52)).valX 1) ∧
    ((lazyAt (2 ^ 52 - 1)).QInRange ∧ (lazyAt (2 ^ 52 - 1)).valX 2 < (lazyAt (2 ^ 52 - 1)).modulus ∧
      (lazyAt (2 ^ 52 - 1)).valX 3 =
        (lazyAt (2 ^ 52 - 1)).valX 2 * 2 ^ widthBits .b52 / (lazyAt (2 ^ 52 - 1)).modulus ∧
      (lazyAt (2 ^ 52 - 1)).valX 1 < 2 ^ widthBits .b52) := by decide +kernel

/-- Two-word buffers a at 0 (x1) and b at 2 (x2), out at the last two words of DMEM (x3), L = 2 (x4), a
scalar 9 in x5, Q = 10. -/
def vec : State := (st 10 [(2, 2), (3, 262142), (4, 2), (5, 9)]).memWrite 0 [9, 0, 9, 1]

/-- As `vec`, with element 1 of b out of range and out one word too high. -/
def vecBad : State := (st 10 [(2, 2), (3, 262143), (4, 2), (5, 10)]).memWrite 0 [9, 0, 9, 10]

theorem witness_VecChecksReportFirstFailure :
    ¬ (st 1 []).QInRange ∧
    (vecBad.QInRange ∧ [1, 3, 2] = [(1 : Reg)] ++ 3 :: [2] ∧ (∀ b ∈ [(1 : Reg)], vecBad.Fits b 2) ∧
      ¬ vecBad.Fits 3 2) ∧
    ((∀ b ∈ [(1 : Reg), 2], vecBad.Fits b 2) ∧ [4, 5] = [(4 : Reg)] ++ 5 :: [] ∧
      (∀ b ∈ [(4 : Reg)], vecBad.valX b < vecBad.modulus) ∧ vecBad.modulus ≤ vecBad.valX 5) ∧
    ((1 < 2 ∧ ∀ j < 1, ∀ e ∈ [(Cause.elementA, (1 : Reg)), (.elementB, 2)], elem vecBad e.2 j < vecBad.modulus) ∧
      (∀ e ∈ [(Cause.elementA, (1 : Reg))], elem vecBad e.2 1 < vecBad.modulus) ∧
      vecBad.modulus ≤ elem vecBad 2 1) ∧
    (vec.QInRange ∧ (∀ b ∈ [(3 : Reg), 1, 2], vec.Fits b 2) ∧ (∀ b ∈ [(5 : Reg)], vec.valX b < vec.modulus) ∧
      ∀ i < 2, ∀ e ∈ [(Cause.elementA, (1 : Reg)), (.elementB, 2)], elem vec e.2 i < vec.modulus) := by
  decide +kernel
/-- The failure clauses of VsubMeaning, VsubsMeaning, VfmaMeaning and VmulMeaning: Q, a buffer in each place,
the scalar, and element 1 of operand a, and of b or c, at their bounds. -/
theorem witness_vector_failure :
    ¬ (st 0 []).QInRange ∧
    (vecBad.QInRange ∧ ¬ vecBad.Fits 3 (vecBad.valX 4)) ∧
    (vecBad.Fits 1 (vecBad.valX 4) ∧ ¬ vecBad.Fits 3 (vecBad.valX 4)) ∧
    (vecBad.Fits 1 (vecBad.valX 4) ∧ vecBad.Fits 2 (vecBad.valX 4) ∧ ¬ vecBad.Fits 3 (vecBad.valX 4)) ∧
    vecBad.modulus ≤ vecBad.valX 5 ∧ vecBad.valX 1 < vecBad.modulus ∧
    (1 < vecBad.valX 4 ∧ (∀ j < 1, elem vecBad 2 j < vecBad.modulus ∧ elem vecBad 1 j < vecBad.modulus) ∧
      vecBad.modulus ≤ elem vecBad 2 1) ∧
    ((∀ j < 1, elem vecBad 1 j < vecBad.modulus ∧ elem vecBad 2 j < vecBad.modulus) ∧
      elem vecBad 1 1 < vecBad.modulus ∧ vecBad.modulus ≤ elem vecBad 2 1) := by decide +kernel
theorem witness_vector_success :
    vec.QInRange ∧ vec.Fits 3 (vec.valX 4) ∧ vec.Fits 1 (vec.valX 4) ∧ vec.Fits 2 (vec.valX 4) ∧
    vec.valX 5 < vec.modulus ∧
    ∀ i < vec.valX 4, elem vec 1 i < vec.modulus ∧ elem vec 2 i < vec.modulus := by decide +kernel

theorem witness_NttinitChecksInOrder :
    ((st 769 [(1, 1)]).QInRange ∧ ¬ (2 ≤ (st 769 [(1, 1)]).valX 1)) ∧
    ((st 769 [(1, 2 ^ 18)]).QInRange ∧ ¬ ((st 769 [(1, 2 ^ 18)]).valX 1 ≤ (st 769 [(1, 2 ^ 18)]).params.nmax)) ∧
    (2 ≤ (st 771 [(1, 2 ^ 17)]).valX 1 ∧ (st 771 [(1, 2 ^ 17)]).valX 1 ≤ (st 771 [(1, 2 ^ 17)]).params.nmax ∧
      (∃ e, (st 771 [(1, 2 ^ 17)]).valX 1 = 2 ^ e) ∧ ¬ (st 771 [(1, 2 ^ 17)]).modulus.Prime) ∧
    ((st 769 [(1, 256)]).modulus.Prime ∧ (∃ e, (st 769 [(1, 256)]).valX 1 = 2 ^ e) ∧
      ((st 769 [(1, 256)]).modulus - 1) % (2 * (st 769 [(1, 256)]).valX 1) ≠ 0) ∧
    ((st 769 [(1, 128), (2, 769)]).modulus.Prime ∧
      ((st 769 [(1, 128), (2, 769)]).modulus - 1) % (2 * (st 769 [(1, 128), (2, 769)]).valX 1) = 0 ∧
      (st 769 [(1, 128), (2, 769)]).modulus ≤ (st 769 [(1, 128), (2, 769)]).valX 2) ∧
    (st 769 [(1, 8), (2, 43)]).valX 2 ^ (st 769 [(1, 8), (2, 43)]).valX 1 % (st 769 [(1, 8), (2, 43)]).modulus ≠
      (st 769 [(1, 8), (2, 43)]).modulus - 1 := by
  have h1 : (st 771 [(1, 2 ^ 17)]).modulus = 771 := by decide +kernel
  have h2 : (st 769 [(1, 256)]).modulus = 769 := by decide +kernel
  have h3 : (st 769 [(1, 128), (2, 769)]).modulus = 769 := by decide +kernel
  exact ⟨by decide +kernel, by decide +kernel,
    ⟨by decide +kernel, by decide +kernel, ⟨17, by decide +kernel⟩, by rw [h1]; norm_num⟩,
    ⟨h2 ▸ prime_769, ⟨8, by decide +kernel⟩, by decide +kernel⟩,
    ⟨h3 ▸ prime_769, by decide +kernel, by decide +kernel⟩, by decide +kernel⟩

/-- NTTINIT states of degree 2: a supplied root, a search that hits at the last draw, one that misses. -/
def initRoot : State := st 769 [(1, 2), (2, 62)]
def initHit : State := withDraws (st 769 [(1, 2)]) 2 [0, 11]
def initMiss : State := withDraws (st 769 [(1, 2)]) 2 [0, 769]

theorem witness_NttinitWithRootBuildsTables :
    initRoot.params.Legal ∧ initRoot.QInRange ∧ 2 ≤ initRoot.valX 1 ∧ initRoot.valX 1 ≤ initRoot.params.nmax ∧
    isPow2 (initRoot.valX 1) = true ∧ initRoot.modulus.Prime ∧
    (initRoot.modulus - 1) % (2 * initRoot.valX 1) = 0 ∧ initRoot.valX 2 < initRoot.modulus ∧
    initRoot.valX 2 ^ initRoot.valX 1 % initRoot.modulus = initRoot.modulus - 1 := by
  have h : initRoot.modulus = 769 := by decide +kernel
  exact ⟨by decide +kernel, by decide +kernel, by decide +kernel, by decide +kernel, by decide +kernel,
    h ▸ prime_769, by decide +kernel⟩
theorem witness_NttinitSearchBuildsLeastRootTables_hit :
    initHit.params.Legal ∧ initHit.QInRange ∧ 2 ≤ initHit.valX 1 ∧ initHit.valX 1 ≤ initHit.params.nmax ∧
    isPow2 (initHit.valX 1) = true ∧ initHit.modulus.Prime ∧
    (initHit.modulus - 1) % (2 * initHit.valX 1) = 0 ∧
    1 < initHit.params.prootMaxAttempts ∧ initHit.Hits (2 * initHit.valX 1) 1 ∧
    ∀ j < 1, ¬ initHit.Hits (2 * initHit.valX 1) j := by
  have h : initHit.modulus = 769 := by decide +kernel
  exact ⟨by decide +kernel, by decide +kernel, by decide +kernel, by decide +kernel, by decide +kernel,
    h ▸ prime_769, by decide +kernel⟩
theorem witness_NttinitSearchBuildsLeastRootTables_miss :
    initMiss.params.Legal ∧ initMiss.QInRange ∧ 2 ≤ initMiss.valX 1 ∧ initMiss.valX 1 ≤ initMiss.params.nmax ∧
    isPow2 (initMiss.valX 1) = true ∧ initMiss.modulus.Prime ∧
    (initMiss.modulus - 1) % (2 * initMiss.valX 1) = 0 ∧
    ∀ k < initMiss.params.prootMaxAttempts, ¬ initMiss.Hits (2 * initMiss.valX 1) k := by
  have h : initMiss.modulus = 769 := by decide +kernel
  exact ⟨by decide +kernel, by decide +kernel, by decide +kernel, by decide +kernel, by decide +kernel,
    h ▸ prime_769, by decide +kernel⟩

/-- Butterfly operands X, Y, W with factor 0, Q = 2^62 − 57; the factor is right exactly when W = 0. -/
def bfly (x y w : Nat) : State := st q62 [(1, x), (2, y), (3, w)]

theorem witness_BfwdMeaning :
    (6 : Reg).toNat % 2 = 0 ∧ ¬ (st 1 []).QInRange ∧
    ((bfly (4 * q62) 0 0).QInRange ∧ 4 * (bfly (4 * q62) 0 0).modulus ≤ (bfly (4 * q62) 0 0).valX 1) ∧
    ((bfly (4 * q62 - 1) (4 * q62) 0).valX 1 < 4 * (bfly (4 * q62 - 1) (4 * q62) 0).modulus ∧
      4 * (bfly (4 * q62 - 1) (4 * q62) 0).modulus ≤ (bfly (4 * q62 - 1) (4 * q62) 0).valX 2) ∧
    ((bfly 0 (4 * q62 - 1) q62).valX 2 < 4 * (bfly 0 (4 * q62 - 1) q62).modulus ∧
      (bfly 0 (4 * q62 - 1) q62).modulus ≤ (bfly 0 (4 * q62 - 1) q62).valX 3) ∧
    ((bfly 0 0 1).valX 3 < (bfly 0 0 1).modulus ∧
      (bfly 0 0 1).valX 4 ≠ (bfly 0 0 1).valX 3 * 2 ^ widthBits .b64 / (bfly 0 0 1).modulus) ∧
    ((bfly 0 (2 ^ 52) 0).valX 4 = (bfly 0 (2 ^ 52) 0).valX 3 * 2 ^ widthBits .b52 / (bfly 0 (2 ^ 52) 0).modulus ∧
      2 ^ widthBits .b52 ≤ (bfly 0 (2 ^ 52) 0).valX 2) ∧
    ((bfly (4 * q62 - 1) (2 ^ 52 - 1) 0).QInRange ∧
      (bfly (4 * q62 - 1) (2 ^ 52 - 1) 0).valX 1 < 4 * (bfly (4 * q62 - 1) (2 ^ 52 - 1) 0).modulus ∧
      (bfly (4 * q62 - 1) (2 ^ 52 - 1) 0).valX 2 < 4 * (bfly (4 * q62 - 1) (2 ^ 52 - 1) 0).modulus ∧
      (bfly (4 * q62 - 1) (2 ^ 52 - 1) 0).valX 3 < (bfly (4 * q62 - 1) (2 ^ 52 - 1) 0).modulus ∧
      (bfly (4 * q62 - 1) (2 ^ 52 - 1) 0).valX 4 = (bfly (4 * q62 - 1) (2 ^ 52 - 1) 0).valX 3 *
        2 ^ widthBits .b52 / (bfly (4 * q62 - 1) (2 ^ 52 - 1) 0).modulus ∧
      (bfly (4 * q62 - 1) (2 ^ 52 - 1) 0).valX 2 < 2 ^ widthBits .b52) := by decide +kernel
theorem witness_BinvMeaning :
    (8 : Reg).toNat % 2 = 0 ∧ ¬ (st 1 []).QInRange ∧
    ((bfly (2 * q62) 0 0).QInRange ∧ 2 * (bfly (2 * q62) 0 0).modulus ≤ (bfly (2 * q62) 0 0).valX 1) ∧
    ((bfly (2 * q62 - 1) (2 * q62) 0).valX 1 < 2 * (bfly (2 * q62 - 1) (2 * q62) 0).modulus ∧
      2 * (bfly (2 * q62 - 1) (2 * q62) 0).modulus ≤ (bfly (2 * q62 - 1) (2 * q62) 0).valX 2) ∧
    ((bfly 0 (2 * q62 - 1) q62).valX 2 < 2 * (bfly 0 (2 * q62 - 1) q62).modulus ∧
      (bfly 0 (2 * q62 - 1) q62).modulus ≤ (bfly 0 (2 * q62 - 1) q62).valX 3) ∧
    ((bfly 0 0 1).valX 3 < (bfly 0 0 1).modulus ∧
      (bfly 0 0 1).valX 4 ≠ (bfly 0 0 1).valX 3 * 2 ^ widthBits .b64 / (bfly 0 0 1).modulus) ∧
    ((bfly (2 * q62 - 1) 0 0).valX 4 =
        (bfly (2 * q62 - 1) 0 0).valX 3 * 2 ^ widthBits .b52 / (bfly (2 * q62 - 1) 0 0).modulus ∧
      2 ^ widthBits .b52 ≤ (bfly (2 * q62 - 1) 0 0).valX 1 + 2 * (bfly (2 * q62 - 1) 0 0).modulus -
        (bfly (2 * q62 - 1) 0 0).valX 2) ∧
    ((bfly 0 (2 * q62 - 1) 0).QInRange ∧ (bfly 0 (2 * q62 - 1) 0).valX 1 < 2 * (bfly 0 (2 * q62 - 1) 0).modulus ∧
      (bfly 0 (2 * q62 - 1) 0).valX 3 < (bfly 0 (2 * q62 - 1) 0).modulus ∧
      (bfly 0 (2 * q62 - 1) 0).valX 4 =
        (bfly 0 (2 * q62 - 1) 0).valX 3 * 2 ^ widthBits .b52 / (bfly 0 (2 * q62 - 1) 0).modulus ∧
      (bfly 0 (2 * q62 - 1) 0).valX 1 + 2 * (bfly 0 (2 * q62 - 1) 0).modulus - (bfly 0 (2 * q62 - 1) 0).valX 2 <
        2 ^ widthBits .b52) := by decide +kernel
theorem witness_ButterfliesStayInRange :
    2 ≤ 769 ∧ 769 < 2 ^ 62 ∧ 768 < 769 ∧ (3075 < 4 * 769 ∧ 3075 < 2 ^ widthBits .b52) ∧
    (1537 < 2 * 769 ∧ 0 < 2 * 769 ∧ 1537 + 2 * 769 - 0 < 2 ^ widthBits .b52) := by decide +kernel

/-- A state in which every condition of B = 52 holds, at degree n. -/
def widthAt (n : Nat) : State :=
  { State.reset with ctrlIfma52 := true, ntt := { valid := true, fwd52 := true, n := BitVec.ofNat 64 n } }

theorem witness_TransformWidthIsFixedByLatchAndCtrl :
    ((widthAt 16).ntt.fwd52 = true ∧ (widthAt 16).params.hasIfma52 = true ∧ (widthAt 16).ctrlIfma52 = true ∧
      16 ≤ (widthAt 16).ntt.n.toNat) ∧
    (widthAt 16).ntt.inv52 = false ∧ State.reset.ctrlIfma52 = false ∧ (widthAt 15).ntt.n.toNat < 16 := by
  decide +kernel

/-- The degree-2 tables with a source at 0 and a destination at x3. -/
def transform (dst a0 a1 : Nat) : State := ((s2.putX 2 0).putX 3 dst).memWrite 0 [a0, a1]

theorem witness_NttfwdMeaning :
    State.reset.ntt.valid = false ∧
    ((transform 262143 1 2).ntt.valid = true ∧ ¬ (transform 262143 1 2).Fits 3 (transform 262143 1 2).ntt.n.toNat) ∧
    ((transform 262143 1 2).Fits 2 (transform 262143 1 2).ntt.n.toNat) ∧
    ((transform 262142 1537 1538).Fits 3 (transform 262142 1537 1538).ntt.n.toNat ∧
      1 < (transform 262142 1537 1538).ntt.n.toNat ∧
      (∀ j < 1, elem (transform 262142 1537 1538) 2 j <
        fwdInFactor .two * (transform 262142 1537 1538).ntt.q.toNat) ∧
      fwdInFactor .two * (transform 262142 1537 1538).ntt.q.toNat ≤ elem (transform 262142 1537 1538) 2 1) ∧
    (∀ i < (transform 262142 1537 3075).ntt.n.toNat, elem (transform 262142 1537 3075) 2 i <
      fwdInFactor .four * (transform 262142 1537 3075).ntt.q.toNat) := by decide +kernel
theorem witness_NttinvMeaning :
    State.reset.ntt.valid = false ∧
    ((transform 262143 1 2).ntt.valid = true ∧ ¬ (transform 262143 1 2).Fits 3 (transform 262143 1 2).ntt.n.toNat) ∧
    ((transform 262143 1 2).Fits 2 (transform 262143 1 2).ntt.n.toNat) ∧
    ((transform 262142 768 769).Fits 3 (transform 262142 768 769).ntt.n.toNat ∧
      1 < (transform 262142 768 769).ntt.n.toNat ∧
      (∀ j < 1, elem (transform 262142 768 769) 2 j < invInFactor .one * (transform 262142 768 769).ntt.q.toNat) ∧
      invInFactor .one * (transform 262142 768 769).ntt.q.toNat ≤ elem (transform 262142 768 769) 2 1) ∧
    (∀ i < (transform 262142 1537 768).ntt.n.toNat, elem (transform 262142 1537 768) 2 i <
      invInFactor .two * (transform 262142 1537 768).ntt.q.toNat) := by decide +kernel

theorem witness_tables_hold : TablesOk (transform 262142 768 0) := by
  intro _
  have h : (transform 262142 768 0).ntt.q.toNat = 769 := by decide +kernel
  exact ⟨by decide +kernel, ⟨h ▸ prime_769, by decide +kernel⟩, by decide +kernel, by decide +kernel,
    by decide +kernel, by decide +kernel, by decide +kernel, by decide +kernel, by decide +kernel⟩

/-- The hypotheses that TransformOutputsAreBounded, ForwardTransformEvaluatesPolynomial,
InverseTransformUndoesForward and InverseTransformInterpolatesSource share. -/
theorem witness_transforms :
    (transform 262142 768 0).params.Legal ∧ TablesOk (transform 262142 768 0) ∧
    (transform 262142 768 0).ntt.valid = true ∧
    (transform 262142 768 0).Fits 3 (transform 262142 768 0).ntt.n.toNat ∧
    (transform 262142 768 0).Fits 2 (transform 262142 768 0).ntt.n.toNat ∧
    (∀ i < (transform 262142 768 0).ntt.n.toNat,
      elem (transform 262142 768 0) 2 i < (transform 262142 768 0).ntt.q.toNat ∧
      elem (transform 262142 768 0) 2 i < fwdInFactor .two * (transform 262142 768 0).ntt.q.toNat ∧
      elem (transform 262142 768 0) 2 i < invInFactor .one * (transform 262142 768 0).ntt.q.toNat) ∧
    (∃ t, exec (.nttfwd 3 2 .two .one) (transform 262142 768 0) = .next t ∧ t.err = {}) ∧
    ∃ t, exec (.nttinv 3 2 .one .one) (transform 262142 768 0) = .next t ∧ t.err = {} :=
  ⟨by decide +kernel, witness_tables_hold, by decide +kernel, by decide +kernel, by decide +kernel,
    by decide +kernel, ⟨_, rfl, by decide +kernel⟩, _, rfl, by decide +kernel⟩

theorem witness_AddressMapIsTheManuals :
    Params.Legal {} ∧ Params.Legal { maxDegreeBits := 20, dmemWords := 2 ^ 21 } ∧
    (2 ^ 21 - 1 < 2 ^ 21 ∧ 8 * (2 ^ 20 - 1) < 0x00800000) := by decide +kernel
theorem witness_IllFormedAccessIsBusError :
    targetOf {} 0x60 = none ∧ targetOf {} 0x180 = none ∧ targetOf {} (0x01000000 + 8 * 2 ^ 18) = none ∧
    targetOf {} 0x05000000 = none ∧ (0x0C % 8 ≠ 0) ∧ (0 < Params.base { base := 8 }) ∧
    targetOf {} 0x58 ≠ none ∧ targetOf {} 0x178 ≠ none ∧
    targetOf {} (0x01000000 + 8 * 2 ^ 18 - 8) ≠ none ∧
    (withEvents State.reset [.hostRead 0x58 8]).inputs = .hostRead 0x58 8 :: [] := by decide +kernel
theorem witness_CmdWriteStartsOrIsRejected :
    State.reset.params.base % 8 = 0 ∧
    (withEvents State.reset [.hostWrite (0 + 0x028) 8 0x00001211]).inflight = none ∧
    (going 0x00001211 [.hostWrite (0 + 0x028) 8 0x00001211]).inflight ≠ none ∧
    (going 0x00001211 [.hostWrite (0 + 0x028) 8 0x00001211]).inputs =
      .hostWrite (State.reset.params.base + 0x028) 8 0x00001211 :: [] := by decide +kernel
/-- Every kind of target has an address (BusyWritesOnlyTouchOvr, BusyReadsReturnCurrentValueOrDraw,
IdleReadsHaveNoSideEffect, ReadOnlyAndReservedWritesAreIgnored, IdleWritesStoreTheirValue). -/
theorem witness_targets :
    wellFormedTarget {} 0x000 8 = some (.reg .id) ∧ wellFormedTarget {} 0x008 8 = some (.reg .ctrl) ∧
    wellFormedTarget {} 0x010 8 = some (.reg .status) ∧ wellFormedTarget {} 0x018 8 = some (.reg .errinfo) ∧
    wellFormedTarget {} 0x020 8 = some (.reg .q) ∧ wellFormedTarget {} 0x028 8 = some (.reg .cmd) ∧
    wellFormedTarget {} 0x030 8 = some (.reg .nttCfg) ∧ wellFormedTarget {} 0x058 8 = some (.reg .nttInvN) ∧
    wellFormedTarget {} 0x178 8 = some (.gpr 15) ∧
    wellFormedTarget {} 0x011FFFF8 8 = some (.dmem 262143) ∧
    wellFormedTarget {} 0x048FFFF8 8 = some (.tmem 5 131071) := by decide +kernel
theorem test_read_only_write_while_busy_sets_ovr :
    (after (step (going 0x00001211 [.hostWrite 0x000 8 5])) State.reset).ovr = true := by decide +kernel
theorem witness_busy_accesses :
    (going 0x00001211 [.hostWrite 0x008 8 1]).inflight ≠ none ∧
    (going 0x00001211 [.hostWrite 0x008 8 1]).inputs = .hostWrite 0x008 8 1 :: [] ∧
    (going 0x00001211 [.hostRead 0x018 8]).inputs = .hostRead 0x018 8 :: [] ∧
    (4 : Word).getLsbD 2 = true ∧ (0 : Word).getLsbD 2 = false := by decide +kernel
theorem witness_idle_accesses :
    (withEvents State.reset [.hostRead 0x020 8]).inflight = none ∧
    (withEvents State.reset [.hostRead 0x020 8]).inputs = .hostRead 0x020 8 :: [] ∧
    (withEvents State.reset [.hostWrite 0x020 8 769]).inflight = none ∧
    (withEvents State.reset [.hostWrite 0x020 8 769]).inputs = .hostWrite 0x020 8 769 :: [] := by decide +kernel
theorem witness_DmemWriteThenReadReturnsValue :
    State.reset.params.Legal ∧ State.reset.params.base % 8 = 0 ∧ State.reset.inflight = none ∧
    262143 < State.reset.params.dmemWords ∧
    (withEvents State.reset [.hostWrite 0x011FFFF8 8 7, .hostRead 0x011FFFF8 8]).inputs =
      .hostWrite (State.reset.params.base + 0x01000000 + 8 * 262143) 8 7 ::
        .hostRead (State.reset.params.base + 0x01000000 + 8 * 262143) 8 :: [] := by decide +kernel
theorem witness_ResetEventAbandonsCommand :
    (going 0x00001211 [.reset]).inputs = .reset :: [] := by decide

/-! The invariants hold in a state whose next step changes what they speak of. -/

theorem witness_StepKeepsMemoryCanonical :
    MemoryOk (withEvents State.reset [.hostWrite 0x01000000 8 7]) ∧
    ∃ t, step (withEvents State.reset [.hostWrite 0x01000000 8 7]) = .next t ∧ t.mem ≠ [] :=
  ⟨⟨rfl, fun _ h => by cases h⟩, _, rfl, by decide +kernel⟩
theorem witness_StepKeepsReportARowOfTheTable :
    ReportOk (going 0xFF []) ∧ ∃ t, step (going 0xFF []) = .next t ∧ t.err ≠ {} :=
  ⟨.inl rfl, _, rfl, by decide +kernel⟩
theorem witness_StepKeepsCommandAndCtrlConsistent :
    CommandOk (State.reset.accept 0x00001211) ∧ CtrlOk (State.reset.accept 0x00001211) ∧
    ∃ t, step (State.reset.accept 0x00001211) = .next t :=
  ⟨⟨rfl, fun _ h => by cases h; exact ⟨rfl, rfl⟩⟩, fun _ => rfl, _, rfl⟩
theorem witness_StepKeepsTablesValid :
    readyInit.params.Legal ∧ TablesOk readyInit ∧
    ∃ t, step readyInit = .next t ∧ t.ntt.valid = true :=
  ⟨by decide +kernel, fun h => absurd h (by decide +kernel), _, rfl, by decide +kernel⟩

end Sys2Proof.Tests
end

section
/-! SUPPORT. What a command can do, once: it fails with a report, or it commits one of four kinds of
writes, in both cases after the draws it has taken (R12, R128, R240, R241). -/

namespace Sys2Proof.Machine

variable {s s' t : State}

/-- The writes of a successful command: one register, a register pair, one buffer of DMEM, or the tables
with the NTT registers. -/
inductive CommandWrites (s : State) : State → Prop
  | register (rd : Reg) (v : Nat) : CommandWrites s (s.putX rd v)
  | pair (rd : Reg) (v w : Nat) : CommandWrites s ((s.putX rd v).putX (rd + 1) w)
  | buffer (base : Nat) (vs : List Nat) : CommandWrites s (s.memWrite base vs)
  | tables (n q w : Nat) : CommandWrites s (buildTables s n q w)

/-- Writing the six tables changes the memory only (R191, R194). -/
theorem writeTables_eq (s : State) (q : Nat) (r ri : List Nat) :
    ∃ mem, s.writeTables q r ri = { s with mem := mem } :=
  ⟨(s.writeTables q r ri).mem, by simp only [State.writeTables, State.tWrite, State.writeWords]⟩

/-- Building the tables changes the memory and the NTT registers only (R191). -/
theorem buildTables_eq (s : State) (n q w : Nat) :
    ∃ mem ntt, buildTables s n q w = { s with mem := mem, ntt := ntt } := by
  obtain ⟨mem, hmem⟩ := writeTables_eq s q (buildR n w q) (buildRI n (buildR n w q) q)
  exact ⟨mem, tableRegs s.params n q w, by rw [buildTables, hmem, State.latchNtt]⟩

/-- No command writes anything but the general registers, the memories and the NTT registers. -/
theorem CommandWrites.frame (h : CommandWrites s s') :
    s' = { s with x := s'.x, mem := s'.mem, ntt := s'.ntt } := by
  cases h with
  | register rd v => rfl
  | pair rd v w => rfl
  | buffer base vs => rfl
  | tables n q w =>
    obtain ⟨mem, ntt, heq⟩ := buildTables_eq s n q w
    rw [heq]

theorem CommandWrites.params_eq (h : CommandWrites s s') : s'.params = s.params := by rw [h.frame]

theorem CommandWrites.cmd_eq (h : CommandWrites s s') : s'.cmd = s.cmd := by rw [h.frame]

theorem CommandWrites.lastop_eq (h : CommandWrites s s') : s'.lastop = s.lastop := by rw [h.frame]

theorem CommandWrites.ctrlIfma52_eq (h : CommandWrites s s') : s'.ctrlIfma52 = s.ctrlIfma52 := by
  rw [h.frame]

/-- How a command ends, after `k` draws. -/
inductive CommandOutcome (s : State) : Outcome → Prop
  | failed (k : Nat) (e : CmdError) : CommandOutcome s (.next ((s.useDraws k).fail e))
  | succeeded (k : Nat) {s' : State} (hw : CommandWrites (s.useDraws k) s') :
      CommandOutcome s (.next s'.retire)

/-- If the checks of a command pass, what it commits is one of the writes of a command. -/
def Commits (s : State) (r : Except CmdError State) : Prop := ∀ s', r = .ok s' → CommandWrites s s'

theorem Commits.ok (hw : CommandWrites s s') : Commits s (.ok s') := by
  rintro _ ⟨⟩
  exact hw

theorem Commits.error (e : CmdError) : Commits s (.error e) := by
  rintro _ ⟨⟩

/-- A check writes nothing, so only what follows it matters. -/
theorem Commits.check {c : Except CmdError Unit} {f : Unit → Except CmdError State}
    (hf : Commits s (f ())) : Commits s (c >>= f) :=
  fun s' h => hf s' ((check_bind_ok_iff c f s').1 h).2

/-- The outcome of a command that has taken `k` draws before it completes. -/
theorem Commits.outcome_after_draws {k : Nat} {r : Except CmdError State}
    (hr : Commits (s.useDraws k) r) : CommandOutcome s (complete (s.useDraws k) r) := by
  cases r with
  | ok s' => exact .succeeded k (hr s' rfl)
  | error e => exact .failed k e

/-- The outcome of a command that takes no draw. -/
theorem Commits.outcome {r : Except CmdError State} (hr : Commits s r) :
    CommandOutcome s (complete s r) :=
  Commits.outcome_after_draws (k := 0) hr

/-- The root search answers with the draws it has taken and changes nothing else (R128). -/
theorem minPrimRoot_eq (s : State) (m q : Nat) : ∃ k root, minPrimRoot s m q = (root, s.useDraws k) :=
  ⟨_, _, rfl⟩

/-- PROOT fails a check, or it searches and then fails or writes the root (R127). -/
theorem execProot_outcome (s : State) (rd rs1 : Reg) : CommandOutcome s (execProot rd rs1 s) := by
  unfold execProot
  cases prootChecks rs1 s with
  | error e => exact (Commits.error e).outcome
  | ok u =>
    obtain ⟨k, root, hsearch⟩ := minPrimRoot_eq s (s.valX rs1) s.modulus
    simp only [hsearch]
    cases root with
    | none => exact (Commits.error _).outcome_after_draws
    | some r => exact (Commits.ok (.register rd r)).outcome_after_draws

/-- NTTINIT fails a check, or it takes or searches a root and then fails or builds the tables (R191). -/
theorem execNttinit_outcome (s : State) (rs1 : Reg) (omega : Option Reg) :
    CommandOutcome s (execNttinit rs1 omega s) := by
  unfold execNttinit
  cases nttinitChecks rs1 s with
  | error e => exact (Commits.error e).outcome
  | ok u =>
    cases omega with
    | some rs2 => exact (Commits.check (.ok (.tables _ _ _))).outcome
    | none =>
      obtain ⟨k, root, hsearch⟩ := minPrimRoot_eq s (2 * s.valX rs1) s.modulus
      simp only [hsearch]
      cases root with
      | none => exact (Commits.error _).outcome_after_draws
      | some w => exact (Commits.ok (.tables _ _ w)).outcome_after_draws

/-- What any of the 17 commands can do (R120, R170, R190, R240). -/
theorem exec_outcome (i : Instr) (s : State) : CommandOutcome s (exec i s) := by
  cases i with
  | mulmod rd rs1 rs2 => exact (Commits.check (.check (.check (.ok (.register rd _))))).outcome
  | bred rd rs1 => exact (Commits.check (.ok (.register rd _))).outcome
  | powmod rd rs1 rs2 => exact (Commits.check (.ok (.register rd _))).outcome
  | invmod rd rs1 => exact (Commits.check (.check (.ok (.register rd _)))).outcome
  | prtest rd rs1 rs2 => exact (Commits.check (.ok (.register rd _))).outcome
  | proot rd rs1 => exact execProot_outcome s rd rs1
  | mulfac rd rs1 b => exact (Commits.check (.check (.ok (.register rd _)))).outcome
  | mullazy rd rs1 rs2 rs3 b =>
    exact (Commits.check (.check (.check (.check (.ok (.register rd _)))))).outcome
  | vsub rd rs1 rs2 rs4 => exact (Commits.check (.ok (.buffer _ _))).outcome
  | vsubs rd rs1 rs2 rs4 => exact (Commits.check (.ok (.buffer _ _))).outcome
  | vfma rd rs1 rs2 c rs4 =>
    cases c with
    | some rs3 => exact (Commits.check (.ok (.buffer _ _))).outcome
    | none => exact (Commits.check (.ok (.buffer _ _))).outcome
  | vmul rd rs1 rs2 rs4 => exact (Commits.check (.ok (.buffer _ _))).outcome
  | nttinit rs1 omega => exact execNttinit_outcome s rs1 omega
  | bfwd rd rs1 rs2 rs3 rs4 b =>
    exact (Commits.check (.check (.check (.check (.check (.check (.ok (.pair rd _ _)))))))).outcome
  | nttfwd rd rs1 fin fout => exact (Commits.check (.ok (.buffer _ _))).outcome
  | binv rd rs1 rs2 rs3 rs4 b =>
    exact (Commits.check (.check (.check (.check (.check (.check (.ok (.pair rd _ _)))))))).outcome
  | nttinv rd rs1 fin fout => exact (Commits.check (.ok (.buffer _ _))).outcome

/-- The engine is idle, or the command in flight has an outcome; a word the decoder rejects is a command
that fails (R97, R256). -/
theorem engineStep_cases (h : engineStep s = .next t) : t = s ∨ CommandOutcome s (.next t) := by
  unfold engineStep at h
  cases hv : s.inflight with
  | none =>
    rw [hv] at h
    cases h
    exact .inl rfl
  | some v =>
    simp only [hv] at h
    cases hd : decode v with
    | ok i =>
      rw [hd] at h
      exact .inr (h ▸ exec_outcome i s)
    | error e =>
      rw [hd] at h
      exact .inr (h ▸ (Commits.error (illegal e)).outcome)

end Sys2Proof.Machine
end

section
/-! O56: LASTOP, the command in flight and CTRL stay consistent. Only acceptance, a CTRL write and reset
touch what the invariants speak of; every other step leaves these fields, or completes the command. -/

namespace Sys2Proof.Machine

variable {s t u : State}

/-- `t` has the parameters, CMD, LASTOP and CTRL of `s`, and its command in flight either has completed or is
the one of `s`, with the report of `s`. -/
structure SameCommand (s t : State) : Prop where
  params : t.params = s.params
  cmd : t.cmd = s.cmd
  lastop : t.lastop = s.lastop
  ctrl : t.ctrlIfma52 = s.ctrlIfma52
  inflight : t.inflight = none ∨ (t.inflight = s.inflight ∧ t.err = s.err)

/-- The step from `s` to `t` keeps CommandOk, CtrlOk and the parameters. -/
def KeepsCommandAndCtrl (s t : State) : Prop :=
  CommandOk s → CtrlOk s → CommandOk t ∧ CtrlOk t ∧ t.params = s.params

theorem SameCommand.refl (s : State) : SameCommand s s := ⟨rfl, rfl, rfl, rfl, .inr ⟨rfl, rfl⟩⟩

theorem SameCommand.keeps (h : SameCommand s t) : KeepsCommandAndCtrl s t := by
  rintro ⟨hlast, hflight⟩ hctrl
  refine ⟨⟨by rw [h.lastop, h.cmd, hlast], fun v hv => ?_⟩, ?_, h.params⟩
  · rcases h.inflight with hnone | ⟨hsame, herr⟩
    · rw [hnone] at hv
      cases hv
    · rw [h.cmd, herr]
      exact hflight v (hsame ▸ hv)
  · rw [CtrlOk, h.params, h.ctrl]
    exact hctrl

theorem KeepsCommandAndCtrl.trans (hst : KeepsCommandAndCtrl s t) (htu : KeepsCommandAndCtrl t u) :
    KeepsCommandAndCtrl s u := by
  intro hcmd hctrl
  obtain ⟨hcmd', hctrl', hp⟩ := hst hcmd hctrl
  obtain ⟨hcmd'', hctrl'', hp'⟩ := htu hcmd' hctrl'
  exact ⟨hcmd'', hctrl'', hp'.trans hp⟩

/-! ### The engine -/

theorem CommandOutcome.sameCommand (h : CommandOutcome s (.next t)) : SameCommand s t := by
  cases h with
  | failed k e => exact ⟨rfl, rfl, rfl, rfl, .inl rfl⟩
  | succeeded k hw =>
    exact ⟨hw.params_eq, hw.cmd_eq, hw.lastop_eq, hw.ctrlIfma52_eq, .inl rfl⟩

theorem engineStep_keeps (h : engineStep s = .next t) : KeepsCommandAndCtrl s t := by
  rcases engineStep_cases h with rfl | hout
  · exact (SameCommand.refl t).keeps
  · exact hout.sameCommand.keeps

/-! ### The host port -/

/-- R70: acceptance makes LASTOP, CMD and the command in flight agree and clears the report. -/
theorem accept_keeps (s : State) (v : Word) : KeepsCommandAndCtrl s (s.accept v) := by
  intro _ hctrl
  refine ⟨⟨rfl, fun v' hv' => ?_⟩, hctrl, rfl⟩
  rw [State.accept_inflight] at hv'
  cases hv'
  exact ⟨rfl, rfl⟩

/-- R25: without HAS_IFMA52 a CTRL write stores 0. -/
theorem setCtrl_keeps (s : State) (v : Word) : KeepsCommandAndCtrl s (s.setCtrl v) := by
  intro hcmd _
  refine ⟨hcmd, fun hno => ?_, rfl⟩
  rw [State.setCtrl_params] at hno
  rw [State.setCtrl_ctrlIfma52, hno, Bool.false_and]

theorem setOvr_sameCommand (s : State) (b : Bool) : SameCommand s (s.setOvr b) :=
  ⟨rfl, rfl, rfl, rfl, .inr ⟨rfl, rfl⟩⟩

theorem guarded_keeps {write : State → State} (hw : KeepsCommandAndCtrl s (write s)) :
    KeepsCommandAndCtrl s (guarded s write) := by
  by_cases hidle : s.inflight = none
  · rw [guarded_idle s write hidle]
    exact hw
  · rw [guarded_busy s write hidle]
    exact (setOvr_sameCommand s true).keeps

theorem targetWrite_keeps (s : State) (v : Word) (target : Target) :
    KeepsCommandAndCtrl s (targetWrite s v target) := by
  cases target with
  | reg r =>
    cases r with
    | ctrl => exact guarded_keeps (setCtrl_keeps s v)
    | cmd => exact guarded_keeps (accept_keeps s v)
    | q => exact guarded_keeps (SameCommand.keeps ⟨rfl, rfl, rfl, rfl, .inr ⟨rfl, rfl⟩⟩)
    | status =>
      rw [targetWrite_status]
      exact (setOvr_sameCommand s _).keeps
    | id | errinfo | nttCfg | nttN | nttQ | nttOmega | nttOmegaInv | nttInvN =>
      exact guarded_keeps (SameCommand.refl s).keeps
  | gpr r => exact guarded_keeps (SameCommand.keeps ⟨rfl, rfl, rfl, rfl, .inr ⟨rfl, rfl⟩⟩)
  | dmem a => exact guarded_keeps (SameCommand.keeps ⟨rfl, rfl, rfl, rfl, .inr ⟨rfl, rfl⟩⟩)
  | tmem tb k => exact guarded_keeps (SameCommand.refl s).keeps

theorem respond_sameCommand (s : State) (r : Option Word) : SameCommand s (s.respond r) :=
  ⟨rfl, rfl, rfl, rfl, .inr ⟨rfl, rfl⟩⟩

/-- A read takes at most a draw (R39, R72). -/
theorem hostReadTarget_sameCommand (s : State) (target : Target) :
    SameCommand s (hostReadTarget s target) := by
  unfold hostReadTarget
  split
  · exact ⟨rfl, rfl, rfl, rfl, .inr ⟨rfl, rfl⟩⟩
  · exact respond_sameCommand s _

theorem hostRead_keeps {addr width : Nat} (h : hostRead s addr width = .next t) :
    KeepsCommandAndCtrl s t := by
  unfold hostRead at h
  split at h
  · cases h
  · cases h
    exact (hostReadTarget_sameCommand s _).keeps

theorem hostWrite_keeps {addr width : Nat} {v : Word} (h : hostWrite s addr width v = .next t) :
    KeepsCommandAndCtrl s t := by
  unfold hostWrite at h
  split at h
  · cases h
  · cases h
    exact (targetWrite_keeps s v _).trans (respond_sameCommand _ none).keeps

/-- R281, R282: reset clears CMD, LASTOP and CTRL, abandons the command and leaves the parameters. -/
theorem applyReset_keeps (s : State) : KeepsCommandAndCtrl s s.applyReset :=
  fun _ _ => ⟨⟨rfl, fun _ hv => nomatch hv⟩, fun _ => rfl, rfl⟩

/-! ### One step -/

theorem eventStep_keeps {e : Event} (h : eventStep s e = .next t) : KeepsCommandAndCtrl s t := by
  cases e with
  | hostRead addr width => exact hostRead_keeps h
  | hostWrite addr width v => exact hostWrite_keeps h
  | engine => exact engineStep_keeps h
  | reset =>
    cases h
    exact applyReset_keeps s

theorem setInputs_sameCommand (s : State) (es : List Event) : SameCommand s (s.setInputs es) :=
  ⟨rfl, rfl, rfl, rfl, .inr ⟨rfl, rfl⟩⟩

theorem step_keepsCommandAndCtrl (h : step s = .next t) : KeepsCommandAndCtrl s t := by
  unfold step stepBlock at h
  split at h
  · exact engineStep_keeps h
  · exact (setInputs_sameCommand s _).keeps.trans (eventStep_keeps h)

/-- Settles O56: each kind of event keeps the two invariants and the parameters. -/
theorem stepKeepsCommandAndCtrlConsistent : Obligations.StepKeepsCommandAndCtrlConsistent :=
  fun _ _ hcmd hctrl h => step_keepsCommandAndCtrl h hcmd hctrl

end Sys2Proof.Machine
end

section
/-! SUPPORT. The bit reversal of R16 permutes the numbers below 2^w. -/

namespace Sys2Proof.Machine

@[simp] theorem bitrev_zero_width (x : Nat) : bitrev x 0 = 0 := by rw [bitrev]

theorem bitrev_succ (x w : Nat) : bitrev x (w + 1) = x % 2 * 2 ^ w + bitrev (x / 2) w := by rw [bitrev]

@[simp] theorem bitrev_zero (w : Nat) : bitrev 0 w = 0 := by
  induction w with
  | zero => exact bitrev_zero_width 0
  | succ w ih => simp [bitrev_succ, ih]

theorem bitrev_lt (x w : Nat) : bitrev x w < 2 ^ w := by
  induction w generalizing x with
  | zero => simp
  | succ w ih =>
    have hlow := ih (x / 2)
    rw [bitrev_succ, pow_succ]
    rcases Nat.mod_two_eq_zero_or_one x with h | h <;> rw [h] <;> omega

theorem bitrev_injective {x y w : Nat} (hx : x < 2 ^ w) (hy : y < 2 ^ w)
    (h : bitrev x w = bitrev y w) : x = y := by
  induction w generalizing x y with
  | zero => omega
  | succ w ih =>
    rw [pow_succ] at hx hy
    rw [bitrev_succ, bitrev_succ] at h
    have hlx := bitrev_lt (x / 2) w
    have hly := bitrev_lt (y / 2) w
    rcases Nat.mod_two_eq_zero_or_one x with px | px <;>
      rcases Nat.mod_two_eq_zero_or_one y with py | py <;> rw [px, py] at h
    · have := ih (x := x / 2) (y := y / 2) (by omega) (by omega) (by omega)
      omega
    · omega
    · omega
    · have := ih (x := x / 2) (y := y / 2) (by omega) (by omega) (by omega)
      omega

theorem bitrev_surjective {k w : Nat} (hk : k < 2 ^ w) : ∃ i < 2 ^ w, bitrev i w = k := by
  induction w generalizing k with
  | zero => exact ⟨0, by simp, by simp at hk; simp [hk]⟩
  | succ w ih =>
    rw [pow_succ] at hk ⊢
    rcases Nat.lt_or_ge k (2 ^ w) with hlow | hhigh
    · obtain ⟨i, hi, hrev⟩ := ih hlow
      exact ⟨2 * i, by omega, by rw [bitrev_succ, Nat.mul_div_cancel_left i (by omega), hrev]; simp⟩
    · obtain ⟨i, hi, hrev⟩ := ih (k := k - 2 ^ w) (by omega)
      refine ⟨2 * i + 1, by omega, ?_⟩
      rw [bitrev_succ, show (2 * i + 1) % 2 = 1 by omega, show (2 * i + 1) / 2 = i by omega, hrev]
      omega

end Sys2Proof.Machine
end

section
/-! SUPPORT. What the two table builders compute: R holds the powers of the root in bit-reversed order
(R192), and RI the inverses of R, block by block (R193). -/

namespace Sys2Proof.Machine

/-! ### BuildR (R192) -/

/-- After its first `m` turns, BuildR's loop has written w^j at bitrev(j) for every j ≤ m. -/
structure PowersUpTo (bits w q m : Nat) (st : Array Nat × Nat) : Prop where
  size : st.1.size = 2 ^ bits
  last : st.2 = bitrev m bits
  powers : ∀ j ≤ m, st.1.getD (bitrev j bits) 0 = w ^ j % q

theorem powersUpTo_start {bits w q : Nat} (hq : 2 ≤ q) :
    PowersUpTo bits w q 0 ((Array.replicate (2 ^ bits) 0).setIfInBounds 0 1, 0) where
  size := by simp
  last := by simp
  powers j hj := by
    obtain rfl : j = 0 := by omega
    simp [Array.getD_eq_getD_getElem?, Nat.mod_eq_of_lt (by omega : 1 < q)]

theorem PowersUpTo.next {bits w q m : Nat} {st : Array Nat × Nat} (h : PowersUpTo bits w q m st)
    (hm : m + 1 < 2 ^ bits) : PowersUpTo bits w q (m + 1) (buildRStep bits w q st (m + 1)) where
  size := by simp [buildRStep, h.size]
  last := rfl
  powers j hj := by
    have hlt := bitrev_lt (m + 1) bits
    simp only [buildRStep, Array.getD_eq_getD_getElem?, Array.getElem?_setIfInBounds]
    by_cases hjm : j = m + 1
    · subst hjm
      have hprev := h.powers m le_rfl
      rw [← h.last, Array.getD_eq_getD_getElem?] at hprev
      rw [if_pos rfl, if_pos (by rw [h.size]; exact hlt), hprev, Option.getD_some, pow_succ,
        Nat.mod_mul_mod]
    · have hne : bitrev (m + 1) bits ≠ bitrev j bits := fun heq =>
        hjm (bitrev_injective hm (by omega) heq).symm
      rw [if_neg hne, ← Array.getD_eq_getD_getElem?]
      exact h.powers j (by omega)

theorem powersUpTo_foldl {bits w q m : Nat} (hq : 2 ≤ q) (hm : m < 2 ^ bits) :
    PowersUpTo bits w q m ((List.range' 1 m).foldl (buildRStep bits w q)
      ((Array.replicate (2 ^ bits) 0).setIfInBounds 0 1, 0)) := by
  induction m with
  | zero => exact powersUpTo_start hq
  | succ m ih =>
    rw [List.range'_1_concat, List.foldl_append, Nat.add_comm 1 m]
    exact (ih (by omega)).next hm

theorem buildR_powers {bits w q : Nat} (hq : 2 ≤ q) :
    PowersUpTo bits w q (2 ^ bits - 1) ((List.range' 1 (2 ^ bits - 1)).foldl (buildRStep bits w q)
      ((Array.replicate (2 ^ bits) 0).setIfInBounds 0 1, 0)) :=
  powersUpTo_foldl hq (by have := Nat.two_pow_pos bits; omega)

theorem buildR_length {bits w q : Nat} (hq : 2 ≤ q) : (buildR (2 ^ bits) w q).length = 2 ^ bits := by
  rw [buildR, Nat.log2_two_pow, Array.length_toList]
  exact (buildR_powers hq).size

theorem buildR_bitrev {bits w q i : Nat} (hq : 2 ≤ q) (hi : i < 2 ^ bits) :
    (buildR (2 ^ bits) w q).getD (bitrev i bits) 0 = w ^ i % q := by
  have := (buildR_powers (bits := bits) (w := w) hq).powers i (by omega)
  rw [Array.getD_eq_getD_getElem?] at this
  rw [buildR, Nat.log2_two_pow, List.getD_eq_getElem?_getD, Array.getElem?_toList, this]

/-- Every entry of R is a power of the root. -/
theorem mem_buildR {bits w q v : Nat} (hq : 2 ≤ q) (hv : v ∈ buildR (2 ^ bits) w q) :
    ∃ i, v = w ^ i % q := by
  obtain ⟨k, hk, rfl⟩ := List.getElem_of_mem hv
  obtain ⟨i, hi, rfl⟩ := bitrev_surjective (buildR_length (w := w) hq ▸ hk)
  exact ⟨i, by rw [← buildR_bitrev hq hi, List.getD_eq_getElem _ _ hk]⟩

/-! ### BuildRI (R193) -/

theorem riBlocks_step (rinv : List Nat) (l : Nat) :
    riBlocks rinv (l + 1) (2 ^ (l + 1) / 2) =
      (rinv.drop (2 ^ l)).take (2 ^ l) ++ riBlocks rinv l (2 ^ l / 2) := by
  rw [show 2 ^ (l + 1) / 2 = 2 ^ l by omega, riBlocks]

theorem riBlocks_length {rinv : List Nat} {l : Nat} (h : 2 ^ l ≤ rinv.length) :
    (riBlocks rinv l (2 ^ l / 2)).length = 2 ^ l - 1 := by
  induction l with
  | zero => rfl
  | succ l ih =>
    rw [pow_succ] at h
    rw [riBlocks_step, List.length_append, ih (by omega), List.length_take, List.length_drop, pow_succ]
    omega

/-- Block 2^j of R⁻¹ stands in the blocks from 2^l − 2·2^j on. -/
theorem riBlocks_getElem? {rinv : List Nat} {l j i : Nat} (h : 2 ^ l ≤ rinv.length) (hj : j < l)
    (hi : i < 2 ^ j) : (riBlocks rinv l (2 ^ l / 2))[2 ^ l - 2 * 2 ^ j + i]? = rinv[2 ^ j + i]? := by
  induction l with
  | zero => omega
  | succ l ih =>
    rw [pow_succ] at h
    have hlen : ((rinv.drop (2 ^ l)).take (2 ^ l)).length = 2 ^ l := by
      rw [List.length_take, List.length_drop]
      omega
    rw [riBlocks_step]
    rcases Nat.lt_succ_iff_lt_or_eq.mp hj with hlt | rfl
    · have hle : 2 * 2 ^ j ≤ 2 ^ l := by
        rw [← pow_succ']
        exact Nat.pow_le_pow_right (by omega) hlt
      have hpow := pow_succ 2 l
      rw [List.getElem?_append_right (by omega), hlen, ← ih (by omega) hlt]
      congr 1
      omega
    · rw [show 2 ^ (j + 1) - 2 * 2 ^ j + i = i by rw [pow_succ]; omega,
        List.getElem?_append_left (by omega), List.getElem?_take_of_lt hi, List.getElem?_drop]

theorem mem_riBlocks {rinv : List Nat} {l m v : Nat} (hv : v ∈ riBlocks rinv l m) : v ∈ rinv := by
  induction l generalizing m with
  | zero => exact absurd hv List.not_mem_nil
  | succ l ih =>
    rw [riBlocks] at hv
    rcases List.mem_append.mp hv with hblock | hrest
    · exact List.mem_of_mem_drop (List.mem_of_mem_take hblock)
    · exact ih hrest

theorem buildRI_length {bits : Nat} {r : List Nat} (q : Nat) (h : r.length = 2 ^ bits) :
    (buildRI (2 ^ bits) r q).length = 2 ^ bits := by
  have hpos := Nat.two_pow_pos bits
  rw [buildRI, Nat.log2_two_pow, List.length_append, riBlocks_length (by simp [h]), List.length_take,
    List.length_map]
  omega

/-- Every entry of RI is the inverse of an entry of R. -/
theorem mem_buildRI {n q v : Nat} {r : List Nat} (hv : v ∈ buildRI n r q) : ∃ a ∈ r, v = invMod a q := by
  have hmem : v ∈ r.map fun a => invMod a q := by
    rcases List.mem_append.mp hv with hfirst | hblocks
    · exact List.mem_of_mem_take hfirst
    · exact mem_riBlocks hblocks
  obtain ⟨a, ha, heq⟩ := List.mem_map.mp hmem
  exact ⟨a, ha, heq.symm⟩

theorem buildRI_first {bits : Nat} {r : List Nat} (q : Nat) (h : r.length = 2 ^ bits) :
    (buildRI (2 ^ bits) r q).getD 0 0 = invMod (r.getD 0 0) q := by
  cases r with
  | nil => exact absurd h.symm (Nat.two_pow_pos bits).ne'
  | cons a r => rfl

theorem buildRI_block {bits : Nat} {r : List Nat} (q : Nat) {j i : Nat} (h : r.length = 2 ^ bits)
    (hj : j < bits) (hi : i < 2 ^ j) :
    (buildRI (2 ^ bits) r q).getD (2 ^ bits - 2 * 2 ^ j + 1 + i) 0 = invMod (r.getD (2 ^ j + i) 0) q := by
  have hpos := Nat.two_pow_pos bits
  have hle : 2 * 2 ^ j ≤ 2 ^ bits := by
    rw [← pow_succ']
    exact Nat.pow_le_pow_right (by omega) hj
  have hlen : ((r.map fun v => invMod v q).take 1).length = 1 := by
    rw [List.length_take, List.length_map]
    omega
  rw [buildRI, Nat.log2_two_pow, List.getD_eq_getElem?_getD, List.getElem?_append_right (by omega), hlen,
    show 2 ^ bits - 2 * 2 ^ j + 1 + i - 1 = 2 ^ bits - 2 * 2 ^ j + i by omega,
    riBlocks_getElem? (by simp [h]) hj hi, List.getElem?_map, List.getD_eq_getElem?_getD,
    List.getElem?_eq_getElem (by omega : 2 ^ j + i < r.length)]
  rfl

end Sys2Proof.Machine
end

section
/-! SUPPORT. The root search answers with a primitive root (R128), so the parameters that NTTINIT accepts
determine tables, searched or supplied (R191). -/

namespace Sys2Proof.Machine

/-- A degree, a prime modulus and a primitive 2n-th root as NTTINIT accepts them (R191). -/
structure TableParams (p : Params) (n q w : Nat) : Prop where
  two_le_degree : 2 ≤ n
  degree_le : n ≤ p.nmax
  isPow2 : isPow2 n = true
  prime : q.Prime
  lt_limit : q < 2 ^ 62
  order_dvd : (q - 1) % (2 * n) = 0
  root_lt : w < q
  root_pow : w ^ n % q = q - 1

/-- r is below q and its e-th power is −1 modulo q. -/
def RootOfNegOne (q e r : Nat) : Prop := r < q ∧ r ^ e % q = q - 1

/-- (−1)² = 1 modulo q. -/
theorem sq_pred_mod {q : Nat} (hq : 2 ≤ q) : (q - 1) * (q - 1) % q = 1 := by
  obtain ⟨m, rfl⟩ : ∃ m, q = m + 2 := ⟨q - 2, by omega⟩
  rw [show (m + 2 - 1) * (m + 2 - 1) = 1 + (m + 2) * m by
    rw [show m + 2 - 1 = m + 1 by omega]; ring, Nat.add_mul_mod_self_left, Nat.mod_eq_of_lt (by omega)]

theorem RootOfNegOne.sq_pow {q e r : Nat} (hq : 2 ≤ q) (h : RootOfNegOne q e r) :
    (r * r % q) ^ e % q = 1 := by
  rw [← Nat.pow_mod, Nat.mul_pow, Nat.mul_mod, h.2, sq_pred_mod hq]

theorem RootOfNegOne.mul {q e r g : Nat} (h : RootOfNegOne q e r) (hg : g ^ e % q = 1) :
    RootOfNegOne q e (r * g % q) := by
  obtain ⟨hlt, hpow⟩ := h
  refine ⟨Nat.mod_lt _ (by omega), ?_⟩
  rw [← Nat.pow_mod, Nat.mul_pow, Nat.mul_mod, hpow, hg, Nat.mul_one, Nat.mod_eq_of_lt (by omega)]

/-- The least odd power of a root of −1 is one too (R128). -/
theorem leastOddPower_root {q e g2 count cur best : Nat} (hg2 : g2 ^ e % q = 1)
    (hcur : RootOfNegOne q e cur) (hbest : RootOfNegOne q e best) :
    RootOfNegOne q e (leastOddPower q g2 count cur best) := by
  induction count generalizing cur best with
  | zero => exact hbest
  | succ count ih =>
    have hnext := hcur.mul hg2
    rw [leastOddPower]
    refine ih hnext ?_
    rcases Nat.le_total best (cur * g2 % q) with hle | hle
    · rwa [Nat.min_eq_left hle]
    · rwa [Nat.min_eq_right hle]

theorem rootSearch_root {draw : Nat → Word} {m q attempts k k' r : Nat} (hq : 2 ≤ q) (hq64 : q < 2 ^ 64)
    (hm : m < 2 ^ 65) (h : rootSearch draw m q attempts k = (some r, k')) : RootOfNegOne q (m / 2) r := by
  rcases rootSearch_cases draw m q attempts k with ⟨j, -, hhit, -, hfound⟩ | ⟨-, hmiss⟩
  · have hexp : (q - 1) / m < 2 ^ 64 := (Nat.div_le_self _ _).trans_lt (by omega)
    have hroot : RootOfNegOne q (m / 2) (candidate draw m q (k + j)) :=
      ⟨powMod_lt _ _ _ hq hexp, (isPrimRoot_iff _ _ _ hq hm).1 hhit⟩
    rw [hfound, Prod.mk.injEq, Option.some.injEq] at h
    rw [← h.1]
    exact leastOddPower_root (hroot.sq_pow hq) hroot hroot
  · rw [hmiss] at h
    cases h

variable {s u : State}

/-- When the checks of NTTINIT before ω pass (R191). -/
theorem nttinitChecks_ok_iff (rs1 : Reg) (s : State) (v : Unit) :
    nttinitChecks rs1 s = .ok v ↔ (2 ≤ s.modulus ∧ s.modulus < 2 ^ 62) ∧
      (2 ≤ s.valX rs1 ∧ s.valX rs1 ≤ s.params.nmax ∧ isPow2 (s.valX rs1) = true) ∧
      s.modulus.Prime ∧ (s.modulus - 1) % (2 * s.valX rs1) = 0 := by
  simp only [nttinitChecks, check_bind_ok_iff, checkQ_ok_iff, require_ok_iff, decide_eq_true_eq,
    isPrime_iff]

/-- With these checks passed, a root of x^n = −1 completes the parameters. -/
theorem tableParams_of_checks {rs1 : Reg} {w : Nat} (h : nttinitChecks rs1 s = .ok ())
    (hw : RootOfNegOne s.modulus (s.valX rs1) w) : TableParams s.params (s.valX rs1) s.modulus w := by
  obtain ⟨⟨-, hlt⟩, ⟨htwo, hmax, hpow⟩, hprime, horder⟩ := (nttinitChecks_ok_iff rs1 s ()).1 h
  exact ⟨htwo, hmax, hpow, hprime, hlt, horder, hw.1, hw.2⟩

/-- The supplied root, when its check passes. -/
theorem rootOfNegOne_of_supplied {n q w : Nat} {c : Cause} {i : Nat} {v : Unit} (hq : 2 ≤ q)
    (hn : n < 2 ^ 64) (h : require (w < q ∧ isPrimRoot w (2 * n) q) c i = .ok v) :
    RootOfNegOne q n w := by
  obtain ⟨hlt, hroot⟩ := of_decide_eq_true ((require_ok_iff _ _ _ _).1 h)
  rw [isPrimRoot_iff w (2 * n) q hq (by omega), Nat.mul_div_cancel_left n (by omega)] at hroot
  exact ⟨hlt, hroot⟩

/-- The searched root, when the search finds one. -/
theorem rootOfNegOne_of_search {n q w : Nat} (hq : 2 ≤ q) (hq64 : q < 2 ^ 64) (hn : n < 2 ^ 64)
    (h : minPrimRoot s (2 * n) q = (some w, u)) : RootOfNegOne q n w := by
  have hsearch : (rootSearch s.drawAt (2 * n) q s.params.prootMaxAttempts 0).1 = some w :=
    congrArg Prod.fst h
  have := rootSearch_root hq hq64 (by omega) (Prod.ext hsearch rfl)
  rwa [Nat.mul_div_cancel_left n (by omega)] at this

end Sys2Proof.Machine
end

section
/-! SUPPORT. What each of the 17 commands may commit, within the bounds its checks leave; the shared
`CommandWrites` says only that it is one of the four kinds of writes. -/

namespace Sys2Proof.Machine

variable {s s' t : State}

/-- Where a command writes: its destination register, its register pair, one buffer of DMEM, or TMEM
together with the NTT registers (R96, R120, R170, R191). -/
inductive WriteKind where
  | register (rd : Reg)
  | pair (rd : Reg)
  | buffer
  | tables

/-- Where each of the 17 commands writes. -/
def writeKind : Instr → WriteKind
  | .mulmod rd _ _ | .bred rd _ | .powmod rd _ _ | .invmod rd _ | .prtest rd _ _ | .proot rd _
  | .mulfac rd _ _ | .mullazy rd _ _ _ _ => .register rd
  | .bfwd rd _ _ _ _ _ | .binv rd _ _ _ _ _ => .pair rd
  | .vsub _ _ _ _ | .vsubs _ _ _ _ | .vfma _ _ _ _ _ | .vmul _ _ _ _ | .nttfwd _ _ _ _
  | .nttinv _ _ _ _ => .buffer
  | .nttinit _ _ => .tables

/-- What a successful command commits: a buffer lies in DMEM and tables have accepted parameters (R67,
R191). -/
inductive MayCommit (s : State) : WriteKind → State → Prop
  | register (rd : Reg) (v : Nat) : MayCommit s (.register rd) (s.putX rd v)
  | pair (rd : Reg) (v w : Nat) : MayCommit s (.pair rd) ((s.putX rd v).putX (rd + 1) w)
  | buffer (base : Nat) (vs : List Nat) (hfit : base + vs.length ≤ s.params.dmemWords) :
      MayCommit s .buffer (s.memWrite base vs)
  | tables (n q w : Nat) (hparams : TableParams s.params n q w) :
      MayCommit s .tables (buildTables s n q w)

/-- How a command ends in `t`: after some draws it fails with a report, or it commits what it may. -/
def EndsIn (kind : WriteKind) (s t : State) : Prop :=
  ∃ k, (∃ e, t = (s.useDraws k).fail e) ∨ ∃ s', MayCommit (s.useDraws k) kind s' ∧ t = s'.retire

variable {kind : WriteKind}

/-- If the checks of a command pass, it commits what it may. -/
def PassesTo (kind : WriteKind) (s : State) (r : Except CmdError State) : Prop :=
  ∀ s', r = .ok s' → MayCommit s kind s'

theorem PassesTo.ok (h : MayCommit s kind s') : PassesTo kind s (.ok s') := by
  rintro _ ⟨⟩
  exact h

/-- What follows a check may assume that the check passed. -/
theorem PassesTo.check {c : Except CmdError Unit} {f : Unit → Except CmdError State}
    (hf : c = .ok () → PassesTo kind s (f ())) : PassesTo kind s (c >>= f) := by
  intro s' h
  obtain ⟨hc, hok⟩ := (check_bind_ok_iff c f s').1 h
  exact hf hc s' hok

theorem endsIn_after_draws {k : Nat} {r : Except CmdError State}
    (h : complete (s.useDraws k) r = .next t) (hr : PassesTo kind (s.useDraws k) r) : EndsIn kind s t := by
  rcases complete_cases h with ⟨s', hok, rfl⟩ | ⟨e, -, rfl⟩
  · exact ⟨k, .inr ⟨s', hr s' hok, rfl⟩⟩
  · exact ⟨k, .inl ⟨e, rfl⟩⟩

theorem endsIn {r : Except CmdError State} (h : complete s r = .next t) (hr : PassesTo kind s r) :
    EndsIn kind s t :=
  endsIn_after_draws (k := 0) h hr

theorem failed_endsIn {k : Nat} {e : CmdError} (h : complete (s.useDraws k) (.error e) = .next t) :
    EndsIn kind s t :=
  endsIn_after_draws h fun _ hok => nomatch hok

/-- A vector command's checks leave its destination in DMEM (R170). -/
theorem vecChecks_passesTo {rd : Reg} {bufs scalars : List Reg} {elems : List (Cause × Reg)} {len : Nat}
    {out : Nat → Nat} :
    PassesTo .buffer s (do
      vecChecks s (rd :: bufs) scalars elems len
      .ok (vecWrite s rd len out)) := by
  refine .check fun hchecks => .ok (.buffer _ _ ?_)
  obtain ⟨-, hfit, -⟩ := (vecChecks_ok_iff _ _ _ _ _ _).1 hchecks
  simpa using hfit rd List.mem_cons_self

theorem buffer_length (s : State) (r : Reg) (len : Nat) : (buffer s r len).length = len := by
  rw [buffer, List.length_map, List.length_range]

/-- A transform's checks leave its destination in DMEM (R199, R204). -/
theorem transformChecks_passesTo {rd rs1 : Reg} {fin : Nat} {vs : List Nat}
    (hlen : vs.length ≤ (buffer s rs1 s.ntt.n.toNat).length) :
    PassesTo .buffer s (do
      transformChecks s rd rs1 fin
      .ok (s.memWrite (s.valX rd) vs)) := by
  refine .check fun hchecks => .ok (.buffer _ _ ?_)
  obtain ⟨-, ⟨hfit, -⟩, -⟩ := (transformChecks_ok_iff _ _ _ _ _).1 hchecks
  rw [buffer_length] at hlen
  omega

theorem execProot_endsIn {rd rs1 : Reg} (h : execProot rd rs1 s = .next t) :
    EndsIn (.register rd) s t := by
  unfold execProot at h
  cases hchecks : prootChecks rs1 s with
  | error e =>
    rw [hchecks] at h
    exact failed_endsIn (k := 0) h
  | ok u =>
    obtain ⟨k, root, hsearch⟩ := minPrimRoot_eq s (s.valX rs1) s.modulus
    simp only [hchecks, hsearch] at h
    cases root with
    | none => exact failed_endsIn h
    | some r => exact endsIn_after_draws h (.ok (.register rd r))

theorem execNttinit_endsIn {rs1 : Reg} {omega : Option Reg} (h : execNttinit rs1 omega s = .next t) :
    EndsIn .tables s t := by
  unfold execNttinit at h
  cases hchecks : nttinitChecks rs1 s with
  | error e =>
    rw [hchecks] at h
    exact failed_endsIn (k := 0) h
  | ok u =>
    obtain ⟨⟨hq, -⟩, -⟩ := (nttinitChecks_ok_iff rs1 s u).1 hchecks
    simp only [hchecks] at h
    cases omega with
    | some rs2 =>
      refine endsIn h (.check fun hroot => .ok (.tables _ _ _ ?_))
      exact tableParams_of_checks hchecks (rootOfNegOne_of_supplied hq (s.valX_lt rs1) hroot)
    | none =>
      obtain ⟨k, root, hsearch⟩ := minPrimRoot_eq s (2 * s.valX rs1) s.modulus
      simp only [hsearch] at h
      cases root with
      | none => exact failed_endsIn h
      | some w =>
        refine endsIn_after_draws h (.ok (.tables _ _ _ ?_))
        exact tableParams_of_checks hchecks
          (rootOfNegOne_of_search hq s.modulus_lt (s.valX_lt rs1) hsearch)

/-- How each of the 17 commands ends (R12, R120, R170, R190, R240). -/
theorem exec_endsIn {i : Instr} (h : exec i s = .next t) : EndsIn (writeKind i) s t := by
  cases i with
  | mulmod rd rs1 rs2 =>
    exact endsIn h (.check fun _ => .check fun _ => .check fun _ => .ok (.register rd _))
  | bred rd rs1 | powmod rd rs1 rs2 | prtest rd rs1 rs2 =>
    exact endsIn h (.check fun _ => .ok (.register rd _))
  | invmod rd rs1 | mulfac rd rs1 b => exact endsIn h (.check fun _ => .check fun _ => .ok (.register rd _))
  | proot rd rs1 => exact execProot_endsIn h
  | mullazy rd rs1 rs2 rs3 b =>
    exact endsIn h (.check fun _ => .check fun _ => .check fun _ => .check fun _ => .ok (.register rd _))
  | vsub rd rs1 rs2 rs4 | vsubs rd rs1 rs2 rs4 | vmul rd rs1 rs2 rs4 => exact endsIn h vecChecks_passesTo
  | vfma rd rs1 rs2 c rs4 =>
    cases c with
    | some rs3 => exact endsIn h vecChecks_passesTo
    | none => exact endsIn h vecChecks_passesTo
  | nttinit rs1 omega => exact execNttinit_endsIn h
  | bfwd rd rs1 rs2 rs3 rs4 b | binv rd rs1 rs2 rs3 rs4 b =>
    exact endsIn h (.check fun _ => .check fun _ => .check fun _ => .check fun _ =>
      .check fun _ => .check fun _ => .ok (.pair rd _ _))
  | nttfwd rd rs1 fin fout =>
    exact endsIn h (transformChecks_passesTo (forwardNTT_length_le _ _ _ _ _ _ _))
  | nttinv rd rs1 fin fout =>
    exact endsIn h (transformChecks_passesTo (inverseNTT_length_le _ _ _ _ _ _ _ _))

end Sys2Proof.Machine
end

section
/-! SUPPORT. What NTTINIT leaves in TMEM and the NTT registers: the tables of its parameters (R191 to
R195). -/

namespace Sys2Proof.Machine

variable {p : Params} {n q w : Nat}

/-! ### What accepted parameters imply -/

theorem nmax_le_of_legal (h : p.Legal) : p.nmax ≤ 2 ^ 20 :=
  Nat.pow_le_pow_right (by omega) h.2.1

theorem TableParams.exists_bits (h : TableParams p n q w) : ∃ bits, n = 2 ^ bits :=
  (isPow2_iff n).1 h.isPow2

/-- n divides q − 1, so it is below q. -/
theorem TableParams.degree_lt (h : TableParams p n q w) : n < q := by
  have hq := h.prime.two_le
  have := Nat.le_of_dvd (by omega) (Nat.dvd_of_mod_eq_zero h.order_dvd)
  have := h.two_le_degree
  omega

theorem TableParams.degree_coprime (h : TableParams p n q w) : Nat.Coprime n q :=
  (Nat.coprime_of_lt_prime (by have := h.two_le_degree; omega) h.degree_lt h.prime).symm

/-- A root of −1 is not 0 modulo q. -/
theorem TableParams.root_coprime (h : TableParams p n q w) : Nat.Coprime w q := by
  refine ((h.prime.coprime_iff_not_dvd).2 fun hdvd => ?_).symm
  have hzero : w ^ n % q = 0 :=
    Nat.mod_eq_zero_of_dvd (hdvd.trans (dvd_pow_self w (by have := h.two_le_degree; omega)))
  have := h.prime.two_le
  have := h.root_pow
  omega

/-- InvMod of a unit is below q and its inverse (R18). -/
theorem invMod_of_coprime {a : Nat} (hq : 2 ≤ q) (ha : Nat.Coprime a q) :
    invMod a q < q ∧ a * invMod a q % q = 1 := by
  have hgcd : Nat.gcd (a % q) q = 1 := by rwa [← Nat.gcd_rec, Nat.gcd_comm]
  exact (invMod_spec a q hq hgcd).2

theorem invMod_one (hq : 2 ≤ q) : invMod 1 q = 1 := by
  obtain ⟨hlt, hmul⟩ := invMod_of_coprime hq (Nat.coprime_one_left q)
  rwa [Nat.one_mul, Nat.mod_eq_of_lt hlt] at hmul

/-- A factor of a residue is a u64 at both widths (R194). -/
theorem fac_lt {v : Nat} (b : Width) (hv : v < q) : fac v b q < 2 ^ 64 := by
  have hwidth : 2 ^ widthBits b ≤ 2 ^ 64 := by
    cases b with
    | b64 => exact le_rfl
    | b52 => exact Nat.pow_le_pow_right (by omega) (by decide)
  have hpos := Nat.two_pow_pos (widthBits b)
  refine lt_of_lt_of_le ((Nat.div_lt_iff_lt_mul (by omega)).2 ?_) hwidth
  rw [Nat.mul_comm v]
  exact Nat.mul_lt_mul_of_pos_left hv hpos

/-! ### The two tables of accepted parameters -/

theorem TableParams.buildR_length (h : TableParams p n q w) : (buildR n w q).length = n := by
  obtain ⟨bits, rfl⟩ := h.exists_bits
  exact Machine.buildR_length h.prime.two_le

theorem TableParams.buildRI_length (h : TableParams p n q w) :
    (buildRI n (buildR n w q) q).length = n := by
  have hlen := h.buildR_length
  obtain ⟨bits, rfl⟩ := h.exists_bits
  exact Machine.buildRI_length q hlen

/-- Entries of R are units below q. -/
theorem TableParams.mem_buildR (h : TableParams p n q w) {v : Nat} (hv : v ∈ buildR n w q) :
    v < q ∧ Nat.Coprime v q := by
  obtain ⟨bits, rfl⟩ := h.exists_bits
  obtain ⟨i, rfl⟩ := Machine.mem_buildR h.prime.two_le hv
  refine ⟨Nat.mod_lt _ h.prime.pos, ?_⟩
  rw [Nat.Coprime, ← Nat.gcd_rec, Nat.gcd_comm]
  exact h.root_coprime.pow_left i

theorem TableParams.mem_buildRI (h : TableParams p n q w) {v : Nat}
    (hv : v ∈ buildRI n (buildR n w q) q) : v < q := by
  obtain ⟨a, ha, rfl⟩ := Machine.mem_buildRI hv
  exact (invMod_of_coprime h.prime.two_le (h.mem_buildR ha).2).1

/-! ### The six tables in TMEM -/

/-- The table with index `tb` as NTTINIT writes it (R66, R191, R194). -/
def tableOf (q : Nat) (r ri : List Nat) : Nat → List Nat
  | 0 => r
  | 1 => ri
  | 2 => shadow q .b64 r
  | 3 => shadow q .b52 r
  | 4 => shadow q .b64 ri
  | _ => shadow q .b52 ri

theorem shadow_getD {b : Width} {table : List Nat} {k : Nat} (hk : k < table.length) :
    (shadow q b table).getD k 0 = fac (table.getD k 0) b q := by
  rw [shadow, List.getD_eq_getElem _ _ (by simpa using hk), List.getElem_map, List.getD_eq_getElem _ _ hk]

@[simp] theorem shadow_length (b : Width) (table : List Nat) : (shadow q b table).length = table.length :=
  List.length_map _

theorem State.tRead_tWrite (s : State) {t t' : Nat} {vs : List Nat} {k : Nat} (hk : k < vs.length)
    (hlen : vs.length ≤ 2 ^ 20) :
    (s.tWrite t vs).tRead t' k = if t' = t then vs.getD k 0 % 2 ^ 64 else s.tRead t' k := by
  by_cases h : t' = t
  · subst h
    rw [if_pos rfl, State.tRead_tWrite_same s _ _ hk, List.getD_eq_getElem _ _ hk]
  · rw [if_neg h, State.tRead_tWrite_other s vs (by omega) hlen (.inl (Ne.symm h))]

theorem State.tRead_writeTables (s : State) {r ri : List Nat} {tb k : Nat} (htb : tb < 6)
    (hr : k < r.length) (hri : k < ri.length) (hrlen : r.length ≤ 2 ^ 20) (hrilen : ri.length ≤ 2 ^ 20) :
    (s.writeTables q r ri).tRead tb k = (tableOf q r ri tb).getD k 0 % 2 ^ 64 := by
  rw [State.writeTables, State.tRead_tWrite _ (by simpa using hri) (by simpa using hrilen),
    State.tRead_tWrite _ (by simpa using hri) (by simpa using hrilen),
    State.tRead_tWrite _ (by simpa using hr) (by simpa using hrlen),
    State.tRead_tWrite _ (by simpa using hr) (by simpa using hrlen),
    State.tRead_tWrite _ hri hrilen, State.tRead_tWrite _ hr hrlen]
  interval_cases tb <;> rfl

theorem tableOf_getD_lt {r ri : List Nat} {tb k : Nat} (htb : tb < 6) (hr : k < r.length)
    (hri : k < ri.length) (hrv : r.getD k 0 < q) (hriv : ri.getD k 0 < q) (hq : q < 2 ^ 62) :
    (tableOf q r ri tb).getD k 0 < 2 ^ 64 := by
  interval_cases tb
  · exact hrv.trans (by omega)
  · exact hriv.trans (by omega)
  all_goals
    change (shadow q _ _).getD k 0 < 2 ^ 64
    rw [shadow_getD (by assumption)]
    exact fac_lt _ (by assumption)

@[simp] theorem State.tRead_latchNtt (s : State) (regs : NttRegs) (tb k : Nat) :
    (s.latchNtt regs).tRead tb k = s.tRead tb k := rfl

/-- What TMEM holds after NTTINIT; no entry is truncated. -/
theorem TableParams.tRead_buildTables (h : TableParams p n q w) (hn : n ≤ 2 ^ 20) (s : State) {tb k : Nat}
    (htb : tb < 6) (hk : k < n) :
    (buildTables s n q w).tRead tb k =
      (tableOf q (buildR n w q) (buildRI n (buildR n w q) q) tb).getD k 0 := by
  have hr : k < (buildR n w q).length := by rwa [h.buildR_length]
  have hri : k < (buildRI n (buildR n w q) q).length := by rwa [h.buildRI_length]
  have hrv : (buildR n w q).getD k 0 < q := by
    rw [List.getD_eq_getElem _ _ hr]
    exact (h.mem_buildR (List.getElem_mem _)).1
  have hriv : (buildRI n (buildR n w q) q).getD k 0 < q := by
    rw [List.getD_eq_getElem _ _ hri]
    exact h.mem_buildRI (List.getElem_mem _)
  rw [buildTables, State.tRead_latchNtt, State.tRead_writeTables s htb hr hri
    (by rwa [h.buildR_length]) (by rwa [h.buildRI_length])]
  exact Nat.mod_eq_of_lt (tableOf_getD_lt htb hr hri hrv hriv h.lt_limit)

/-! ### The tables hold -/

section
variable {s : State} (h : TableParams s.params n q w) (hn : n ≤ 2 ^ 20)
include h hn

theorem buildTables_powers {i : Nat} (hi : i < n) :
    (buildTables s n q w).tRead 0 (bitrev i (Nat.log2 n)) = w ^ i % q := by
  obtain ⟨bits, rfl⟩ := h.exists_bits
  rw [Nat.log2_two_pow, h.tRead_buildTables hn s (by omega) (bitrev_lt i bits)]
  exact buildR_bitrev h.prime.two_le hi

theorem buildTables_inverses_first : (buildTables s n q w).tRead 1 0 = 1 := by
  have hlen := h.buildR_length
  have hq := h.prime.two_le
  have hpos : 0 < n := by have := h.two_le_degree; omega
  rw [h.tRead_buildTables hn s (by omega) hpos]
  obtain ⟨bits, rfl⟩ := h.exists_bits
  have hfirst := buildR_bitrev (w := w) hq hpos
  rw [bitrev_zero, pow_zero, Nat.mod_eq_of_lt (by omega)] at hfirst
  rw [tableOf, buildRI_first q hlen, hfirst, invMod_one hq]

theorem buildTables_inverses {j i : Nat} (hj : j < Nat.log2 n) (hi : i < 2 ^ j) :
    (buildTables s n q w).tRead 1 (n - 2 * 2 ^ j + 1 + i) < q ∧
    (buildTables s n q w).tRead 1 (n - 2 * 2 ^ j + 1 + i) *
      (buildTables s n q w).tRead 0 (2 ^ j + i) % q = 1 := by
  have hlen := h.buildR_length
  have hread := fun {tb k} => h.tRead_buildTables hn s (tb := tb) (k := k)
  obtain ⟨bits, rfl⟩ := h.exists_bits
  rw [Nat.log2_two_pow] at hj
  have hle : 2 * 2 ^ j ≤ 2 ^ bits := by
    rw [← pow_succ']
    exact Nat.pow_le_pow_right (by omega) hj
  have hk : 2 ^ j + i < (buildR (2 ^ bits) w q).length := by omega
  have hunit : Nat.Coprime ((buildR (2 ^ bits) w q).getD (2 ^ j + i) 0) q := by
    rw [List.getD_eq_getElem _ _ hk]
    exact (h.mem_buildR (List.getElem_mem _)).2
  rw [hread (by omega) (by omega), hread (by omega) (by omega), tableOf, tableOf,
    buildRI_block q hlen hj hi, Nat.mul_comm]
  exact invMod_of_coprime h.prime.two_le hunit

theorem buildTables_factors {k : Nat} (hk : k < n) :
    (buildTables s n q w).tRead 2 k = (buildTables s n q w).tRead 0 k * 2 ^ 64 / q ∧
    (buildTables s n q w).tRead 3 k = (buildTables s n q w).tRead 0 k * 2 ^ 52 / q ∧
    (buildTables s n q w).tRead 4 k = (buildTables s n q w).tRead 1 k * 2 ^ 64 / q ∧
    (buildTables s n q w).tRead 5 k = (buildTables s n q w).tRead 1 k * 2 ^ 52 / q := by
  have hread := fun {tb} htb => h.tRead_buildTables hn s (tb := tb) htb hk
  have hr := h.buildR_length
  have hri := h.buildRI_length
  simp only [hread (tb := 0) (by omega), hread (tb := 1) (by omega), hread (tb := 2) (by omega),
    hread (tb := 3) (by omega), hread (tb := 4) (by omega), hread (tb := 5) (by omega), tableOf]
  rw [shadow_getD (by omega), shadow_getD (by omega), shadow_getD (by omega), shadow_getD (by omega)]
  exact ⟨rfl, rfl, rfl, rfl⟩

/-- NTTINIT builds the tables of its parameters (R191 to R195). -/
theorem buildTables_hold : TablesHold (buildTables s n q w) n q w := by
  have hq := h.prime.two_le
  have hlimit := h.lt_limit
  obtain ⟨homega, homegaMul⟩ := invMod_of_coprime hq h.root_coprime
  obtain ⟨hinvN, hinvNMul⟩ := invMod_of_coprime hq h.degree_coprime
  have homegaReg : (buildTables s n q w).ntt.omegaInv.toNat = invMod w q := by
    rw [buildTables_ntt]
    exact Nat.mod_eq_of_lt (by omega)
  have hinvNReg : (buildTables s n q w).ntt.invN.toNat = invMod n q := by
    rw [buildTables_ntt]
    exact Nat.mod_eq_of_lt (by omega)
  unfold TablesHold
  rw [homegaReg, hinvNReg, buildTables_params]
  exact ⟨⟨h.two_le_degree, h.degree_le, h.isPow2⟩, ⟨h.prime, hlimit, h.order_dvd⟩,
    ⟨h.root_lt, h.root_pow⟩, ⟨homega, homegaMul⟩, ⟨hinvN, hinvNMul⟩,
    by rw [buildTables_ntt]; exact ⟨rfl, rfl⟩,
    fun _ hi => buildTables_powers h hn hi,
    ⟨buildTables_inverses_first h hn, fun _ hj _ hi => buildTables_inverses h hn hj hi⟩,
    fun _ hk => buildTables_factors h hn hk⟩

end

/-- NTT_N, NTT_Q and NTT_OMEGA latch the parameters without truncation (R30, R31, R33). -/
theorem TableParams.latched (h : TableParams p n q w) :
    (tableRegs p n q w).n.toNat = n ∧ (tableRegs p n q w).q.toNat = q ∧
      (tableRegs p n q w).omega.toNat = w := by
  have := h.lt_limit
  have := h.degree_lt
  have := h.root_lt
  exact ⟨Nat.mod_eq_of_lt (by omega), Nat.mod_eq_of_lt (by omega), Nat.mod_eq_of_lt (by omega)⟩

end Sys2Proof.Machine
end

section
/-! SUPPORT. What one step can do to DMEM, TMEM and the NTT registers, once: nothing, a buffer stored in
DMEM, the tables of accepted parameters, or reset (R42, R79). -/

namespace Sys2Proof.Machine

variable {s t u : State}

/-- `t` has the memories, the NTT registers and the parameters of `s`. -/
structure SameMemory (s t : State) : Prop where
  params : t.params = s.params
  mem : t.mem = s.mem
  epoch : t.epoch = s.epoch
  ntt : t.ntt = s.ntt

theorem SameMemory.refl (s : State) : SameMemory s s := ⟨rfl, rfl, rfl, rfl⟩

theorem SameMemory.trans (hst : SameMemory s t) (htu : SameMemory t u) : SameMemory s u :=
  ⟨htu.params.trans hst.params, htu.mem.trans hst.mem, htu.epoch.trans hst.epoch, htu.ntt.trans hst.ntt⟩

theorem SameMemory.byteAt (h : SameMemory s t) (a : Nat) : t.byteAt a = s.byteAt a := by
  rw [State.byteAt, State.byteAt, h.mem, h.epoch]

theorem SameMemory.tRead (h : SameMemory s t) (tb k : Nat) : t.tRead tb k = s.tRead tb k := by
  simp only [State.tRead, State.wordAt, h.byteAt]

theorem SameMemory.writeWords (h : SameMemory s t) (a : Nat) (ws : List Word) :
    SameMemory (s.writeWords a ws) (t.writeWords a ws) where
  params := h.params
  mem := by rw [State.writeWords_mem, State.writeWords_mem, h.mem]
  epoch := h.epoch
  ntt := h.ntt

theorem SameMemory.tWrite (h : SameMemory s t) (tb : Nat) (vs : List Nat) :
    SameMemory (s.tWrite tb vs) (t.tWrite tb vs) := by
  rw [State.tWrite_eq, State.tWrite_eq]
  exact h.writeWords _ _

theorem SameMemory.writeTables (h : SameMemory s t) (q : Nat) (r ri : List Nat) :
    SameMemory (s.writeTables q r ri) (t.writeTables q r ri) := by
  unfold State.writeTables
  exact (((((h.tWrite _ _).tWrite _ _).tWrite _ _).tWrite _ _).tWrite _ _).tWrite _ _

theorem SameMemory.buildTables (h : SameMemory s t) (n q w : Nat) :
    SameMemory (buildTables s n q w) (buildTables t n q w) where
  params := by rw [buildTables_params, buildTables_params, h.params]
  mem := by rw [Machine.buildTables, Machine.buildTables, State.latchNtt_mem, State.latchNtt_mem,
    (h.writeTables _ _ _).mem]
  epoch := by rw [buildTables_epoch, buildTables_epoch, h.epoch]
  ntt := by rw [buildTables_ntt, buildTables_ntt, h.params]

/-- What a step from `s` does to the memories and the NTT registers. -/
inductive MemoryEffect (s t : State) : Prop
  | untouched (h : SameMemory s t)
  | buffer (base : Nat) (vs : List Nat) (hfit : base + vs.length ≤ s.params.dmemWords)
      (h : SameMemory (s.memWrite base vs) t)
  | tables (n q w : Nat) (hparams : TableParams s.params n q w) (h : SameMemory (buildTables s n q w) t)
  | reset (hparams : t.params = s.params) (hmem : t.mem = []) (hntt : t.ntt = {})

theorem MemoryEffect.of_same (hsu : SameMemory s u) (h : MemoryEffect u t) : MemoryEffect s t := by
  cases h with
  | untouched h => exact .untouched (hsu.trans h)
  | buffer base vs hfit h =>
    exact .buffer base vs (hsu.params ▸ hfit) ((hsu.writeWords _ _).trans h)
  | tables n q w hparams h => exact .tables n q w (hsu.params ▸ hparams) ((hsu.buildTables n q w).trans h)
  | reset hparams hmem hntt => exact .reset (hparams.trans hsu.params) hmem hntt

theorem MemoryEffect.to_same (h : MemoryEffect s t) (htu : SameMemory t u) : MemoryEffect s u := by
  cases h with
  | untouched h => exact .untouched (h.trans htu)
  | buffer base vs hfit h => exact .buffer base vs hfit (h.trans htu)
  | tables n q w hparams h => exact .tables n q w hparams (h.trans htu)
  | reset hparams hmem hntt =>
    exact .reset (htu.params.trans hparams) (htu.mem.trans hmem) (htu.ntt.trans hntt)

/-! ### The engine -/

theorem useDraws_sameMemory (s : State) (k : Nat) : SameMemory s (s.useDraws k) := ⟨rfl, rfl, rfl, rfl⟩

theorem fail_sameMemory (s : State) (e : CmdError) : SameMemory s (s.fail e) := ⟨rfl, rfl, rfl, rfl⟩

theorem retire_sameMemory (s : State) : SameMemory s s.retire := ⟨rfl, rfl, rfl, rfl⟩

theorem putX_sameMemory (s : State) (r : Reg) (v : Nat) : SameMemory s (s.putX r v) :=
  ⟨rfl, rfl, rfl, rfl⟩

theorem MayCommit.memoryEffect {kind : WriteKind} (h : MayCommit s kind t) : MemoryEffect s t := by
  cases h with
  | register rd v => exact .untouched (putX_sameMemory s rd v)
  | pair rd v w => exact .untouched ((putX_sameMemory s rd v).trans (putX_sameMemory _ (rd + 1) w))
  | buffer base vs hfit => exact .buffer base vs hfit (.refl _)
  | tables n q w hparams => exact .tables n q w hparams (.refl _)

theorem EndsIn.memoryEffect {kind : WriteKind} (h : EndsIn kind s t) : MemoryEffect s t := by
  obtain ⟨k, ⟨e, rfl⟩ | ⟨s', hcommit, rfl⟩⟩ := h
  · exact .untouched ((useDraws_sameMemory s k).trans (fail_sameMemory _ e))
  · exact (hcommit.memoryEffect.of_same (useDraws_sameMemory s k)).to_same (retire_sameMemory s')

theorem engineStep_memoryEffect (h : engineStep s = .next t) : MemoryEffect s t := by
  unfold engineStep at h
  split at h
  · cases h
    exact .untouched (.refl _)
  · split at h
    · exact (exec_endsIn h).memoryEffect
    · cases h
      exact .untouched (fail_sameMemory s _)

/-! ### The host port -/

theorem setOvr_sameMemory (s : State) (b : Bool) : SameMemory s (s.setOvr b) := ⟨rfl, rfl, rfl, rfl⟩

theorem guarded_memoryEffect {write : State → State} (hw : MemoryEffect s (write s)) :
    MemoryEffect s (guarded s write) := by
  by_cases hidle : s.inflight = none
  · rw [guarded_idle s write hidle]
    exact hw
  · rw [guarded_busy s write hidle]
    exact .untouched (setOvr_sameMemory s true)

theorem dmemAt_lt {p : Params} {off a : Nat} (h : dmemAt p off = some a) : a < p.dmemWords := by
  unfold dmemAt dmemOff at h
  split at h
  · cases h
    omega
  · cases h

theorem dmemAt_of_targetOf {p : Params} {off a : Nat} (h : targetOf p off = some (.dmem a)) :
    dmemAt p off = some a := by
  unfold targetOf at h
  split at h
  · cases h
  cases hreg : regAt off with
  | some r => simp [hreg] at h
  | none =>
    cases hgpr : gprAt off with
    | some r => simp [hreg, hgpr] at h
    | none =>
      cases hdmem : dmemAt p off with
      | some b => simpa [hreg, hgpr, hdmem] using h
      | none => simp [hreg, hgpr, hdmem] at h

/-- A host access names a DMEM word only below DMEM_WORDS (R65). -/
theorem dmem_target_lt {p : Params} {addr width a : Nat}
    (h : wellFormedTarget p addr width = some (.dmem a)) : a < p.dmemWords := by
  unfold wellFormedTarget at h
  split at h
  · exact dmemAt_lt (dmemAt_of_targetOf h)
  · cases h

theorem targetWrite_memoryEffect (v : Word) {target : Target}
    (hdmem : ∀ a, target = .dmem a → a < s.params.dmemWords) :
    MemoryEffect s (targetWrite s v target) := by
  cases target with
  | reg r =>
    cases r with
    | status =>
      rw [targetWrite_status]
      exact .untouched (setOvr_sameMemory s _)
    | ctrl | cmd | q | id | errinfo | nttCfg | nttN | nttQ | nttOmega | nttOmegaInv | nttInvN =>
      rw [targetWrite]
      exact guarded_memoryEffect (.untouched ⟨rfl, rfl, rfl, rfl⟩)
  | gpr r =>
    rw [targetWrite]
    exact guarded_memoryEffect (.untouched ⟨rfl, rfl, rfl, rfl⟩)
  | dmem a =>
    refine guarded_memoryEffect (write := fun s => s.writeWords (dmemOff a) [v])
      (.buffer a [v.toNat] (hdmem a rfl) ?_)
    rw [State.memWrite_eq, List.map_singleton, BitVec.ofNat_toNat, BitVec.setWidth_eq]
    exact .refl _
  | tmem tb k => exact guarded_memoryEffect (.untouched (.refl s))

theorem respond_sameMemory (s : State) (r : Option Word) : SameMemory s (s.respond r) :=
  ⟨rfl, rfl, rfl, rfl⟩

theorem hostRead_memoryEffect {addr width : Nat} (h : hostRead s addr width = .next t) :
    MemoryEffect s t := by
  unfold hostRead at h
  split at h
  · cases h
  · cases h
    unfold hostReadTarget
    split
    · exact .untouched ((useDraws_sameMemory s 1).trans (respond_sameMemory _ _))
    · exact .untouched (respond_sameMemory s _)

theorem hostWrite_memoryEffect {addr width : Nat} {v : Word} (h : hostWrite s addr width v = .next t) :
    MemoryEffect s t := by
  unfold hostWrite at h
  split at h
  · cases h
  · next target htarget =>
    cases h
    refine (targetWrite_memoryEffect v fun a ha => ?_).to_same (respond_sameMemory _ none)
    exact dmem_target_lt (ha ▸ htarget)

/-! ### One step -/

theorem eventStep_memoryEffect {e : Event} (h : eventStep s e = .next t) : MemoryEffect s t := by
  cases e with
  | hostRead addr width => exact hostRead_memoryEffect h
  | hostWrite addr width v => exact hostWrite_memoryEffect h
  | engine => exact engineStep_memoryEffect h
  | reset =>
    cases h
    exact .reset rfl rfl rfl

theorem setInputs_sameMemory (s : State) (es : List Event) : SameMemory s (s.setInputs es) :=
  ⟨rfl, rfl, rfl, rfl⟩

theorem step_memoryEffect (h : step s = .next t) : MemoryEffect s t := by
  unfold step stepBlock at h
  split at h
  · exact engineStep_memoryEffect h
  · exact (eventStep_memoryEffect h).of_same (setInputs_sameMemory s _)

end Sys2Proof.Machine
end

section
/-! O54: every write lies in DMEM or in a TMEM table, and every write keeps the canonical form. -/

namespace Sys2Proof.Machine

variable {s t : State}

theorem SameMemory.memoryOk (h : SameMemory s t) (hs : MemoryOk s) : MemoryOk t := by
  rw [MemoryOk, h.mem, h.params]
  exact hs

theorem MemoryOk.writeWords (hs : MemoryOk s) {a : Nat} {ws : List Word}
    (hmapped : ∀ c, a ≤ c → c < a + 8 * ws.length → MappedByte s.params c) :
    MemoryOk (s.writeWords a ws) := by
  obtain ⟨hwf, hlisted⟩ := hs
  refine ⟨Memory.wf_writeBytes hwf _ _, fun c hc => ?_⟩
  rcases Memory.mem_writeBytes hc with hold | ⟨hlo, hhi⟩
  · exact hlisted c hold
  · exact hmapped c.1 hlo (by rwa [wordsBytes_length] at hhi)

/-- A buffer in DMEM (R65, R67). -/
theorem MemoryOk.memWrite (hs : MemoryOk s) {base : Nat} {vs : List Nat}
    (hfit : base + vs.length ≤ s.params.dmemWords) : MemoryOk (s.memWrite base vs) := by
  rw [State.memWrite_eq]
  refine hs.writeWords fun c hlo hhi => .inl ?_
  rw [List.length_map] at hhi
  unfold dmemOff at *
  omega

@[simp] theorem State.tWrite_params (s : State) (tb : Nat) (vs : List Nat) :
    (s.tWrite tb vs).params = s.params := rfl

/-- A TMEM table (R66). -/
theorem MemoryOk.tWrite (hs : MemoryOk s) {tb : Nat} {vs : List Nat} (htb : tb < 6)
    (hlen : vs.length ≤ s.params.nmax) : MemoryOk (s.tWrite tb vs) := by
  rw [State.tWrite_eq]
  refine hs.writeWords fun c hlo hhi => .inr ⟨tb, htb, hlo, ?_⟩
  rw [List.length_map] at hhi
  unfold tmemOff at *
  omega

theorem MemoryOk.writeTables (hs : MemoryOk s) {q : Nat} {r ri : List Nat}
    (hr : r.length ≤ s.params.nmax) (hri : ri.length ≤ s.params.nmax) :
    MemoryOk (s.writeTables q r ri) := by
  unfold State.writeTables
  repeat refine MemoryOk.tWrite ?_ (by omega) (by simpa using by assumption)
  exact hs

theorem MemoryOk.latchNtt (hs : MemoryOk s) (regs : NttRegs) : MemoryOk (s.latchNtt regs) := hs

theorem MemoryOk.buildTables (hs : MemoryOk s) {n q w : Nat} (h : TableParams s.params n q w) :
    MemoryOk (buildTables s n q w) := by
  rw [Machine.buildTables]
  exact (hs.writeTables (h.buildR_length.trans_le h.degree_le)
    (h.buildRI_length.trans_le h.degree_le)).latchNtt _

/-- Settles O54, by what a step can do to the memories. -/
theorem stepKeepsMemoryCanonical : Obligations.StepKeepsMemoryCanonical := by
  intro s t hs h
  cases step_memoryEffect h with
  | untouched hsame => exact hsame.memoryOk hs
  | buffer base vs hfit hsame => exact hsame.memoryOk (hs.memWrite hfit)
  | tables n q w hparams hsame => exact hsame.memoryOk (hs.buildTables hparams)
  | reset hparams hmem hntt =>
    rw [MemoryOk, hmem]
    exact ⟨rfl, fun _ hc => absurd hc List.not_mem_nil⟩

end Sys2Proof.Machine
end

section
/-! O57: a step that leaves VALID = 1 leaves the tables where they are, or has just built them. -/

namespace Sys2Proof.Machine

variable {s t : State}

/-- The tables depend on TMEM, the NTT registers and the parameters only. -/
theorem TablesHold.congr {n q w : Nat} (hparams : t.params = s.params) (hntt : t.ntt = s.ntt)
    (hread : ∀ tb k, t.tRead tb k = s.tRead tb k) (hs : TablesHold s n q w) : TablesHold t n q w := by
  simp only [TablesHold, hparams, hntt, hread]
  exact hs

theorem SameMemory.tablesOk (h : SameMemory s t) (hs : TablesOk s) : TablesOk t := by
  rw [TablesOk, h.ntt]
  exact fun hvalid => (hs hvalid).congr h.params h.ntt h.tRead

/-- A buffer in DMEM leaves TMEM and the NTT registers (R42, R79). -/
theorem TablesOk.memWrite (hs : TablesOk s) (hlegal : s.params.Legal) {base : Nat} {vs : List Nat}
    (hfit : base + vs.length ≤ s.params.dmemWords) : TablesOk (s.memWrite base vs) := by
  obtain ⟨-, -, -, hwords, -⟩ := hlegal
  exact fun hvalid => TablesHold.congr (s := s) rfl rfl (fun tb k =>
    s.tRead_memWrite vs tb k (hfit.trans hwords)) (hs hvalid)

theorem tablesOk_buildTables {n q w : Nat} (hlegal : s.params.Legal) (h : TableParams s.params n q w) :
    TablesOk (buildTables s n q w) := by
  intro _
  obtain ⟨hn, hq, hw⟩ := h.latched
  rw [buildTables_ntt, hn, hq, hw]
  exact buildTables_hold h (h.degree_le.trans (nmax_le_of_legal hlegal))

/-- Settles O57, by what a step can do to TMEM and the NTT registers. -/
theorem stepKeepsTablesValid : Obligations.StepKeepsTablesValid := by
  intro s t hlegal hs h
  cases step_memoryEffect h with
  | untouched hsame => exact hsame.tablesOk hs
  | buffer base vs hfit hsame => exact hsame.tablesOk (hs.memWrite hlegal hfit)
  | tables n q w hparams hsame => exact hsame.tablesOk (tablesOk_buildTables hlegal hparams)
  | reset hparams hmem hntt =>
    rw [TablesOk, hntt]
    exact fun hvalid => nomatch hvalid

end Sys2Proof.Machine
end

section
/-! O14: a register command commits its destination or its register pair, and a failed one commits
nothing. -/

namespace Sys2Proof.Machine

variable {s t : State} {rd : Reg}

theorem State.getX_putX_other (s : State) {r r' : Reg} (v : Nat) (h : r' ≠ r) :
    (s.putX r v).getX r' = s.getX r' := by
  rw [State.putX_eq, State.getX_setX_other _ _ h.symm]

/-- A command that ends in one register leaves the memories, the NTT registers and every other general
register. -/
theorem EndsIn.register_frame (h : EndsIn (.register rd) s t) :
    SameMemory s t ∧ ∀ r, r ≠ rd → t.getX r = s.getX r := by
  obtain ⟨k, ⟨e, rfl⟩ | ⟨s', hcommit, rfl⟩⟩ := h
  · exact ⟨⟨rfl, rfl, rfl, rfl⟩, fun _ _ => rfl⟩
  · cases hcommit with
    | register _ v => exact ⟨⟨rfl, rfl, rfl, rfl⟩, fun r hr => (s.useDraws k).getX_putX_other v hr⟩

/-- A command that ends in a register pair leaves the memories, the NTT registers and every general
register outside the pair. -/
theorem EndsIn.pair_frame (h : EndsIn (.pair rd) s t) :
    SameMemory s t ∧ ∀ r, r ≠ rd → r ≠ rd + 1 → t.getX r = s.getX r := by
  obtain ⟨k, ⟨e, rfl⟩ | ⟨s', hcommit, rfl⟩⟩ := h
  · exact ⟨⟨rfl, rfl, rfl, rfl⟩, fun _ _ _ => rfl⟩
  · cases hcommit with
    | pair _ v w =>
      refine ⟨⟨rfl, rfl, rfl, rfl⟩, fun r hr hr' => ?_⟩
      calc ((((s.useDraws k).putX rd v).putX (rd + 1) w).retire).getX r
          = ((s.useDraws k).putX rd v).getX r := State.getX_putX_other _ w hr'
        _ = s.getX r := State.getX_putX_other _ v hr

/-- Settles O14, by where each register command writes. -/
theorem registerCommandsWriteOnlyTheirDestination :
    Obligations.RegisterCommandsWriteOnlyTheirDestination := by
  intro s t rd i hi hexec
  have hends := exec_endsIn hexec
  have hkind : writeKind i = .register rd ∨ writeKind i = .pair rd ∧
      ((∃ rs1 rs2 rs3 rs4 b, i = .bfwd rd rs1 rs2 rs3 rs4 b) ∨
        ∃ rs1 rs2 rs3 rs4 b, i = .binv rd rs1 rs2 rs3 rs4 b) := by
    rcases hi with ⟨_, _, rfl⟩ | ⟨_, rfl⟩ | ⟨_, _, rfl⟩ | ⟨_, rfl⟩ | ⟨_, _, rfl⟩ | ⟨_, rfl⟩ |
      ⟨_, _, rfl⟩ | ⟨_, _, _, _, rfl⟩ | hbfwd | hbinv
    iterate 8 exact .inl rfl
    · obtain ⟨_, _, _, _, _, rfl⟩ := hbfwd
      exact .inr ⟨rfl, .inl ⟨_, _, _, _, _, rfl⟩⟩
    · obtain ⟨_, _, _, _, _, rfl⟩ := hbinv
      exact .inr ⟨rfl, .inr ⟨_, _, _, _, _, rfl⟩⟩
  rcases hkind with hreg | ⟨hpair, hbfly⟩
  · obtain ⟨hmem, hx⟩ := EndsIn.register_frame (hreg ▸ hends)
    exact ⟨hmem.byteAt, hmem.ntt, fun r hr _ => hx r hr⟩
  · obtain ⟨hmem, hx⟩ := EndsIn.pair_frame (hpair ▸ hends)
    refine ⟨hmem.byteAt, hmem.ntt, fun r hr hnext => hx r hr fun heq => ?_⟩
    obtain ⟨hnotBfwd, hnotBinv⟩ := hnext heq
    rcases hbfly with ⟨_, _, _, _, _, hi⟩ | ⟨_, _, _, _, _, hi⟩
    · exact hnotBfwd _ _ _ _ _ hi
    · exact hnotBinv _ _ _ _ _ hi

end Sys2Proof.Machine
end

section
/-! O41: the four ranges of the window exclude each other, so each part of the address map decides the
offsets of its own range. -/

namespace Sys2Proof.Machine

variable {p : Params} {off : Nat}

/-! ### Each part of the map outside its range -/

theorem regAt_none (h : 0x58 < off) : regAt off = none := by
  unfold regAt
  split
  iterate 12 omega
  rfl

theorem gprAt_none (h : off < 0x100 ∨ 0x180 ≤ off) : gprAt off = none :=
  if_neg (by omega)

theorem dmemAt_none (h : off < dmemOff 0 ∨ dmemOff p.dmemWords ≤ off) : dmemAt p off = none :=
  if_neg (by omega)

theorem tmemAt_none (h : off < tmemOff 0 0 ∨ tmemOff 6 0 ≤ off) : tmemAt p off = none :=
  if_neg (by omega)

/-! ### The parts inside their ranges -/

theorem gprAt_offset (r : Reg) : gprAt (0x100 + 8 * r.toNat) = some r := by
  have hr := r.isLt
  rw [gprAt, if_pos (by omega), show (0x100 + 8 * r.toNat - 0x100) / 8 = r.toNat by omega,
    BitVec.ofNat_toNat, BitVec.setWidth_eq]

theorem dmemAt_dmemOff {a : Nat} (ha : a < p.dmemWords) : dmemAt p (dmemOff a) = some a := by
  unfold dmemAt dmemOff
  rw [if_pos (by omega)]
  congr 1
  omega

/-- TMEM byte o of slot t is a byte of word o / 8, where the table has that word (R66). -/
theorem tmemAt_slot {t o : Nat} (ht : t ≤ 5) (ho : o < tmemSlot) :
    tmemAt p (tmemOff t 0 + o) = if o / 8 < p.nmax then some (t, o / 8) else none := by
  unfold tmemSlot at ho
  have hslot : (tmemOff t 0 + o - tmemOff 0 0) / tmemSlot = t := by
    unfold tmemOff tmemSlot
    omega
  have hword : (tmemOff t 0 + o - tmemOff 0 0) % tmemSlot = o := by
    unfold tmemOff tmemSlot
    omega
  unfold tmemAt
  rw [if_pos (by unfold tmemOff tmemSlot; omega)]
  simp only [hslot, hword]

/-! ### The map -/

theorem targetOf_misaligned (h : off % 8 ≠ 0) : targetOf p off = none :=
  if_pos h

/-- Past the registers only the memories are mapped. -/
theorem targetOf_memory (hlow : 0x180 ≤ off) (h8 : off % 8 = 0) :
    targetOf p off = ((dmemAt p off).map Target.dmem).or
      ((tmemAt p off).map fun tk => Target.tmem tk.1 tk.2) := by
  rw [targetOf, if_neg (by omega), regAt_none (by omega), gprAt_none (by omega)]
  cases dmemAt p off <;> rfl

theorem targetOf_gpr (r : Reg) : targetOf p (0x100 + 8 * r.toNat) = some (.gpr r) := by
  rw [targetOf, if_neg (by omega), regAt_none (by omega), gprAt_offset]

theorem targetOf_dmem {a : Nat} (ha : a < p.dmemWords) : targetOf p (dmemOff a) = some (.dmem a) := by
  rw [targetOf_memory (by unfold dmemOff; omega) (by unfold dmemOff; omega), dmemAt_dmemOff ha]
  rfl

/-- With legal parameters DMEM ends below TMEM (R8, R64). -/
theorem dmemOff_le_tmem (hlegal : p.Legal) : dmemOff p.dmemWords ≤ tmemOff 0 0 := by
  obtain ⟨-, -, -, hwords, -⟩ := hlegal
  unfold dmemOff tmemOff tmemSlot
  omega

theorem targetOf_tmem_slot (hlegal : p.Legal) {t o : Nat} (ht : t ≤ 5) (ho : o < tmemSlot)
    (h8 : o % 8 = 0) :
    targetOf p (tmemOff t 0 + o) = if o / 8 < p.nmax then some (.tmem t (o / 8)) else none := by
  have hdmem := dmemOff_le_tmem hlegal
  have hbase : tmemOff 0 0 ≤ tmemOff t 0 := by unfold tmemOff tmemSlot; omega
  rw [targetOf_memory (by unfold tmemOff tmemSlot; omega) (by unfold tmemOff tmemSlot; omega),
    dmemAt_none (by omega), tmemAt_slot ht ho]
  split <;> rfl

theorem targetOf_tmem (hlegal : p.Legal) {t k : Nat} (ht : t ≤ 5) (hk : k < p.nmax) :
    targetOf p (tmemOff t k) = some (.tmem t k) := by
  have hmax := nmax_le_of_legal hlegal
  have hoff : tmemOff t k = tmemOff t 0 + 8 * k := by unfold tmemOff; omega
  rw [hoff, targetOf_tmem_slot hlegal ht (by unfold tmemSlot; omega) (by omega),
    Nat.mul_div_cancel_left k (by omega), if_pos hk]

/-- The rest of a TMEM slot, past the table's last word, is unmapped (R66). -/
theorem targetOf_slot_rest (hlegal : p.Legal) {t o : Nat} (ht : t ≤ 5) (hrest : 8 * p.nmax ≤ o)
    (ho : o < tmemSlot) : targetOf p (tmemOff t 0 + o) = none := by
  by_cases h8 : o % 8 = 0
  · rw [targetOf_tmem_slot hlegal ht ho h8, if_neg (by omega)]
  · exact targetOf_misaligned (by unfold tmemOff tmemSlot; omega)

/-- Between the registers there is nothing (R23). -/
theorem targetOf_register_gap (hlo : 0x60 ≤ off) (hhi : off < 0x100) : targetOf p off = none := by
  unfold targetOf
  rw [regAt_none (by omega), gprAt_none (by omega), dmemAt_none (by unfold dmemOff; omega),
    tmemAt_none (by unfold tmemOff; omega)]
  exact ite_self none

/-- Outside DMEM and TMEM nothing past the registers is mapped (R64). -/
theorem targetOf_memory_gap (hlow : 0x180 ≤ off) (hdmem : off < dmemOff 0 ∨ dmemOff p.dmemWords ≤ off)
    (htmem : off < tmemOff 0 0 ∨ tmemOff 6 0 ≤ off) : targetOf p off = none := by
  by_cases h8 : off % 8 = 0
  · rw [targetOf_memory hlow h8, dmemAt_none hdmem, tmemAt_none htmem]
    rfl
  · exact targetOf_misaligned h8

/-- Settles O41, range by range. -/
theorem addressMapIsTheManuals : Obligations.AddressMapIsTheManuals := by
  intro p hlegal
  have hdmem := dmemOff_le_tmem hlegal
  refine ⟨⟨rfl, rfl, rfl, rfl, rfl, rfl, rfl, rfl, rfl, rfl, rfl, rfl⟩, targetOf_gpr,
    fun _ ha => targetOf_dmem ha, fun _ ht _ hk => targetOf_tmem hlegal ht hk,
    fun t ht o hrest ho => ?_, fun off hoff => ?_⟩
  · have hslot := targetOf_slot_rest hlegal ht hrest ho
    rwa [tmemOff, Nat.mul_zero, Nat.add_zero] at hslot
  · unfold dmemOff tmemOff tmemSlot at hdmem
    rcases hoff with ⟨hlo, hhi⟩ | ⟨hlo, hhi⟩ | ⟨hlo, hhi⟩ | hlo
    · exact targetOf_register_gap hlo hhi
    all_goals
      exact targetOf_memory_gap (p := p) (off := off) (by omega) (by unfold dmemOff; omega)
        (by unfold tmemOff tmemSlot; omega)

end Sys2Proof.Machine
end

section
/-! O7, O44, O46, O47, O48: what the next step does when it is the engine's turn, a host read or a host
write. -/

namespace Sys2Proof.Machine

variable {s : State} {es : List Event}

/-! ### The engine's turn -/

theorem engineStep_decoded {v : Word} {i : Instr} (hv : s.inflight = some v) (hd : decode v = .ok i) :
    engineStep s = exec i s := by
  unfold engineStep
  simp only [hv, hd]

theorem step_no_event (h : s.inputs = []) : step s = engineStep s := by
  unfold step stepBlock
  rw [h]

theorem step_event {e : Event} (h : s.inputs = e :: es) : step s = eventStep (s.setInputs es) e := by
  unfold step stepBlock
  rw [h]

/-- Settles O7: both forms of the engine's turn decode the command in flight. -/
theorem stepRunsDecodedCommand : Obligations.StepRunsDecodedCommand := by
  intro s v i hv hd
  refine ⟨fun hnone => ?_, fun es hengine => ?_⟩
  · rw [step_no_event hnone, engineStep_decoded hv hd]
  · rw [step_event hengine]
    exact engineStep_decoded (s := s.setInputs es) hv hd

/-! ### Host accesses -/

section
variable {addr : Nat} {v : Word} {target : Target}

theorem step_hostRead (h : s.inputs = .hostRead addr 8 :: es)
    (htarget : wellFormedTarget s.params addr 8 = some target) :
    step s = .next (hostReadTarget (s.setInputs es) target) := by
  rw [step_event h, eventStep, hostRead, State.setInputs_params, htarget]

theorem step_hostWrite (h : s.inputs = .hostWrite addr 8 v :: es)
    (htarget : wellFormedTarget s.params addr 8 = some target) :
    step s = .next ((targetWrite (s.setInputs es) v target).respond none) := by
  rw [step_event h, eventStep, hostWrite, State.setInputs_params, htarget]

theorem hostReadTarget_idle (h : s.inflight = none) (target : Target) :
    hostReadTarget s target = s.respond (some (targetRead s target)) := by
  rw [hostReadTarget, if_neg (by simp [State.busy, h])]

end

/-- Settles O44: a rejected write only sets OVR, and one to STATUS follows its bit 2. -/
theorem busyWritesOnlyTouchOvr : Obligations.BusyWritesOnlyTouchOvr := by
  intro s es addr v target hbusy h htarget
  rw [step_hostWrite h htarget]
  refine ⟨fun hother => ?_, ?_, ?_⟩
  · rw [targetWrite_busy (s.setInputs es) v target hbusy hother]
    rfl
  · rintro rfl hclear
    rw [targetWrite_status, if_pos hclear]
    rfl
  · rintro rfl hkeep
    rw [targetWrite_status, hkeep]
    rfl

/-- Settles O46: an idle read only answers, with the value of its target. -/
theorem idleReadsHaveNoSideEffect : Obligations.IdleReadsHaveNoSideEffect := by
  intro s es addr target hidle h htarget
  refine ⟨?_, ?_⟩
  · rw [step_hostRead h htarget, hostReadTarget_idle (s := s.setInputs es) hidle, targetRead_setInputs]
    rfl
  · have hreg : ∀ r, target = .reg r → targetRead s target = regRead s r := fun r hr => hr ▸ rfl
    refine ⟨hreg .id, hreg .ctrl, hreg .status, hreg .errinfo, hreg .q, hreg .cmd, hreg .nttCfg,
      hreg .nttN, hreg .nttQ, hreg .nttOmega, hreg .nttOmegaInv, hreg .nttInvN, ?_, ?_, ?_⟩
    · rintro a rfl
      simp [targetRead, State.memRead]
    · rintro tb k rfl
      simp [targetRead, State.tRead]
    · rintro r rfl
      rfl

/-- Settles O47: the read-only targets are guarded writes of nothing. -/
theorem readOnlyAndReservedWritesAreIgnored : Obligations.ReadOnlyAndReservedWritesAreIgnored := by
  intro s es addr v target h htarget
  rw [step_hostWrite h htarget]
  refine ⟨fun hreadOnly hidle => ?_, ?_, ?_⟩
  · have hnothing : targetWrite (s.setInputs es) v target = guarded (s.setInputs es) id := by
      rcases hreadOnly with rfl | rfl | rfl | rfl | rfl | rfl | rfl | rfl | ⟨_, _, rfl⟩ <;> rfl
    rw [hnothing, guarded_idle (s.setInputs es) id hidle]
    rfl
  · rintro rfl hidle
    rw [targetWrite, guarded_idle (s.setInputs es) _ hidle]
    rfl
  · rintro rfl
    rw [targetWrite_status]
    rfl

/-- Settles O48: a write to Q or to a general register is a guarded write of its value. -/
theorem idleWritesStoreTheirValue : Obligations.IdleWritesStoreTheirValue := by
  intro s es addr v hidle h
  refine ⟨fun htarget => ?_, fun r htarget => ⟨_, step_hostWrite h htarget, ?_⟩⟩
  · rw [step_hostWrite h htarget, targetWrite, guarded_idle (s.setInputs es) _ hidle]
    rfl
  · rw [targetWrite, guarded_idle (s.setInputs es) _ hidle]
    exact ⟨State.getX_setX_same (s.setInputs es) r v,
      fun r' hr => State.getX_setX_other (s.setInputs es) v hr.symm, rfl⟩

end Sys2Proof.Machine
end

section
/-! O50, O51, O53: the words of the status registers, and the state after reset. -/

namespace Sys2Proof.Machine

/-! ### Bit i of each word

The words are written as appended fields of a literal width; `change` gives each its width as the sum that the
bit lemma of an append speaks of. -/

/-- Bit i of STATUS (R26). -/
theorem statusWord_getLsbD (s : State) (i : Nat) :
    s.statusWord.getLsbD i =
      if i = 0 then s.inflight.isSome else if i = 1 then s.err.errcode != 0 else if i = 2 then s.ovr
      else if i < 8 then false else if i < 16 then s.err.errcode.getLsbD (i - 8)
      else s.lastop.getLsbD (i - 16) := by
  change (BitVec.setWidth 64 (s.lastop ++ s.err.errcode ++ 0#5 ++ BitVec.ofBool s.ovr ++
    BitVec.ofBool s.errFlag ++ BitVec.ofBool s.busy)).getLsbD i = _
  simp only [BitVec.getLsbD_setWidth, BitVec.getLsbD_append, BitVec.getLsbD_ofBool, BitVec.getLsbD_zero,
    State.busy, State.errFlag]
  grind

/-- Bit i of ERRINFO (R27). -/
theorem errinfoWord_getLsbD (s : State) (i : Nat) :
    s.errinfoWord.getLsbD i =
      if i < 8 then s.err.cause.getLsbD i else if i < 32 then false else s.err.index.getLsbD (i - 32) := by
  change (s.err.index ++ 0#24 ++ s.err.cause).getLsbD i = _
  simp only [BitVec.getLsbD_append, BitVec.getLsbD_zero]
  grind

/-- Bit i of CTRL (R25). -/
theorem ctrlWord_getLsbD (s : State) (i : Nat) :
    s.ctrlWord.getLsbD i = (decide (i = 0) && (s.params.hasIfma52 && s.ctrlIfma52)) := by
  simp only [State.ctrlWord, State.ifma52En, BitVec.getLsbD_setWidth, BitVec.getLsbD_ofBool]
  grind

/-- Bit i of NTT_CFG (R35). -/
theorem nttCfgWord_getLsbD (s : State) (i : Nat) :
    s.nttCfgWord.getLsbD i =
      if i = 0 then s.ntt.valid else if i = 1 then s.ntt.fwd52 else if i = 2 then s.ntt.inv52 else false := by
  change (BitVec.setWidth 64 (BitVec.ofBool s.ntt.inv52 ++ BitVec.ofBool s.ntt.fwd52 ++
    BitVec.ofBool s.ntt.valid)).getLsbD i = _
  simp only [BitVec.getLsbD_setWidth, BitVec.getLsbD_append, BitVec.getLsbD_ofBool]
  grind

/-- A field of a word is what its bits are. -/
theorem extractLsb'_eq_of_bits {v : Word} {start len : Nat} {field : BitVec len}
    (h : ∀ i < len, v.getLsbD (start + i) = field.getLsbD i) : v.extractLsb' start len = field := by
  ext i hi
  rw [BitVec.getElem_extractLsb', h i hi, BitVec.getLsbD_eq_getElem]

/-- Settles O50, field by field. -/
theorem statusAndErrinfoLayout : Obligations.StatusAndErrinfoLayout := by
  intro s
  refine ⟨statusWord_getLsbD s 0, statusWord_getLsbD s 1, statusWord_getLsbD s 2, ?_, ?_, ?_, ?_, ?_, ?_,
    ?_, (ctrlWord_getLsbD s 0).trans (Bool.true_and _), ?_, nttCfgWord_getLsbD s 0,
    nttCfgWord_getLsbD s 1, nttCfgWord_getLsbD s 2, ?_⟩
  all_goals refine extractLsb'_eq_of_bits fun i hi => ?_
  iterate 4 grind [statusWord_getLsbD]
  iterate 3 grind [errinfoWord_getLsbD]
  · grind [ctrlWord_getLsbD]
  · grind [nttCfgWord_getLsbD]

/-- Settles O51: no register but ID has a reset value other than 0, and no byte is listed. -/
theorem resetLeavesTheManualsValues : Obligations.ResetLeavesTheManualsValues := by
  refine ⟨rfl, rfl, rfl, rfl, rfl, rfl, rfl, rfl, rfl, rfl, rfl, rfl, fun r => ?_, rfl, fun _ => rfl⟩
  exact Vector.getElem_replicate _

theorem memoryOk_reset : MemoryOk State.reset := ⟨rfl, fun _ hc => absurd hc List.not_mem_nil⟩

theorem commandOk_reset : CommandOk State.reset := ⟨rfl, fun _ hv => nomatch hv⟩

theorem tablesOk_reset : TablesOk State.reset := fun hvalid => nomatch hvalid

/-- Settles O53: nothing is listed, reported, in flight or valid after reset. -/
theorem resetSatisfiesInvariants : Obligations.ResetSatisfiesInvariants :=
  ⟨by decide, memoryOk_reset, .inl rfl, commandOk_reset, fun _ => rfl, tablesOk_reset⟩

end Sys2Proof.Machine
end

section
/-! O10, O42, O43, O45, O49: which access is well-formed, and what the next step does with a command that is
placed, a host access that is ill-formed, a write to CMD, a read while BUSY = 1, and a word of DMEM. -/

namespace Sys2Proof.Machine

variable {p : Params} {s : State} {es : List Event} {addr width off a : Nat} {v : Word} {target : Target}

/-! ### Well-formed accesses (R60) -/

/-- An access is ill-formed by its width, its alignment, or its place. -/
theorem wellFormedTarget_eq_none_iff :
    wellFormedTarget p addr width = none ↔
      width ≠ 8 ∨ addr % 8 ≠ 0 ∨ addr < p.base ∨ targetOf p (addr - p.base) = none := by
  unfold wellFormedTarget
  split
  case isTrue h =>
    obtain ⟨hwidth, halign, hbase⟩ := h
    simp [hwidth, halign, hbase]
  case isFalse h =>
    simp only [true_iff]
    omega

/-- With an aligned BASE the window's offsets are reached at BASE plus the offset. -/
theorem wellFormedTarget_base_add (hbase : p.base % 8 = 0) (hoff : off % 8 = 0) :
    wellFormedTarget p (p.base + off) 8 = targetOf p off := by
  rw [wellFormedTarget, if_pos (by omega), Nat.add_sub_cancel_left]

theorem step_hostRead_busError (h : s.inputs = .hostRead addr width :: es)
    (hnone : wellFormedTarget s.params addr width = none) : step s = .fault (.busError addr width) := by
  rw [step_event h, eventStep, hostRead, State.setInputs_params, hnone]

theorem step_hostWrite_busError (h : s.inputs = .hostWrite addr width v :: es)
    (hnone : wellFormedTarget s.params addr width = none) : step s = .fault (.busError addr width) := by
  rw [step_event h, eventStep, hostWrite, State.setInputs_params, hnone]

/-- Settles O42: an access faults exactly when it has no target, and an ill-formed one has none. -/
theorem illFormedAccessIsBusError : Obligations.IllFormedAccessIsBusError := by
  intro s es addr width v e he hinputs
  refine ⟨fun hill => ?_, fun hwidth halign hbase hmapped => ?_⟩
  · have hnone := wellFormedTarget_eq_none_iff.2 hill
    rcases he with rfl | rfl
    · exact step_hostRead_busError hinputs hnone
    · exact step_hostWrite_busError hinputs hnone
  · subst hwidth
    obtain ⟨target, htarget⟩ := Option.ne_none_iff_exists'.1 hmapped
    have hwf : wellFormedTarget s.params addr 8 = some target := by
      rw [wellFormedTarget, if_pos ⟨rfl, halign, hbase⟩, htarget]
    rcases he with rfl | rfl
    · exact ⟨_, step_hostRead hinputs hwf⟩
    · exact ⟨_, step_hostWrite hinputs hwf⟩

/-! ### Commands -/

theorem decode_of_decodeTableWord {nbits w : Nat} {i : Instr} (h : decodeTableWord nbits w = some i) :
    decode (BitVec.ofNat 64 (w % 2 ^ nbits)) = .ok i := by
  unfold decodeTableWord at h
  split at h
  · next hdecode =>
    cases h
    exact hdecode
  · cases h

/-- Settles O10: the engine's turn comes first, and finds the word placed in flight. -/
theorem placedWordRunsNext : Obligations.PlacedWordRunsNext := by
  intro s nbits w i hdecode
  have hturn : step (s.withFetchWord nbits w) =
      engineStep (s.accept (BitVec.ofNat 64 (w % 2 ^ nbits))) :=
    step_event (s := s.withFetchWord nbits w) (es := s.inputs) rfl
  rw [hturn, engineStep_decoded (State.accept_inflight s _) (decode_of_decodeTableWord hdecode)]

/-- Settles O43: a write to CMD is a guarded acceptance. -/
theorem cmdWriteStartsOrIsRejected : Obligations.CmdWriteStartsOrIsRejected := by
  intro s es v hbase h
  have htarget : wellFormedTarget s.params (s.params.base + 0x028) 8 = some (.reg .cmd) :=
    wellFormedTarget_base_add hbase rfl
  rw [step_hostWrite h htarget]
  refine ⟨fun hidle => ?_, fun hbusy => ?_⟩
  · rw [targetWrite, guarded_idle (s.setInputs es) _ hidle]
    rfl
  · rw [targetWrite, guarded_busy (s.setInputs es) _ hbusy]
    rfl

/-! ### Reads while BUSY = 1 (R72) -/

theorem hostReadTarget_readable (h : readableWhileBusy target = true) :
    hostReadTarget s target = s.respond (some (targetRead s target)) := by
  rw [hostReadTarget, if_neg (by simp [h])]

theorem hostReadTarget_draw (hbusy : s.inflight ≠ none) (h : readableWhileBusy target = false) :
    hostReadTarget s target = (s.useDraws 1).respond (some (s.drawAt 0)) := by
  rw [hostReadTarget, if_pos ⟨(State.busy_iff s).2 hbusy, h⟩]

theorem readableWhileBusy_eq_true_iff :
    readableWhileBusy target = true ↔ target = .reg .id ∨ target = .reg .ctrl ∨ target = .reg .status ∨
      target = .reg .q ∨ target = .reg .cmd := by
  cases target with
  | reg r => cases r <;> simp [readableWhileBusy]
  | gpr r | dmem a | tmem t k => simp [readableWhileBusy]

/-- Settles O45: five registers are readable, and a read of any other target takes a draw. -/
theorem busyReadsReturnCurrentValueOrDraw : Obligations.BusyReadsReturnCurrentValueOrDraw := by
  intro s es addr target hbusy h htarget
  rw [step_hostRead h htarget]
  refine ⟨?_, ?_, ?_, ?_, ?_, fun hid hctrl hstatus hq hcmd => ?_⟩
  iterate 5
    rintro rfl
    rw [hostReadTarget_readable rfl, targetRead_setInputs]
    rfl
  have hdraw : readableWhileBusy target = false := by
    rw [← Bool.not_eq_true, readableWhileBusy_eq_true_iff]
    simp only [hid, hctrl, hstatus, hq, hcmd, or_self, not_false_iff]
  rw [hostReadTarget_draw (s := s.setInputs es) hbusy hdraw]
  rfl

/-! ### A word of DMEM -/

theorem wellFormedTarget_dmem (hbase : p.base % 8 = 0) (ha : a < p.dmemWords) :
    wellFormedTarget p (p.base + 0x01000000 + 8 * a) 8 = some (.dmem a) := by
  have hoff : p.base + 0x01000000 + 8 * a = p.base + dmemOff a := by unfold dmemOff; omega
  rw [hoff, wellFormedTarget_base_add hbase (by unfold dmemOff; omega), targetOf_dmem ha]

/-- While BUSY = 0 a host write to a DMEM word stores one word (R65). -/
theorem step_dmemWrite (hidle : s.inflight = none) (h : s.inputs = .hostWrite addr 8 v :: es)
    (htarget : wellFormedTarget s.params addr 8 = some (.dmem a)) :
    step s = .next (((s.setInputs es).writeWords (dmemOff a) [v]).respond none) := by
  rw [step_hostWrite h htarget, targetWrite, guarded_idle (s.setInputs es) _ hidle]

/-- While BUSY = 0 a host read of a DMEM word only answers with it (R39, R65). -/
theorem step_dmemRead (hidle : s.inflight = none) (h : s.inputs = .hostRead addr 8 :: es)
    (htarget : wellFormedTarget s.params addr 8 = some (.dmem a)) :
    step s = .next ((s.setInputs es).respond (some (s.wordAt (dmemOff a)))) := by
  rw [step_hostRead h htarget, hostReadTarget_idle (s := s.setInputs es) hidle, targetRead_setInputs,
    targetRead]

/-- Settles O49: the write stores one word, and the read answers with it and leaves every byte. -/
theorem dmemWriteThenReadReturnsValue : Obligations.DmemWriteThenReadReturnsValue := by
  intro s es a v _ hbase hidle ha h
  have htarget := wellFormedTarget_dmem hbase ha
  refine ⟨_, _, step_dmemWrite hidle h htarget, step_dmemRead hidle rfl htarget, ?_, fun c hc => ?_⟩
  · exact congrArg some (State.wordAt_writeWords_inside _ (dmemOff a) [v] Nat.zero_lt_one)
  · exact State.byteAt_writeWords_outside (s.setInputs _) (dmemOff a) [v] hc

end Sys2Proof.Machine
end

section
/-! O13: a command that is no NTTINIT, a failed NTTINIT and a host access write nothing from TMEM up and no
NTT register. -/

namespace Sys2Proof.Machine

variable {s t u : State}

/-- `t` has the NTT registers of `s` and the bytes of `s` from the first one of TMEM on (R66). -/
structure SameTables (s t : State) : Prop where
  ntt : t.ntt = s.ntt
  byteAt : ∀ a, tmemOff 0 0 ≤ a → t.byteAt a = s.byteAt a

theorem SameMemory.sameTables (h : SameMemory s t) : SameTables s t := ⟨h.ntt, fun a _ => h.byteAt a⟩

theorem SameTables.trans (hst : SameTables s t) (htu : SameTables t u) : SameTables s u :=
  ⟨htu.ntt.trans hst.ntt, fun a ha => (htu.byteAt a ha).trans (hst.byteAt a ha)⟩

/-- Words stored in DMEM end below TMEM (R64, R65). -/
theorem writeWords_dmem_sameTables (hlegal : s.params.Legal) {base : Nat} {ws : List Word}
    (hfit : base + ws.length ≤ s.params.dmemWords) : SameTables s (s.writeWords (dmemOff base) ws) := by
  refine ⟨rfl, fun c hc => s.byteAt_writeWords_outside _ _ (.inr ?_)⟩
  have hbelow := dmemOff_le_tmem hlegal
  have hend : dmemOff base + 8 * ws.length ≤ dmemOff s.params.dmemWords := by unfold dmemOff; omega
  omega

/-! ### The engine -/

/-- What a command did if it changed TMEM or an NTT register: it built the tables, without a report. -/
def BuiltTables (kind : WriteKind) (s t : State) : Prop :=
  kind = .tables ∧ t.ntt.valid = true ∧ t.err = s.err

theorem MayCommit.sameTables_or_built {kind : WriteKind} (hlegal : s.params.Legal)
    (h : MayCommit s kind t) : SameTables s t ∨ BuiltTables kind s t := by
  cases h with
  | register rd v => exact .inl (putX_sameMemory s rd v).sameTables
  | pair rd v w => exact .inl ((putX_sameMemory s rd v).trans (putX_sameMemory _ (rd + 1) w)).sameTables
  | buffer base vs hfit => exact .inl (writeWords_dmem_sameTables hlegal (by rwa [List.length_map]))
  | tables n q w hparams => exact .inr ⟨rfl, by rw [buildTables_ntt]; rfl, buildTables_err s n q w⟩

theorem EndsIn.sameTables_or_built {kind : WriteKind} (hlegal : s.params.Legal) (h : EndsIn kind s t) :
    SameTables s t ∨ BuiltTables kind s t := by
  obtain ⟨k, ⟨e, rfl⟩ | ⟨s', hcommit, rfl⟩⟩ := h
  · exact .inl ((useDraws_sameMemory s k).trans (fail_sameMemory _ e)).sameTables
  · rcases MayCommit.sameTables_or_built (s := s.useDraws k) hlegal hcommit with hsame | hbuilt
    · exact .inl (((useDraws_sameMemory s k).sameTables.trans hsame).trans (retire_sameMemory s').sameTables)
    · exact .inr hbuilt

/-- Only NTTINIT writes tables (R79). -/
theorem eq_nttinit_of_writeKind {i : Instr} (h : writeKind i = .tables) :
    ∃ rs1 omega, i = .nttinit rs1 omega := by
  cases i with
  | nttinit rs1 omega => exact ⟨rs1, omega, rfl⟩
  | _ => nomatch h

/-- The engine performs an NTTINIT that reports no error. -/
def PerformsNttinit (s t : State) : Prop :=
  ∃ v rs1 omega, s.inflight = some v ∧ decode v = .ok (.nttinit rs1 omega) ∧
    t.ntt.valid = true ∧ t.err = s.err

theorem engineStep_sameTables_or_nttinit (hlegal : s.params.Legal) (h : engineStep s = .next t) :
    SameTables s t ∨ PerformsNttinit s t := by
  unfold engineStep at h
  split at h
  · cases h
    exact .inl (SameMemory.refl s).sameTables
  · next v hv =>
    split at h
    · next i hdecode =>
      refine ((exec_endsIn h).sameTables_or_built hlegal).imp_right fun ⟨hkind, hvalid, herr⟩ => ?_
      obtain ⟨rs1, omega, rfl⟩ := eq_nttinit_of_writeKind hkind
      exact ⟨v, rs1, omega, hv, hdecode, hvalid, herr⟩
    · cases h
      exact .inl (fail_sameMemory s _).sameTables

/-! ### The host port -/

theorem hostReadTarget_sameMemory (s : State) (target : Target) :
    SameMemory s (hostReadTarget s target) := by
  unfold hostReadTarget
  split
  · exact (useDraws_sameMemory s 1).trans (respond_sameMemory _ _)
  · exact respond_sameMemory s _

theorem hostRead_sameTables {addr width : Nat} (h : hostRead s addr width = .next t) : SameTables s t := by
  unfold hostRead at h
  split at h
  · cases h
  · cases h
    exact (hostReadTarget_sameMemory s _).sameTables

theorem guarded_sameTables {write : State → State} (hw : SameTables s (write s)) :
    SameTables s (guarded s write) := by
  by_cases hidle : s.inflight = none
  · rwa [guarded_idle s write hidle]
  · rw [guarded_busy s write hidle]
    exact (setOvr_sameMemory s true).sameTables

theorem targetWrite_sameTables (hlegal : s.params.Legal) (v : Word) {target : Target}
    (hdmem : ∀ a, target = .dmem a → a < s.params.dmemWords) :
    SameTables s (targetWrite s v target) := by
  cases target with
  | reg r =>
    cases r with
    | status =>
      rw [targetWrite_status]
      exact (setOvr_sameMemory s _).sameTables
    | ctrl | cmd | q | id | errinfo | nttCfg | nttN | nttQ | nttOmega | nttOmegaInv | nttInvN =>
      rw [targetWrite]
      exact guarded_sameTables ⟨rfl, fun _ _ => rfl⟩
  | gpr r =>
    rw [targetWrite]
    exact guarded_sameTables ⟨rfl, fun _ _ => rfl⟩
  | dmem a =>
    exact guarded_sameTables (write := fun s => s.writeWords (dmemOff a) [v])
      (writeWords_dmem_sameTables hlegal (hdmem a rfl))
  | tmem tb k => exact guarded_sameTables (SameMemory.refl s).sameTables

theorem hostWrite_sameTables (hlegal : s.params.Legal) {addr width : Nat} {v : Word}
    (h : hostWrite s addr width v = .next t) : SameTables s t := by
  unfold hostWrite at h
  split at h
  · cases h
  · next target htarget =>
    cases h
    refine (targetWrite_sameTables hlegal v fun a ha => ?_).trans (respond_sameMemory _ none).sameTables
    exact dmem_target_lt (ha ▸ htarget)

/-! ### One step -/

/-- A step leaves TMEM and the NTT registers, is reset, or is the engine's turn with an NTTINIT. -/
theorem step_sameTables_or (hlegal : s.params.Legal) (h : step s = .next t) :
    SameTables s t ∨ (∃ es, s.inputs = .reset :: es) ∨
      ((s.inputs = [] ∨ ∃ es, s.inputs = .engine :: es) ∧ PerformsNttinit s t) := by
  cases hinputs : s.inputs with
  | nil =>
    rw [step_no_event hinputs] at h
    exact (engineStep_sameTables_or_nttinit hlegal h).imp_right fun hinit => .inr ⟨.inl rfl, hinit⟩
  | cons e es =>
    rw [step_event hinputs] at h
    have htake := (setInputs_sameMemory s es).sameTables
    cases e with
    | hostRead addr width => exact .inl (htake.trans (hostRead_sameTables h))
    | hostWrite addr width v => exact .inl (htake.trans (hostWrite_sameTables hlegal h))
    | engine =>
      rcases engineStep_sameTables_or_nttinit (s := s.setInputs es) hlegal h with hsame | hinit
      · exact .inl (htake.trans hsame)
      · exact .inr (.inr ⟨.inr ⟨es, rfl⟩, hinit⟩)
    | reset => exact .inr (.inl ⟨es, rfl⟩)

/-- Settles O13: a step that changes TMEM or an NTT register does not leave them. -/
theorem tablesChangeOnlyAtNttinitOrReset : Obligations.TablesChangeOnlyAtNttinitOrReset := by
  intro s t hlegal h hchanged
  refine (step_sameTables_or hlegal h).resolve_left fun hsame => ?_
  rcases hchanged with hntt | ⟨a, ha, hbyte⟩
  · exact hntt hsame.ntt
  · exact hbyte (hsame.byteAt a ha)

end Sys2Proof.Machine
end

section
/-! SUPPORT. The opcode map (R94), and a command word as the concatenation of its fields (R91, R102): a word is
an assembled one exactly when its fields are the assembled ones and nothing stands above them. -/

namespace Sys2Proof

variable {op : Opcode} {v : Word}

/-! ### The opcode map (R94) -/

/-- The opcodes of the rows differ, so a byte selects the row that carries it. -/
theorem opcodeOf_eq_some_iff {b : Byte} : opcodeOf b = some op ↔ op.code = b := by
  constructor
  · intro h
    simpa using List.find?_some h
  · rintro rfl
    cases op <;> rfl

theorem opcodeOf_eq_none_iff {b : Byte} : opcodeOf b = none ↔ ∀ op ∈ opcodes, op.code ≠ b := by
  simp [opcodeOf]

/-! ### Appended bit vectors -/

theorem append_eq_append_iff {m n : Nat} {x x' : BitVec m} {y y' : BitVec n} :
    x ++ y = x' ++ y' ↔ x = x' ∧ y = y' := by
  constructor
  · intro h
    exact ⟨by simpa only [BitVec.extractLsb'_append_eq_left] using congrArg (·.extractLsb' n m) h,
      by simpa only [BitVec.extractLsb'_append_eq_right] using congrArg (·.extractLsb' 0 n) h⟩
  · rintro ⟨rfl, rfl⟩
    rfl

theorem toNat_append_eq_add {m n : Nat} (x : BitVec m) (y : BitVec n) :
    (x ++ y).toNat = x.toNat * 2 ^ n + y.toNat := by
  rw [BitVec.toNat_append, ← Nat.shiftLeft_add_eq_or_of_lt y.isLt, Nat.shiftLeft_eq]

theorem extractLsb'_append_next (v : Word) (start m n : Nat) :
    v.extractLsb' (start + n) m ++ v.extractLsb' start n = v.extractLsb' start (m + n) :=
  BitVec.extractLsb'_append_extractLsb'_eq_extractLsb' rfl

theorem ofBool_getLsbD (v : Word) (i : Nat) : BitVec.ofBool (v.getLsbD i) = v.extractLsb' i 1 := by
  apply BitVec.eq_of_getLsbD_eq
  intro j hj
  obtain rfl : j = 0 := by omega
  simp

theorem ofBool_and_ofBool (a b : Bool) : BitVec.ofBool a &&& BitVec.ofBool b = BitVec.ofBool (a && b) := by
  cases a <;> cases b <;> rfl

/-! ### A word and its fields -/

/-- The fields of R91, all in one. -/
@[ext] structure Fields where
  rd : Reg := 0
  rs1 : Reg := 0
  rs2 : Reg := 0
  rs3 : Reg := 0
  rs4 : Reg := 0
  f0 : Bool := false
  f1 : Bool := false
  op : Byte

/-- The layout of R91, from bit 29 down. -/
def Fields.bits (f : Fields) : BitVec 30 :=
  BitVec.ofBool f.f1 ++ BitVec.ofBool f.f0 ++ f.rs4 ++ f.rs3 ++ f.rs2 ++ f.rs1 ++ f.rd ++ f.op

/-- The bits of `f` that `m` selects. -/
def Fields.masked (f m : Fields) : Fields where
  rd := f.rd &&& m.rd
  rs1 := f.rs1 &&& m.rs1
  rs2 := f.rs2 &&& m.rs2
  rs3 := f.rs3 &&& m.rs3
  rs4 := f.rs4 &&& m.rs4
  f0 := f.f0 && m.f0
  f1 := f.f1 && m.f1
  op := f.op &&& m.op

/-- The fields of a CMD value. -/
def fieldsOf (v : Word) : Fields where
  rd := fieldRd v
  rs1 := fieldRs1 v
  rs2 := fieldRs2 v
  rs3 := fieldRs3 v
  rs4 := fieldRs4 v
  f0 := fieldF0 v
  f1 := fieldF1 v
  op := fieldOp v

theorem Fields.bits_inj {f g : Fields} : f.bits = g.bits ↔ f = g := by
  refine ⟨fun h => ?_, congrArg Fields.bits⟩
  unfold Fields.bits at h
  rw [append_eq_append_iff] at h
  simp only [append_eq_append_iff, BitVec.ofBool_eq_iff_eq] at h
  obtain ⟨⟨⟨⟨⟨⟨⟨hf1, hf0⟩, hrs4⟩, hrs3⟩, hrs2⟩, hrs1⟩, hrd⟩, hop⟩ := h
  exact Fields.ext hrd hrs1 hrs2 hrs3 hrs4 hf0 hf1 hop

theorem Fields.bits_and (f m : Fields) : f.bits &&& m.bits = (f.masked m).bits := by
  unfold Fields.bits
  rw [BitVec.and_append]
  simp only [BitVec.and_append, ofBool_and_ofBool, Fields.masked]

/-- R102's sum of the shifted fields, in Horner's form. -/
theorem Fields.bits_toNat (f : Fields) :
    f.bits.toNat = ((((((f.f1.toNat * 2 ^ 1 + f.f0.toNat) * 2 ^ 4 + f.rs4.toNat) * 2 ^ 4 + f.rs3.toNat) * 2 ^ 4 +
      f.rs2.toNat) * 2 ^ 4 + f.rs1.toNat) * 2 ^ 4 + f.rd.toNat) * 2 ^ 8 + f.op.toNat := by
  unfold Fields.bits
  simp only [toNat_append_eq_add, BitVec.toNat_ofBool]

theorem fieldsOf_bits (v : Word) : (fieldsOf v).bits = v.extractLsb' 0 30 := by
  unfold Fields.bits fieldsOf fieldF0 fieldF1 fieldRd fieldRs1 fieldRs2 fieldRs3 fieldRs4 fieldOp
  simp only [ofBool_getLsbD]
  rw [extractLsb'_append_next v 28 1 1, extractLsb'_append_next v 24 _ 4, extractLsb'_append_next v 20 _ 4,
    extractLsb'_append_next v 16 _ 4, extractLsb'_append_next v 12 _ 4, extractLsb'_append_next v 8 _ 4,
    extractLsb'_append_next v 0 _ 8]

theorem high_append_fields (v : Word) : v.extractLsb' 30 34 ++ (fieldsOf v).bits = v := by
  rw [fieldsOf_bits]
  exact (extractLsb'_append_next v 0 34 30).trans BitVec.extractLsb'_eq_self

theorem low_eq_append_fields (v : Word) : v.extractLsb' 0 32 = v.extractLsb' 30 2 ++ (fieldsOf v).bits := by
  rw [fieldsOf_bits]
  exact (extractLsb'_append_next v 0 2 30).symm

/-! ### An assembled word -/

section
variable (op : Opcode) (rd rs1 rs2 rs3 rs4 : Reg) (f0 f1 : Bool)

theorem assemble_eq_append_fields :
    assemble op rd rs1 rs2 rs3 rs4 f0 f1 = 0#34 ++ Fields.bits ⟨rd, rs1, rs2, rs3, rs4, f0, f1, op.code⟩ := by
  apply BitVec.eq_of_toNat_eq
  change (BitVec.setWidth 64 (Fields.bits ⟨rd, rs1, rs2, rs3, rs4, f0, f1, op.code⟩)).toNat = _
  rw [BitVec.toNat_setWidth_of_le (by decide), toNat_append_eq_add, BitVec.toNat_zero, Nat.zero_mul, Nat.zero_add]

/-- A word is its fields and the bits above them. -/
theorem eq_assemble_iff {v : Word} :
    v = assemble op rd rs1 rs2 rs3 rs4 f0 f1 ↔
      v.extractLsb' 30 34 = 0#34 ∧ fieldsOf v = ⟨rd, rs1, rs2, rs3, rs4, f0, f1, op.code⟩ := by
  rw [assemble_eq_append_fields, ← Fields.bits_inj, ← append_eq_append_iff, high_append_fields]

theorem fieldsOf_assemble :
    fieldsOf (assemble op rd rs1 rs2 rs3 rs4 f0 f1) = ⟨rd, rs1, rs2, rs3, rs4, f0, f1, op.code⟩ :=
  ((eq_assemble_iff ..).mp rfl).2

@[simp] theorem fieldRd_assemble : fieldRd (assemble op rd rs1 rs2 rs3 rs4 f0 f1) = rd :=
  congrArg Fields.rd (fieldsOf_assemble ..)

@[simp] theorem fieldRs1_assemble : fieldRs1 (assemble op rd rs1 rs2 rs3 rs4 f0 f1) = rs1 :=
  congrArg Fields.rs1 (fieldsOf_assemble ..)

@[simp] theorem fieldRs2_assemble : fieldRs2 (assemble op rd rs1 rs2 rs3 rs4 f0 f1) = rs2 :=
  congrArg Fields.rs2 (fieldsOf_assemble ..)

@[simp] theorem fieldRs3_assemble : fieldRs3 (assemble op rd rs1 rs2 rs3 rs4 f0 f1) = rs3 :=
  congrArg Fields.rs3 (fieldsOf_assemble ..)

@[simp] theorem fieldRs4_assemble : fieldRs4 (assemble op rd rs1 rs2 rs3 rs4 f0 f1) = rs4 :=
  congrArg Fields.rs4 (fieldsOf_assemble ..)

@[simp] theorem fieldF0_assemble : fieldF0 (assemble op rd rs1 rs2 rs3 rs4 f0 f1) = f0 :=
  congrArg Fields.f0 (fieldsOf_assemble ..)

@[simp] theorem fieldF1_assemble : fieldF1 (assemble op rd rs1 rs2 rs3 rs4 f0 f1) = f1 :=
  congrArg Fields.f1 (fieldsOf_assemble ..)

/-- R102's formula: the fields do not overlap, so their concatenation is their sum. -/
theorem assemble_eq_commandWord :
    assemble op rd rs1 rs2 rs3 rs4 f0 f1 =
      Machine.commandWord op.code.toNat rd rs1 rs2 rs3 rs4 f0.toNat f1.toNat := by
  apply BitVec.eq_of_toNat_eq
  have hf0 := f0.toNat_le
  have hf1 := f1.toNat_le
  simp only [assemble_eq_append_fields, toNat_append_eq_add, Fields.bits_toNat, Machine.commandWord,
    BitVec.toNat_ofNat]
  omega

end

/-- A word with a row's opcode and nothing above bit 29 is the assembly of its fields. -/
theorem assemble_fields (hop : op.code = fieldOp v) (hhigh : v.extractLsb' 30 34 = 0#34) :
    assemble op (fieldRd v) (fieldRs1 v) (fieldRs2 v) (fieldRs3 v) (fieldRs4 v) (fieldF0 v) (fieldF1 v) = v := by
  refine ((eq_assemble_iff ..).mpr ⟨hhigh, ?_⟩).symm
  rw [hop]
  rfl

end Sys2Proof
end

section
/-! SUPPORT. What the decoder does, once (R97): the masked comparison field by field, the outcome of each
check, and exactly which words it takes. -/

namespace Sys2Proof

variable {op : Opcode} {v : Word}

/-! ### The mask and match columns of R95, by fields -/

/-- The mask column of R95: all ones in the opcode and in each reserved field. -/
def Opcode.maskFields : Opcode → Fields
  | .mulmod | .powmod | .prtest => { rs3 := 0xF, rs4 := 0xF, f0 := true, f1 := true, op := 0xFF }
  | .bred | .invmod | .proot => { rs2 := 0xF, rs3 := 0xF, rs4 := 0xF, f0 := true, f1 := true, op := 0xFF }
  | .mulfac => { rs2 := 0xF, rs3 := 0xF, rs4 := 0xF, f1 := true, op := 0xFF }
  | .mullazy => { rs4 := 0xF, f1 := true, op := 0xFF }
  | .vsub | .vsubs | .vmul => { rs3 := 0xF, f0 := true, f1 := true, op := 0xFF }
  | .vfma | .bfwd | .binv => { f1 := true, op := 0xFF }
  | .nttinit => { rd := 0xF, rs3 := 0xF, rs4 := 0xF, f1 := true, op := 0xFF }
  | .nttfwd | .nttinv => { rs2 := 0xF, rs3 := 0xF, rs4 := 0xF, op := 0xFF }

theorem Opcode.mask_eq_append_fields (op : Opcode) : op.mask = 3#2 ++ op.maskFields.bits := by
  cases op <;> rfl

theorem Opcode.pattern_eq_append_fields (op : Opcode) : op.pattern = 0#2 ++ Fields.bits { op := op.code } := by
  cases op <;> rfl

@[simp] theorem reg_and_ones (r : Reg) : r &&& 15#4 = r := BitVec.and_allOnes

@[simp] theorem byte_and_ones (b : Byte) : b &&& 255#8 = b := BitVec.and_allOnes

theorem masked_eq_pattern_iff :
    v.extractLsb' 0 32 &&& op.mask = op.pattern ↔
      v.extractLsb' 30 2 = 0#2 ∧ (fieldsOf v).masked op.maskFields = { op := op.code } := by
  have hones : v.extractLsb' 30 2 &&& 3#2 = v.extractLsb' 30 2 := BitVec.and_allOnes
  rw [low_eq_append_fields, op.mask_eq_append_fields, op.pattern_eq_append_fields, BitVec.and_append,
    append_eq_append_iff, hones, Fields.bits_and, Fields.bits_inj]

theorem high_eq_zero_iff :
    v.extractLsb' 30 34 = 0#34 ↔ v.extractLsb' 32 32 = 0#32 ∧ v.extractLsb' 30 2 = 0#2 := by
  rw [← append_eq_append_iff, extractLsb'_append_next v 30 32 2]
  rfl

/-- The checks of R97 on reserved fields, those of VFMA's `c` and NTTINIT's `omega` included. -/
abbrev ReservedFieldsZero (op : Opcode) (v : Word) : Prop :=
  v.extractLsb' 32 32 = 0#32 ∧ v.extractLsb' 0 32 &&& op.mask = op.pattern ∧
  (op = .vfma → fieldF0 v = false → fieldRs3 v = 0#4) ∧
  (op = .nttinit → fieldF0 v = false → fieldRs2 v = 0#4)

theorem reservedFieldsZero_iff :
    ReservedFieldsZero op v ↔
      v.extractLsb' 30 34 = 0#34 ∧ (fieldsOf v).masked op.maskFields = { op := op.code } ∧
      (op = .vfma → fieldF0 v = false → fieldRs3 v = 0#4) ∧
      (op = .nttinit → fieldF0 v = false → fieldRs2 v = 0#4) := by
  rw [ReservedFieldsZero, masked_eq_pattern_iff, high_eq_zero_iff]
  simp only [and_assoc]

/-! ### The outcome of each check -/

theorem decode_undefined (h : opcodeOf (fieldOp v) = none) : decode v = .error (.undefOpcode (fieldOp v)) := by
  unfold decode
  rw [h]

section
variable (hop : opcodeOf (fieldOp v) = some op)
include hop

theorem decode_reserved (h : ¬ ReservedFieldsZero op v) : decode v = .error .reservedField := by
  unfold decode
  rw [hop]
  grind

theorem decode_of_reservedFieldsZero (h : ReservedFieldsZero op v) :
    decode v = if (op = .bfwd ∨ op = .binv) ∧ evenPair (fieldRd v) = false then .error (.oddPair (fieldRd v))
      else .ok (instrOf op v) := by
  unfold decode
  rw [hop]
  grind

end

/-! ### The words the decoder takes -/

/-- The check of R97 on register pairs is the one of R96. -/
theorem instrOf_wellFormed_iff :
    (instrOf op v).wellFormed = true ↔ ¬ ((op = .bfwd ∨ op = .binv) ∧ evenPair (fieldRd v) = false) := by
  cases op <;> simp [instrOf, Instr.wellFormed]

theorem decode_eq_ok_iff {i : Instr} :
    decode v = .ok i ↔
      ∃ op, opcodeOf (fieldOp v) = some op ∧ ReservedFieldsZero op v ∧ i.wellFormed = true ∧ instrOf op v = i := by
  constructor
  · intro h
    cases hop : opcodeOf (fieldOp v) with
    | none =>
      rw [decode_undefined hop] at h
      cases h
    | some op =>
      by_cases hzero : ReservedFieldsZero op v
      · rw [decode_of_reservedFieldsZero hop hzero] at h
        split at h
        · cases h
        · next hpair =>
          cases h
          exact ⟨op, rfl, hzero, instrOf_wellFormed_iff.mpr hpair, rfl⟩
      · rw [decode_reserved hop hzero] at h
        cases h
  · rintro ⟨op, hop, hzero, hwf, rfl⟩
    rw [decode_of_reservedFieldsZero hop hzero, if_neg (instrOf_wellFormed_iff.mp hwf)]

/-! ### Flags and the operands present under a flag (R93) -/

@[simp] theorem widthFlag_widthOf (f : Bool) : widthFlag (widthOf f) = f := by cases f <;> rfl
@[simp] theorem fwdInFlag_fwdInOf (f : Bool) : fwdInFlag (fwdInOf f) = f := by cases f <;> rfl
@[simp] theorem fwdOutFlag_fwdOutOf (f : Bool) : fwdOutFlag (fwdOutOf f) = f := by cases f <;> rfl
@[simp] theorem invFactorFlag_invFactorOf (f : Bool) : invFactorFlag (invFactorOf f) = f := by cases f <;> rfl
@[simp] theorem widthOf_widthFlag (b : Width) : widthOf (widthFlag b) = b := by cases b <;> rfl
@[simp] theorem fwdInOf_fwdInFlag (k : FwdIn) : fwdInOf (fwdInFlag k) = k := by cases k <;> rfl
@[simp] theorem fwdOutOf_fwdOutFlag (k : FwdOut) : fwdOutOf (fwdOutFlag k) = k := by cases k <;> rfl
@[simp] theorem invFactorOf_invFactorFlag (k : InvFactor) : invFactorOf (invFactorFlag k) = k := by cases k <;> rfl

@[simp] theorem ite_isSome_getD (c : Option Reg) : (if c.isSome = true then some (c.getD 0#4) else none) = c := by
  cases c <;> rfl

@[simp] theorem isSome_ite_some (f : Bool) (r : Reg) : (if f = true then some r else none).isSome = f := by
  cases f <;> rfl

/-- An absent operand is encoded as a field of 0, so the check of R97 keeps the field. -/
theorem getD_ite_some {f : Bool} {r : Reg} (h : f = false → r = 0#4) :
    (if f = true then some r else none).getD 0#4 = r := by
  cases f with
  | false => exact (h rfl).symm
  | true => rfl

theorem getD_of_isSome_eq_false {c : Option Reg} (h : c.isSome = false) : c.getD 0 = 0#4 := by
  cases c with
  | none => rfl
  | some r => cases h

end Sys2Proof
end

section
/-! O1, O2, O3, O5, O6: decoding and encoding undo each other, row by row. -/

namespace Sys2Proof

open Laws.OpcodeByte (row fieldOp_assemble high_assemble)

variable {op : Opcode} {v : Word}

/-! ### Decoding after encoding -/

theorem opcodeOf_encode (i : Instr) : opcodeOf (fieldOp (encode i)) = some (row i) := by
  cases i <;> exact opcodeOf_eq_some_iff.mpr (fieldOp_assemble ..).symm

theorem reservedFieldsZero_assemble {rd rs1 rs2 rs3 rs4 : Reg} {f0 f1 : Bool}
    (h : Fields.masked ⟨rd, rs1, rs2, rs3, rs4, f0, f1, op.code⟩ op.maskFields = { op := op.code })
    (hvfma : op = .vfma → f0 = false → rs3 = 0#4) (hnttinit : op = .nttinit → f0 = false → rs2 = 0#4) :
    ReservedFieldsZero op (assemble op rd rs1 rs2 rs3 rs4 f0 f1) := by
  rw [reservedFieldsZero_iff, fieldsOf_assemble, fieldF0_assemble, fieldRs2_assemble, fieldRs3_assemble]
  exact ⟨high_assemble .., h, hvfma, hnttinit⟩

/-- The encoder puts 0 in each field its row reserves, and in the field of an absent operand. -/
theorem reservedFieldsZero_encode (i : Instr) : ReservedFieldsZero (row i) (encode i) := by
  cases i with
  | vfma rd rs1 rs2 c rs4 =>
    exact reservedFieldsZero_assemble (by simp [row, Fields.masked, Opcode.maskFields])
      (fun _ => getD_of_isSome_eq_false) nofun
  | nttinit rs1 omega =>
    exact reservedFieldsZero_assemble (by simp [row, Fields.masked, Opcode.maskFields]) nofun
      (fun _ => getD_of_isSome_eq_false)
  | _ =>
    exact reservedFieldsZero_assemble (by simp [row, Fields.masked, Opcode.maskFields]) nofun nofun

theorem instrOf_encode (i : Instr) : instrOf (row i) (encode i) = i := by
  cases i <;> simp [row, encode, instrOf]

/-- Settles O1: the encoded word selects its command's row, passes the row's checks and has the command's
operands as its fields. -/
theorem decodeOfEncodeIsIdentity : Obligations.DecodeOfEncodeIsIdentity := by
  intro i hwf
  exact decode_eq_ok_iff.mpr ⟨row i, opcodeOf_encode i, reservedFieldsZero_encode i, hwf, instrOf_encode i⟩

/-! ### Encoding after decoding -/

/-- The fields a command does not keep are those its row reserves, so they are 0. -/
theorem encode_instrOf (h : ReservedFieldsZero op v) :
    encode (instrOf op v) =
      assemble op (fieldRd v) (fieldRs1 v) (fieldRs2 v) (fieldRs3 v) (fieldRs4 v) (fieldF0 v) (fieldF1 v) := by
  obtain ⟨-, hmask, hvfma, hnttinit⟩ := reservedFieldsZero_iff.mp h
  cases op with
  | vfma | nttinit => simp_all [Fields.masked, Opcode.maskFields, fieldsOf, instrOf, encode, getD_ite_some]
  | _ => simp_all [Fields.masked, Opcode.maskFields, fieldsOf, instrOf, encode]

/-- Settles O2: a word the decoder takes is the assembly of its fields, and so is the word of its command. -/
theorem encodeOfDecodeIsIdentity : Obligations.EncodeOfDecodeIsIdentity := by
  intro v i h
  obtain ⟨op, hop, hzero, hwf, rfl⟩ := decode_eq_ok_iff.mp h
  obtain ⟨hhigh, -⟩ := reservedFieldsZero_iff.mp hzero
  exact ⟨hwf, (encode_instrOf hzero).trans (assemble_fields (opcodeOf_eq_some_iff.mp hop) hhigh)⟩

/-! ### R102's formula -/

theorem widthFlag_toNat (b : Width) : (widthFlag b).toNat = Machine.widthBit b := by cases b <;> rfl

theorem assemble_width_eq_commandWord (op : Opcode) (rd rs1 rs2 rs3 rs4 : Reg) (b : Width) :
    assemble op rd rs1 rs2 rs3 rs4 (widthFlag b) false =
      Machine.commandWord op.code.toNat rd rs1 rs2 rs3 rs4 (Machine.widthBit b) 0 := by
  rw [assemble_eq_commandWord, widthFlag_toNat]
  rfl

/-- Settles O3: each command's word is assembled from its row, its operands and its flags, as the formula
names them. -/
theorem encodingFollowsWordFormula : Obligations.EncodingFollowsWordFormula :=
  ⟨fun _ _ _ => assemble_eq_commandWord .mulmod .., fun _ _ => assemble_eq_commandWord .bred ..,
    fun _ _ _ => assemble_eq_commandWord .powmod .., fun _ _ => assemble_eq_commandWord .invmod ..,
    fun _ _ _ => assemble_eq_commandWord .prtest .., fun _ _ => assemble_eq_commandWord .proot ..,
    fun _ _ _ => assemble_width_eq_commandWord .mulfac ..,
    fun _ _ _ _ _ => assemble_width_eq_commandWord .mullazy ..,
    fun _ _ _ _ => assemble_eq_commandWord .vsub .., fun _ _ _ _ => assemble_eq_commandWord .vsubs ..,
    fun _ _ _ _ _ => assemble_eq_commandWord .vfma .., fun _ _ _ _ => assemble_eq_commandWord .vfma ..,
    fun _ _ _ _ => assemble_eq_commandWord .vmul ..,
    fun _ => assemble_eq_commandWord .nttinit .., fun _ _ => assemble_eq_commandWord .nttinit ..,
    fun _ _ _ _ _ _ => assemble_width_eq_commandWord .bfwd ..,
    fun _ _ => ⟨assemble_eq_commandWord .nttfwd .., assemble_eq_commandWord .nttfwd ..,
      assemble_eq_commandWord .nttfwd .., assemble_eq_commandWord .nttfwd ..⟩,
    fun _ _ _ _ _ _ => assemble_width_eq_commandWord .binv ..,
    fun _ _ => ⟨assemble_eq_commandWord .nttinv .., assemble_eq_commandWord .nttinv ..,
      assemble_eq_commandWord .nttinv .., assemble_eq_commandWord .nttinv ..⟩,
    rfl⟩

/-! ### The order of the checks -/

theorem evenPair_eq_not_bit (r : Reg) : evenPair r = !r.getLsbD 0 := by
  revert r
  decide

/-- R97 tests bit 8 of the word. -/
theorem evenPair_fieldRd_eq_false_iff : evenPair (fieldRd v) = false ↔ v.getLsbD 8 = true := by
  rw [evenPair_eq_not_bit, fieldRd, BitVec.getLsbD_extractLsb', Bool.not_eq_false']
  rfl

/-- Settles O6: the outcome of each check, and `encodeOfDecodeIsIdentity` for the command of a word that
passes them all. -/
theorem decoderChecksInOrder : Obligations.DecoderChecksInOrder := by
  intro v
  refine ⟨decode_undefined, fun op hop => ⟨fun hreserved => decode_reserved hop ?_, ?_⟩⟩
  · rintro ⟨hhigh, hmask, hvfma, hnttinit⟩
    rcases hreserved with h | h | ⟨hrow, hf0, hrs3⟩ | ⟨hrow, hf0, hrs2⟩
    · exact h hhigh
    · exact h hmask
    · exact hrs3 (hvfma hrow hf0)
    · exact hrs2 (hnttinit hrow hf0)
  · intro hhigh hmask hvfma hnttinit
    have hdecode := decode_of_reservedFieldsZero hop ⟨hhigh, hmask, hvfma, hnttinit⟩
    simp only [evenPair_fieldRd_eq_false_iff] at hdecode
    refine ⟨fun hrow hodd => hdecode.trans (if_pos ⟨hrow, hodd⟩), fun heven => ?_⟩
    rw [if_neg fun ⟨hrow, hodd⟩ => Bool.false_ne_true ((heven hrow).symm.trans hodd)] at hdecode
    exact ⟨_, hdecode, (encodeOfDecodeIsIdentity v _ hdecode).2⟩

/-! ### The undefined opcodes -/

/-- Settles O5: a byte is undefined when it is no row's opcode, and the opcodes are four runs of numbers. -/
theorem undefinedOpcodesAreTheListedRanges : Obligations.UndefinedOpcodesAreTheListedRanges := by
  refine ⟨fun b => ?_, rfl⟩
  simp only [opcodeOf_eq_none_iff, opcodes, List.forall_mem_cons, List.not_mem_nil, false_implies, implies_true,
    and_true, Opcode.code, ne_eq, ← BitVec.toNat_inj, BitVec.reduceToNat]
  omega

end Sys2Proof
end

section
/-! O8: the engine's turn with a word the decoder rejects. -/

namespace Sys2Proof.Machine

variable {s : State} {v : Word}

theorem engineStep_rejected {e : DecodeError} (hv : s.inflight = some v) (hd : decode v = .error e) :
    engineStep s = .next (s.fail (illegal e)) := by
  unfold engineStep
  simp only [hv, hd, complete]

/-- The codes and INDEX of R242 for each ILLEGAL cause. -/
theorem engineStep_reports_illegal (hv : s.inflight = some v) :
    (∀ op, decode v = .error (.undefOpcode op) →
      engineStep s = .next (s.reported 5 0x01 (BitVec.ofNat 32 op.toNat))) ∧
    (decode v = .error .reservedField → engineStep s = .next (s.reported 5 0x02 0)) ∧
    (∀ rd, decode v = .error (.oddPair rd) →
      engineStep s = .next (s.reported 5 0x03 (BitVec.ofNat 32 rd.toNat))) :=
  ⟨fun _ hd => engineStep_rejected hv hd, engineStep_rejected hv, fun _ hd => engineStep_rejected hv hd⟩

/-- Settles O8: both forms of the engine's turn decode the command in flight and report its rejection. -/
theorem stepReportsIllegalWord : Obligations.StepReportsIllegalWord := by
  intro s v hv
  refine ⟨fun hnone => ?_, fun es hengine => ?_⟩
  · rw [step_no_event hnone]
    exact engineStep_reports_illegal hv
  · rw [step_event hengine]
    exact engineStep_reports_illegal (s := s.setInputs es) hv

end Sys2Proof.Machine
end

section
/-! SUPPORT. A command's checks one at a time: a failed check is the whole outcome, a passed one leaves the
outcome to what follows (R12, R241). -/

namespace Sys2Proof.Machine

variable {s : State} {c : Except CmdError Unit} {e : CmdError}

/-! ### The outcome of one check -/

theorem require_of_true {b : Bool} (h : b = true) (cause : Cause) (index : Nat) :
    require b cause index = .ok () := (require_ok_iff b cause index ()).2 h

theorem require_of_false {b : Bool} (h : b = false) (cause : Cause) (index : Nat) :
    require b cause index = .error ⟨cause, index⟩ := (require_error_iff b cause index _).2 ⟨h, rfl⟩

theorem checkQ_of_inRange (h : s.QInRange) : checkQ s = .ok () := (checkQ_ok_iff s ()).2 h

theorem checkQ_of_not_inRange (h : ¬ s.QInRange) : checkQ s = .error ⟨.qRange, 0⟩ :=
  require_of_false (decide_eq_false h) _ _

/-! ### A check and what follows it -/

section
variable {β : Type} {f : Unit → Except CmdError β}

theorem bind_of_check_failed (h : c = .error e) : (c >>= f) = .error e :=
  (check_bind_error_iff c f e).2 (.inl h)

theorem bind_of_check_passed (h : c = .ok ()) : (c >>= f) = f () := by
  rw [h]
  rfl

end

/-! ### Completion after a check -/

section
variable {f : Unit → Except CmdError State}

theorem complete_of_check_failed (h : c = .error e) : complete s (c >>= f) = .next (s.fail e) := by
  rw [bind_of_check_failed h, complete_error]

theorem complete_of_check_passed (h : c = .ok ()) : complete s (c >>= f) = complete s (f ()) := by
  rw [bind_of_check_passed h]

/-- `CheckQ()` fails (R121). -/
theorem complete_checkQ_failed (h : ¬ s.QInRange) :
    complete s (checkQ s >>= f) = .next (s.reported 1 0x10 0) :=
  complete_of_check_failed (checkQ_of_not_inRange h)

theorem complete_checkQ_passed (h : s.QInRange) : complete s (checkQ s >>= f) = complete s (f ()) :=
  complete_of_check_passed (checkQ_of_inRange h)

/-- An operand is out of range (R122). -/
theorem complete_checkBelow_failed {bound : Nat} {r : Reg} (h : bound ≤ s.valX r) :
    complete s (checkBelow s bound r >>= f) = .next (s.reported 1 0x11 (BitVec.ofNat 32 r.toNat)) :=
  complete_of_check_failed (require_of_false (decide_eq_false (Nat.not_lt.2 h)) _ _)

theorem complete_checkBelow_passed {bound : Nat} {r : Reg} (h : s.valX r < bound) :
    complete s (checkBelow s bound r >>= f) = complete s (f ()) :=
  complete_of_check_passed ((checkBelow_ok_iff s bound r ()).2 h)

end

/-- The success of a command whose only write is `x[rd] <- v`. -/
theorem complete_putX (s u : State) (rd : Reg) (v : Nat) :
    complete u (.ok (s.putX rd v)) = .next (s.withResult rd v) := rfl

end Sys2Proof.Machine
end

section
/-! O16, O17, O18, O19, O20: the ModArith commands that take no draw. -/

namespace Sys2Proof.Machine

/-- The word of a well-formed command decodes to it. -/
theorem decode_of_encode_eq {i : Instr} {v : Word} (hword : encode i = v) (hwf : i.wellFormed = true) :
    decode v = .ok i :=
  hword ▸ decodeOfEncodeIsIdentity i hwf

/-- Settles O16: the checks in order, each by its own outcome. -/
theorem mulmodMeaning : Obligations.MulmodMeaning := fun rd rs1 rs2 s =>
  ⟨decode_of_encode_eq (i := .mulmod rd rs1 rs2) (assemble_eq_commandWord .mulmod ..) rfl,
    fun hq => complete_checkQ_failed hq,
    fun hq h1 => (complete_checkQ_passed hq).trans (complete_checkBelow_failed h1),
    fun hq h1 h2 => (complete_checkQ_passed hq).trans <| (complete_checkBelow_passed h1).trans
      (complete_checkBelow_failed h2),
    fun hq h1 h2 => (complete_checkQ_passed hq).trans <| (complete_checkBelow_passed h1).trans <|
      (complete_checkBelow_passed h2).trans (complete_putX s s rd _)⟩

/-- Settles O17: `CheckQ()` is the only check. -/
theorem bredMeaning : Obligations.BredMeaning := fun rd rs1 s =>
  ⟨decode_of_encode_eq (i := .bred rd rs1) (assemble_eq_commandWord .bred ..) rfl,
    fun hq => complete_checkQ_failed hq,
    fun hq => (complete_checkQ_passed hq).trans (complete_putX s s rd _)⟩

/-- Settles O18: repeated squaring computes the power for every u64 exponent (`powMod_eq`). -/
theorem powmodMeaning : Obligations.PowmodMeaning := by
  intro rd rs1 rs2 s
  refine ⟨decode_of_encode_eq (i := .powmod rd rs1 rs2) (assemble_eq_commandWord .powmod ..) rfl,
    fun hq => complete_checkQ_failed hq, fun hq => ?_⟩
  rw [← powMod_eq _ _ _ hq.1 (s.valX_lt rs2)]
  exact (complete_checkQ_passed hq).trans (complete_putX s s rd _)

/-- Settles O19: a residue coprime to Q has the inverse that the extended Euclidean loop finds
(`invMod_spec`). -/
theorem invmodMeaning : Obligations.InvmodMeaning := by
  intro rd rs1 s
  refine ⟨decode_of_encode_eq (i := .invmod rd rs1) (assemble_eq_commandWord .invmod ..) rfl,
    fun hq => complete_checkQ_failed hq, fun hq hgcd => ?_, fun hq hgcd => ?_⟩
  · exact (complete_checkQ_passed hq).trans
      (complete_of_check_failed (require_of_false (decide_eq_false hgcd) _ _))
  · obtain ⟨hpos, hlt, hmul⟩ := invMod_spec (s.valX rs1 % s.modulus) s.modulus hq.1 (by rwa [Nat.mod_mod])
    rw [Nat.mod_mul_mod] at hmul
    exact ⟨_, hpos, hlt, hmul, (complete_checkQ_passed hq).trans <|
      (complete_of_check_passed (require_of_true (decide_eq_true hgcd) _ _)).trans (complete_putX s s rd _)⟩

/-- Settles O20: the test is decided in exact arithmetic (`isPrimRoot_iff`). -/
theorem prtestMeaning : Obligations.PrtestMeaning := by
  intro rd rs1 rs2 s
  refine ⟨decode_of_encode_eq (i := .prtest rd rs1 rs2) (assemble_eq_commandWord .prtest ..) rfl,
    fun hq => complete_checkQ_failed hq, fun hq => ?_⟩
  have htest := isPrimRoot_iff (s.valX rs1) (s.valX rs2) s.modulus hq.1
    ((s.valX_lt rs2).trans (by norm_num))
  rw [← if_congr htest rfl rfl]
  exact (complete_checkQ_passed hq).trans (complete_putX s s rd _)

end Sys2Proof.Machine
end

section
/-! O4: words written out in the manual. -/

namespace Sys2Proof

/-- Settles O4: each word is the encoding of its command, which decodes to it. -/
theorem manualWordsDecode : Obligations.ManualWordsDecode :=
  ⟨decodeOfEncodeIsIdentity (.mulmod 3 1 2) rfl, decodeOfEncodeIsIdentity (.mullazy 4 1 2 3 .b52) rfl,
    decodeOfEncodeIsIdentity (.vfma 4 1 2 (some 3) 5) rfl, decodeOfEncodeIsIdentity (.vfma 4 1 2 none 5) rfl,
    decodeOfEncodeIsIdentity (.nttinit 1 (some 2)) rfl,
    decodeOfEncodeIsIdentity (.bfwd 6 1 2 3 4 .b52) rfl,
    decodeOfEncodeIsIdentity (.nttfwd 3 2 .two .four) rfl⟩

end Sys2Proof
end

section
/-! SUPPORT. The least root the search answers with (R128, R129): modulo a prime the primitive m-th roots of
unity are the odd powers of any one of them, and the loop of R128 takes their minimum. -/

namespace Sys2Proof.Machine

/-! ### The loop of R128 takes a minimum -/

theorem leastOddPower_le_best (q g2 count cur best : Nat) : leastOddPower q g2 count cur best ≤ best := by
  induction count generalizing cur best with
  | zero => exact le_rfl
  | succ count ih => exact (ih _ _).trans (min_le_left _ _)

theorem leastOddPower_le_step {q g2 count k : Nat} (cur best : Nat) (hk : k < count) :
    leastOddPower q g2 count cur best ≤ cur * g2 ^ (k + 1) % q := by
  induction count generalizing cur best k with
  | zero => omega
  | succ count ih =>
    rw [leastOddPower]
    cases k with
    | zero =>
      rw [Nat.zero_add, pow_one]
      exact (leastOddPower_le_best ..).trans (min_le_right _ _)
    | succ k =>
      calc leastOddPower q g2 count (cur * g2 % q) (min best (cur * g2 % q))
          ≤ cur * g2 % q * g2 ^ (k + 1) % q := ih _ _ (by omega)
        _ = cur * g2 ^ (k + 1 + 1) % q := by rw [Nat.mod_mul_mod, mul_assoc, ← pow_succ']

/-- The loop as R128 starts it, with g and g² modulo q. -/
theorem leastOddPower_le_oddPower {q g count k : Nat} (hg : g < q) (hk : k ≤ count) :
    leastOddPower q (g * g % q) count g g ≤ g ^ (2 * k + 1) % q := by
  cases k with
  | zero =>
    rw [Nat.mul_zero, Nat.zero_add, pow_one, Nat.mod_eq_of_lt hg]
    exact leastOddPower_le_best ..
  | succ k =>
    refine (leastOddPower_le_step g g hk).trans_eq ?_
    rw [Nat.mul_mod, ← Nat.pow_mod, ← Nat.mul_mod, ← pow_two, ← pow_mul, ← pow_succ']

/-! ### The roots of −1 are the odd powers of one of them -/

/-- In a field where −1 ≠ 1 an element whose 2^e-th power is −1 has order 2^(e+1), so it generates the
others, and only its odd powers are roots of −1. -/
theorem exists_oddPower {K : Type} [Field K] (hne : (-1 : K) ≠ 1) {g r : K} {e : Nat}
    (hg : g ^ 2 ^ e = -1) (hr : r ^ 2 ^ e = -1) : ∃ k < 2 ^ e, g ^ (2 * k + 1) = r := by
  have hsquare : ∀ {x : K}, x ^ 2 ^ e = -1 → x ^ 2 ^ (e + 1) = 1 := fun hx => by
    rw [pow_succ, pow_mul, hx, neg_one_sq]
  have hprim : IsPrimitiveRoot g (2 ^ (e + 1)) :=
    IsPrimitiveRoot.iff_orderOf.2 (orderOf_eq_prime_pow (by rwa [hg]) (hsquare hg))
  obtain ⟨i, hi, rfl⟩ := hprim.eq_pow_of_pow_eq_one (hsquare hr)
  obtain ⟨k, rfl | rfl⟩ := Nat.even_or_odd' i
  · rw [← pow_mul, mul_comm, pow_mul, hg, pow_mul, neg_one_sq, one_pow] at hr
    exact absurd hr.symm hne
  · exact ⟨k, by rw [pow_succ] at hi; omega, rfl⟩

/-- A residue test against q − 1 is a test against −1 in the integers modulo q. -/
theorem pow_mod_eq_pred_iff {q : Nat} (hq : 2 ≤ q) (r e : Nat) :
    r ^ e % q = q - 1 ↔ (r : ZMod q) ^ e = -1 := by
  have hpred : ((q - 1 : Nat) : ZMod q) = -1 := by
    rw [Nat.cast_pred (by omega), ZMod.natCast_self, zero_sub]
  rw [← hpred, ← Nat.cast_pow, ZMod.natCast_eq_natCast_iff', Nat.mod_eq_of_lt (by omega : q - 1 < q)]

theorem RootOfNegOne.exists_oddPower {q e g r : Nat} (hprime : q.Prime) (hq : 2 < q)
    (hg : RootOfNegOne q (2 ^ e) g) (hr : RootOfNegOne q (2 ^ e) r) :
    ∃ k < 2 ^ e, g ^ (2 * k + 1) % q = r := by
  have : Fact q.Prime := ⟨hprime⟩
  have : Fact (2 < q) := ⟨hq⟩
  obtain ⟨k, hk, heq⟩ := Machine.exists_oddPower ZMod.neg_one_ne_one
    ((pow_mod_eq_pred_iff hprime.two_le _ _).1 hg.2) ((pow_mod_eq_pred_iff hprime.two_le _ _).1 hr.2)
  rw [← Nat.cast_pow, ZMod.natCast_eq_natCast_iff', Nat.mod_eq_of_lt hr.1] at heq
  exact ⟨k, hk, heq⟩

/-! ### What the search asks of its arguments -/

/-- "m a power of two >= 2, q prime and (q − 1) mod m = 0" (R128), with m in range of the test of R19. -/
structure Searchable (m q : Nat) : Prop where
  prime : q.Prime
  two_le_order : 2 ≤ m
  order_lt : m < 2 ^ 65
  isPow2 : ∃ e, m = 2 ^ e
  order_dvd : (q - 1) % m = 0

section
variable {m q : Nat} (h : Searchable m q)
include h

theorem Searchable.exists_half : ∃ e, m / 2 = 2 ^ e := by
  have hm := h.two_le_order
  obtain ⟨e, he⟩ := h.isPow2
  cases e with
  | zero => omega
  | succ e => exact ⟨e, by rw [he, pow_succ, Nat.mul_div_cancel _ two_pos]⟩

theorem Searchable.two_lt_modulus : 2 < q := by
  have hq := h.prime.two_le
  have hm := h.two_le_order
  have hle := Nat.le_of_dvd (by omega) (Nat.dvd_of_mod_eq_zero h.order_dvd)
  omega

/-- The loop of R128 returns the least root, whichever root it starts from (R129). -/
theorem Searchable.leastRoot_leastOddPower {g : Nat} (hg : RootOfNegOne q (m / 2) g) :
    LeastRoot (leastOddPower q (g * g % q) (m / 2 - 1) g g) m q := by
  have hq := h.two_lt_modulus
  have hroot := leastOddPower_root (count := m / 2 - 1) (hg.sq_pow h.prime.two_le) hg hg
  obtain ⟨e, he⟩ := h.exists_half
  rw [LeastRoot]
  rw [he] at hg hroot ⊢
  obtain ⟨hlt, hpow⟩ := hroot
  refine ⟨⟨Nat.one_le_iff_ne_zero.2 fun hzero => ?_, hlt, hpow⟩, fun r _ hr hrpow => ?_⟩
  · rw [hzero, zero_pow (Nat.two_pow_pos e).ne', Nat.zero_mod] at hpow
    omega
  · obtain ⟨k, hk, rfl⟩ := hg.exists_oddPower h.prime hq ⟨hr, hrpow⟩
    exact leastOddPower_le_oddPower hg.1 (by omega)

end

/-! ### The search of a state -/

section
variable {s : State} {m : Nat} (h : Searchable m s.modulus)
include h

theorem candidate_eq (k : Nat) :
    candidate s.drawAt m s.modulus k =
      ((s.drawAt k).toNat % s.modulus) ^ ((s.modulus - 1) / m) % s.modulus :=
  powMod_eq _ _ _ h.prime.two_le
    ((Nat.div_le_self _ _).trans_lt ((Nat.sub_le _ _).trans_lt s.modulus_lt))

theorem isPrimRoot_candidate_iff (k : Nat) :
    isPrimRoot (candidate s.drawAt m s.modulus k) m s.modulus = true ↔ s.Hits m k := by
  rw [isPrimRoot_iff _ _ _ h.prime.two_le h.order_lt, candidate_eq h]

theorem isPrimRoot_candidate_eq_false_iff (k : Nat) :
    isPrimRoot (candidate s.drawAt m s.modulus k) m s.modulus = false ↔ ¬ s.Hits m k := by
  rw [← isPrimRoot_candidate_iff h, Bool.not_eq_true]

/-- A draw that hits gives a root of −1 to start the loop from (R128). -/
theorem rootOfNegOne_candidate {k : Nat} (hit : s.Hits m k) :
    RootOfNegOne s.modulus (m / 2) (candidate s.drawAt m s.modulus k) := by
  rw [candidate_eq h]
  exact ⟨Nat.mod_lt _ h.prime.pos, hit⟩

/-- The first draw that hits decides: the search answers with the least root, whatever the draws were
(R128, R129). -/
theorem minPrimRoot_of_hit {k : Nat} (hk : k < s.params.prootMaxAttempts) (hit : s.Hits m k)
    (hmiss : ∀ j < k, ¬ s.Hits m j) :
    ∃ r, LeastRoot r m s.modulus ∧ minPrimRoot s m s.modulus = (some r, s.useDraws (k + 1)) := by
  have hcases := rootSearch_cases s.drawAt m s.modulus s.params.prootMaxAttempts 0
  simp only [Nat.zero_add, isPrimRoot_candidate_iff h, isPrimRoot_candidate_eq_false_iff h] at hcases
  rcases hcases with ⟨j, -, hfirst, hbefore, hfound⟩ | ⟨hall, -⟩
  · obtain rfl : j = k := by
      rcases Nat.lt_trichotomy j k with hlt | heq | hgt
      · exact absurd hfirst (hmiss j hlt)
      · exact heq
      · exact absurd hit (hbefore k hgt)
    exact ⟨_, h.leastRoot_leastOddPower (rootOfNegOne_candidate h hit), by rw [minPrimRoot, hfound]⟩
  · exact absurd hit (hall k hk)

/-- When every draw misses, the search has no answer (R129). -/
theorem minPrimRoot_of_misses (hmiss : ∀ k < s.params.prootMaxAttempts, ¬ s.Hits m k) :
    minPrimRoot s m s.modulus = (none, s.useDraws s.params.prootMaxAttempts) := by
  have hcases := rootSearch_cases s.drawAt m s.modulus s.params.prootMaxAttempts 0
  simp only [Nat.zero_add, isPrimRoot_candidate_iff h, isPrimRoot_candidate_eq_false_iff h] at hcases
  rcases hcases with ⟨j, hj, hfirst, -⟩ | ⟨-, hnone⟩
  · exact absurd hfirst (hmiss j hj)
  · rw [minPrimRoot, hnone]

end

end Sys2Proof.Machine
end

section
/-! O21: PROOT reports its first failing check, or it answers as the search does. -/

namespace Sys2Proof.Machine

variable {rd rs1 : Reg} {s u : State}

/-! ### The checks of PROOT (R127) -/

/-- When the checks before the search pass. -/
theorem prootChecks_ok_iff (rs1 : Reg) (s : State) (v : Unit) :
    prootChecks rs1 s = .ok v ↔ s.QInRange ∧ (2 ≤ s.valX rs1 ∧ ∃ e, s.valX rs1 = 2 ^ e) ∧
      s.modulus.Prime ∧ (s.modulus - 1) % s.valX rs1 = 0 := by
  simp only [prootChecks, check_bind_ok_iff, checkQ_ok_iff, require_ok_iff, decide_eq_true_eq, isPrime_iff,
    isPow2_iff]

section
variable (hq : s.QInRange)
include hq

theorem prootChecks_degree (hm : ¬ (2 ≤ s.valX rs1 ∧ ∃ e, s.valX rs1 = 2 ^ e)) :
    prootChecks rs1 s = .error ⟨.degree, rs1.toNat⟩ := by
  rw [← isPow2_iff] at hm
  exact (bind_of_check_passed (checkQ_of_inRange hq)).trans
    (bind_of_check_failed (require_of_false (decide_eq_false hm) _ _))

variable (hm : 2 ≤ s.valX rs1 ∧ ∃ e, s.valX rs1 = 2 ^ e)
include hm

theorem prootChecks_notPrime (hp : ¬ s.modulus.Prime) : prootChecks rs1 s = .error ⟨.notPrime, 0⟩ := by
  rw [← isPow2_iff] at hm
  rw [← isPrime_iff, Bool.not_eq_true] at hp
  exact (bind_of_check_passed (checkQ_of_inRange hq)).trans <|
    (bind_of_check_passed (require_of_true (decide_eq_true hm) _ _)).trans
      (bind_of_check_failed (require_of_false hp _ _))

theorem prootChecks_not1Mod2n (hp : s.modulus.Prime) (hmod : (s.modulus - 1) % s.valX rs1 ≠ 0) :
    prootChecks rs1 s = .error ⟨.not1Mod2n, rs1.toNat⟩ := by
  rw [← isPow2_iff] at hm
  rw [← isPrime_iff] at hp
  exact (bind_of_check_passed (checkQ_of_inRange hq)).trans <|
    (bind_of_check_passed (require_of_true (decide_eq_true hm) _ _)).trans <|
      (bind_of_check_passed (require_of_true hp _ _)).trans
        (require_of_false (decide_eq_false hmod) _ _)

end

/-! ### The outcome of PROOT -/

theorem exec_proot_of_failed_check {e : CmdError} (h : prootChecks rs1 s = .error e) :
    exec (.proot rd rs1) s = .next (s.fail e) := by
  rw [exec, execProot, h]
  rfl

section
variable (h : prootChecks rs1 s = .ok ())
include h

theorem exec_proot_of_root {r : Nat} (hsearch : minPrimRoot s (s.valX rs1) s.modulus = (some r, u)) :
    exec (.proot rd rs1) s = .next (u.withResult rd r) := by
  rw [exec, execProot, h]
  simp only [hsearch]
  exact complete_putX u u rd r

theorem exec_proot_of_no_root (hsearch : minPrimRoot s (s.valX rs1) s.modulus = (none, u)) :
    exec (.proot rd rs1) s = .next (u.reported 2 0x20 0) := by
  rw [exec, execProot, h]
  simp only [hsearch]
  rfl

end

/-- Settles O21: the first failing check decides, and after them the first draw that hits
(`minPrimRoot_of_hit`). -/
theorem prootReturnsLeastRoot : Obligations.ProotReturnsLeastRoot := by
  intro rd rs1 s
  refine ⟨decode_of_encode_eq (i := .proot rd rs1) (assemble_eq_commandWord .proot ..) rfl,
    fun hq => exec_proot_of_failed_check (bind_of_check_failed (checkQ_of_not_inRange hq)),
    fun hq hm => exec_proot_of_failed_check (prootChecks_degree hq hm), fun hq hm =>
      ⟨fun hp => exec_proot_of_failed_check (prootChecks_notPrime hq hm hp),
        fun hp hmod => exec_proot_of_failed_check (prootChecks_not1Mod2n hq hm hp hmod),
        fun hp hmod => ?_⟩⟩
  have hchecks := (prootChecks_ok_iff rs1 s ()).2 ⟨hq, hm, hp, hmod⟩
  have hsearchable : Searchable (s.valX rs1) s.modulus :=
    ⟨hp, hm.1, (s.valX_lt rs1).trans (by norm_num), hm.2, hmod⟩
  refine ⟨fun k hk hit hmiss => ?_, fun hmiss => ?_⟩
  · obtain ⟨r, hleast, hsearch⟩ := minPrimRoot_of_hit hsearchable hk hit hmiss
    exact ⟨r, hleast, exec_proot_of_root hchecks hsearch⟩
  · exact exec_proot_of_no_root hchecks (minPrimRoot_of_misses hsearchable hmiss)

end Sys2Proof.Machine
end

section
/-! SUPPORT. A successful NTTINIT leaves the tables of its parameters and nothing else (R191, D44). -/

namespace Sys2Proof.Machine

variable {s : State} {n q w : Nat}

/-- Word k of a table is k words after its first one (R66). -/
theorem tmemOff_eq_add (tb k : Nat) : tmemOff tb k = tmemOff tb 0 + 8 * k := by
  unfold tmemOff
  omega

theorem State.byteAt_tWrite_outside (s : State) {tb a : Nat} {vs : List Nat}
    (h : a < tmemOff tb 0 ∨ tmemOff tb vs.length ≤ a) : (s.tWrite tb vs).byteAt a = s.byteAt a := by
  rw [State.tWrite, State.byteAt_writeWords_outside]
  rwa [List.length_map, ← tmemOff_eq_add]

theorem State.byteAt_latchNtt (s : State) (regs : NttRegs) (a : Nat) : (s.latchNtt regs).byteAt a = s.byteAt a :=
  rfl

/-- A byte outside the first words of the six tables. -/
theorem State.byteAt_writeTables_outside (s : State) {r ri : List Nat} {a : Nat} (hri : ri.length = r.length)
    (h : ∀ tb < 6, a < tmemOff tb 0 ∨ tmemOff tb r.length ≤ a) :
    (s.writeTables q r ri).byteAt a = s.byteAt a := by
  have hwrite : ∀ (u : State) {tb : Nat} {vs : List Nat}, tb < 6 → vs.length = r.length →
      (u.tWrite tb vs).byteAt a = u.byteAt a := fun u _ _ htb hlen =>
    u.byteAt_tWrite_outside (hlen ▸ h _ htb)
  have hshadow : ∀ {b : Width} {table : List Nat}, table.length = r.length →
      (shadow q b table).length = r.length := (shadow_length _ _).trans
  rw [State.writeTables, hwrite _ (by omega) (hshadow hri), hwrite _ (by omega) (hshadow hri),
    hwrite _ (by omega) (hshadow rfl), hwrite _ (by omega) (hshadow rfl), hwrite _ (by omega) hri,
    hwrite _ (by omega) rfl]

theorem TableParams.byteAt_buildTables_outside (h : TableParams s.params n q w) {a : Nat}
    (ha : ∀ tb < 6, a < tmemOff tb 0 ∨ tmemOff tb n ≤ a) : (buildTables s n q w).byteAt a = s.byteAt a := by
  rw [buildTables, State.byteAt_latchNtt]
  exact s.byteAt_writeTables_outside (h.buildRI_length.trans h.buildR_length.symm) (by rwa [h.buildR_length])

/-- What a successful NTTINIT leaves (R191). -/
theorem TableParams.tablesBuilt (hlegal : s.params.Legal) (h : TableParams s.params n q w) :
    TablesBuilt s (buildTables s n q w).retire n q w := by
  have hsame := retire_sameMemory (buildTables s n q w)
  have hhold := buildTables_hold h (h.degree_le.trans (nmax_le_of_legal hlegal))
  refine ⟨?_, hhold.congr hsame.params hsame.ntt hsame.tRead,
    fun a ha => (hsame.byteAt a).trans (h.byteAt_buildTables_outside ha), ?_⟩
  · rw [hsame.ntt, buildTables_ntt]
    exact ⟨rfl, h.latched⟩
  · obtain ⟨mem, ntt, heq⟩ := buildTables_eq s n q w
    rw [heq, State.retire]

end Sys2Proof.Machine
end

section
/-! O31: NTTINIT without a root builds the tables of the root the search answers with. -/

namespace Sys2Proof.Machine

section
variable {rs1 : Reg} {s u : State} {w : Nat} (h : nttinitChecks rs1 s = .ok ())
include h

theorem exec_nttinit_of_root (hsearch : minPrimRoot s (2 * s.valX rs1) s.modulus = (some w, u)) :
    exec (.nttinit rs1 none) s = .next (buildTables u (s.valX rs1) s.modulus w).retire := by
  rw [exec, execNttinit, h]
  simp only [hsearch, complete_ok]

theorem exec_nttinit_of_no_root (hsearch : minPrimRoot s (2 * s.valX rs1) s.modulus = (none, u)) :
    exec (.nttinit rs1 none) s = .next (u.reported 2 0x20 0) := by
  rw [exec, execNttinit, h]
  simp only [hsearch]
  rfl

end

/-- Settles O31: the search answers with the least root of order 2n, whose tables are built after the draws. -/
theorem nttinitSearchBuildsLeastRootTables : Obligations.NttinitSearchBuildsLeastRootTables := by
  intro rs1 s hlegal hq htwo hmax hpow hp hmod
  have hchecks := (nttinitChecks_ok_iff rs1 s ()).2 ⟨hq, ⟨htwo, hmax, hpow⟩, hp, hmod⟩
  have hn := s.valX_lt rs1
  obtain ⟨e, he⟩ := (isPow2_iff _).1 hpow
  have hsearchable : Searchable (2 * s.valX rs1) s.modulus :=
    ⟨hp, by omega, by omega, ⟨e + 1, by rw [he, pow_succ']⟩, hmod⟩
  refine ⟨fun k hk hit hmiss => ?_, fun hmiss => ?_⟩
  · obtain ⟨w, hleast, hsearch⟩ := minPrimRoot_of_hit hsearchable hk hit hmiss
    have ⟨⟨_, hlt, hroot⟩, _⟩ := hleast
    rw [Nat.mul_div_cancel_left _ two_pos] at hroot
    exact ⟨w, _, hleast, exec_nttinit_of_root hchecks hsearch,
      TableParams.tablesBuilt (s := s.useDraws (k + 1)) hlegal (tableParams_of_checks hchecks ⟨hlt, hroot⟩)⟩
  · exact exec_nttinit_of_no_root hchecks (minPrimRoot_of_misses hsearchable hmiss)

end Sys2Proof.Machine
end

section
/-! SUPPORT. The checks on a multiply factor and on an operand width (R153), one at a time, and the bound of a
factor (R152). -/

namespace Sys2Proof.Machine

section
variable {s : State} {f : Unit → Except CmdError State} {b : Width} {r : Reg}

/-- An operand is not the multiply factor of `w` (R153). -/
theorem complete_checkFactor_failed {w : Nat} (h : s.valX r ≠ fac w b s.modulus) :
    complete s (checkFactor s w b r >>= f) = .next (s.reported 1 0x1A (BitVec.ofNat 32 r.toNat)) :=
  complete_of_check_failed (require_of_false (decide_eq_false h) _ _)

theorem complete_checkFactor_passed {w : Nat} (h : s.valX r = fac w b s.modulus) :
    complete s (checkFactor s w b r >>= f) = complete s (f ()) :=
  complete_of_check_passed ((checkFactor_ok_iff s w b r ()).2 h)

/-- An operand does not fit in the Barrett width (R153). -/
theorem complete_checkWidth_failed {v : Nat} (h : 2 ^ widthBits b ≤ v) :
    complete s (checkWidth v b r >>= f) = .next (s.reported 3 0x30 (BitVec.ofNat 32 r.toNat)) :=
  complete_of_check_failed (require_of_false (decide_eq_false (Nat.not_lt.2 h)) _ _)

theorem complete_checkWidth_passed {v : Nat} (h : v < 2 ^ widthBits b) :
    complete s (checkWidth v b r >>= f) = complete s (f ()) :=
  complete_of_check_passed ((checkWidth_ok_iff v b r ()).2 h)

end

/-- A factor of a residue fits in its own width, not only in a register (`fac_lt`). -/
theorem fac_lt_two_pow_widthBits {y q : Nat} (b : Width) (h : y < q) : fac y b q < 2 ^ widthBits b :=
  Nat.div_lt_of_lt_mul (Nat.mul_lt_mul_of_pos_right h (Nat.two_pow_pos _))

end Sys2Proof.Machine
end

section
/-! O22, O23: the MultiplyFactor commands. -/

namespace Sys2Proof.Machine

/-- Settles O22: a residue is below Q, so its factor is below 2^B. -/
theorem mulfacMeaning : Obligations.MulfacMeaning := fun rd rs1 b s =>
  ⟨decode_of_encode_eq (i := .mulfac rd rs1 b) (assemble_width_eq_commandWord .mulfac ..) rfl,
    fun hq => complete_checkQ_failed hq,
    fun hq h1 => (complete_checkQ_passed hq).trans (complete_checkBelow_failed h1),
    fun hq h1 => ⟨fac_lt_two_pow_widthBits b h1, (complete_checkQ_passed hq).trans <|
      (complete_checkBelow_passed h1).trans (complete_putX s s rd _)⟩⟩

/-- MULLAZY after its checks on Q and W (R153). -/
theorem exec_mullazy_of_inRange {rs2 : Reg} {s : State} (hq : s.QInRange) (hw : s.valX rs2 < s.modulus)
    (rd rs1 rs3 : Reg) (b : Width) :
    exec (.mullazy rd rs1 rs2 rs3 b) s = complete s (do
      checkFactor s (s.valX rs2) b rs3
      checkWidth (s.valX rs1) b rs1
      .ok (s.putX rd (lazyMul (s.valX rs1) (s.valX rs2) (s.valX rs3) s.modulus b))) :=
  (complete_checkQ_passed hq).trans (complete_checkBelow_passed hw)

/-- Settles O23: with the right factor the subtraction of R150 does not go below 0 (`quotient_mul_le`) and
its difference is below 2Q and congruent to the product (`lazyMul_spec`). -/
theorem mullazyMeaning : Obligations.MullazyMeaning := by
  intro rd rs1 rs2 rs3 b s
  refine ⟨decode_of_encode_eq (i := .mullazy rd rs1 rs2 rs3 b) (assemble_width_eq_commandWord .mullazy ..) rfl,
    fun hq => complete_checkQ_failed hq,
    fun hq hw => (complete_checkQ_passed hq).trans (complete_checkBelow_failed hw),
    fun hq hw => ?_⟩
  rw [exec_mullazy_of_inRange hq hw]
  refine ⟨fun hfac => complete_checkFactor_failed hfac,
    fun hfac hy => (complete_checkFactor_passed hfac).trans (complete_checkWidth_failed hy),
    fun hfac hy => ?_⟩
  have hle := quotient_mul_le (s.valX rs1) (s.valX rs2) s.modulus b
  obtain ⟨hval, hlt, hmod⟩ :=
    lazyMul_spec (s.valX rs1) (s.valX rs2) s.modulus b (Nat.zero_lt_of_lt hw) hq.2 hy
  rw [← (show s.valX rs3 = fac (s.valX rs2) b s.modulus from hfac)] at hle hval hlt hmod
  exact ⟨_, by rw [hval, Nat.sub_add_cancel hle], hlt, hmod, (complete_checkFactor_passed hfac).trans <|
    (complete_checkWidth_passed hy).trans (complete_putX s s rd _)⟩

end Sys2Proof.Machine
end

section
/-! O15: a command that stores a buffer or builds the tables writes no general register. -/

namespace Sys2Proof.Machine

variable {s t : State}

@[simp] theorem State.getX_retire (s : State) (r : Reg) : s.retire.getX r = s.getX r := rfl

@[simp] theorem State.getX_buildTables (s : State) (n q w : Nat) (r : Reg) :
    (buildTables s n q w).getX r = s.getX r := by
  obtain ⟨mem, ntt, heq⟩ := buildTables_eq s n q w
  rw [heq]
  rfl

/-- A command that ends in a buffer or in the tables leaves every general register. -/
theorem EndsIn.getX_eq {kind : WriteKind} (hkind : kind = .buffer ∨ kind = .tables) (h : EndsIn kind s t)
    (r : Reg) : t.getX r = s.getX r := by
  obtain ⟨k, ⟨e, rfl⟩ | ⟨s', hcommit, rfl⟩⟩ := h
  · rfl
  · cases hcommit with
    | register | pair => simp at hkind
    | buffer base vs hfit => rfl
    | tables n q w hparams => rw [State.getX_retire, State.getX_buildTables, State.getX_useDraws]

/-- Settles O15, by where each of the seven commands writes. -/
theorem bufferCommandsWriteNoRegister : Obligations.BufferCommandsWriteNoRegister := by
  intro s t i hi hexec
  have hkind : writeKind i = .buffer ∨ writeKind i = .tables := by
    rcases hi with ⟨_, _, _, _, rfl⟩ | ⟨_, _, _, _, rfl⟩ | ⟨_, _, _, _, _, rfl⟩ | ⟨_, _, _, _, rfl⟩ |
      ⟨_, _, rfl⟩ | ⟨_, _, _, _, rfl⟩ | ⟨_, _, _, _, rfl⟩
    iterate 4 exact .inl rfl
    · exact .inr rfl
    iterate 2 exact .inl rfl
  exact (exec_endsIn hexec).getX_eq hkind

end Sys2Proof.Machine
end

section
/-! O24: the first check of a vector command that fails is the outcome of them all (R170). -/

namespace Sys2Proof.Machine

/-! ### The first failure in a list of checks -/

/-- `checks` performs `check` on one item of a list after the other: the first one that fails is the
outcome. -/
theorem first_failed_check {α : Type} {check : α → Except CmdError Unit}
    {checks : List α → Except CmdError Unit} {e : CmdError}
    (hcons : ∀ a as, checks (a :: as) = (check a >>= fun _ => checks as)) {pre : List α} {a : α}
    (hpre : ∀ b ∈ pre, check b = .ok ()) (ha : check a = .error e) (post : List α) :
    checks (pre ++ a :: post) = .error e := by
  induction pre with
  | nil => exact (hcons a post).trans (bind_of_check_failed ha)
  | cons b pre ih =>
    obtain ⟨hb, hpre⟩ := List.forall_mem_cons.1 hpre
    exact (hcons b _).trans ((bind_of_check_passed hb).trans (ih hpre))

section
variable {s : State} {bound len : Nat}

/-- The first buffer that does not lie in DMEM (R67). -/
theorem checkBuffers_failed {pre : List Reg} {r : Reg} (hpre : ∀ b ∈ pre, s.Fits b len)
    (hr : ¬ s.Fits r len) (post : List Reg) :
    checkBuffers s len (pre ++ r :: post) = .error ⟨.bufferRange, r.toNat⟩ :=
  first_failed_check (fun _ _ => rfl) (fun b hb => require_of_true (decide_eq_true (hpre b hb)) .bufferRange _)
    (require_of_false (decide_eq_false hr) ..) post

/-- The first scalar that is not below the bound. -/
theorem checkScalars_failed {pre : List Reg} {r : Reg} (hpre : ∀ b ∈ pre, s.valX b < bound)
    (hr : bound ≤ s.valX r) (post : List Reg) :
    checkScalars s bound (pre ++ r :: post) = .error ⟨.operandRange, r.toNat⟩ :=
  first_failed_check (fun _ _ => rfl) (fun b hb => (checkBelow_ok_iff s bound b ()).2 (hpre b hb))
    (require_of_false (decide_eq_false (Nat.not_lt.2 hr)) ..) post

theorem checkRow_cons (i : Nat) (e : Cause × Reg) (es : List (Cause × Reg)) :
    checkRow s bound i (e :: es) =
      (require (elem s e.2 i < bound) e.1 i >>= fun _ => checkRow s bound i es) := rfl

/-- The first element of one index that is not below the bound. -/
theorem checkRow_failed {i : Nat} {pre : List (Cause × Reg)} {c : Cause} {r : Reg}
    (hpre : ∀ e ∈ pre, elem s e.2 i < bound) (hr : bound ≤ elem s r i) (post : List (Cause × Reg)) :
    checkRow s bound i (pre ++ (c, r) :: post) = .error ⟨c, i⟩ := by
  refine first_failed_check (checkRow_cons i) (fun e he => ?_) ?_ post
  · exact require_of_true (decide_eq_true (hpre e he)) _ _
  · exact require_of_false (decide_eq_false (Nat.not_lt.2 hr)) _ _

/-- The first index whose elements are not all below the bound. -/
theorem checkElems_failed {elems : List (Cause × Reg)} {e : CmdError} {count i k : Nat} (hi : i ≤ k)
    (hk : k < i + count) (hbefore : ∀ j, i ≤ j → j < k → ∀ e ∈ elems, elem s e.2 j < bound)
    (hrow : checkRow s bound k elems = .error e) : checkElems s bound elems count i = .error e := by
  induction count generalizing i with
  | zero => omega
  | succ count ih =>
    rw [checkElems]
    obtain rfl | hlt := hi.eq_or_lt
    · exact bind_of_check_failed hrow
    · rw [bind_of_check_passed ((checkRow_ok_iff ..).2 (hbefore i le_rfl hlt))]
      exact ih hlt (by omega) fun j hj => hbefore j (by omega)

end

/-! ### The checks of a vector command -/

section
variable {s : State} {buffers scalars : List Reg} {elems : List (Cause × Reg)} {len : Nat}

theorem vecChecks_qRange (hq : ¬ s.QInRange) :
    vecChecks s buffers scalars elems len = .error ⟨.qRange, 0⟩ :=
  bind_of_check_failed (checkQ_of_not_inRange hq)

theorem vecChecks_bufferRange (hq : s.QInRange) {pre : List Reg} {r : Reg}
    (hpre : ∀ b ∈ pre, s.Fits b len) (hr : ¬ s.Fits r len) (post : List Reg) :
    vecChecks s (pre ++ r :: post) scalars elems len = .error ⟨.bufferRange, r.toNat⟩ :=
  (bind_of_check_passed (checkQ_of_inRange hq)).trans (bind_of_check_failed (checkBuffers_failed hpre hr post))

/-- With Q in range and every buffer in DMEM, the scalars and the elements decide. -/
theorem vecChecks_of_fits (hq : s.QInRange) (hfit : ∀ b ∈ buffers, s.Fits b len) :
    vecChecks s buffers scalars elems len =
      (checkScalars s s.modulus scalars >>= fun _ => checkElems s s.modulus elems len 0) :=
  (bind_of_check_passed (checkQ_of_inRange hq)).trans
    (bind_of_check_passed ((checkBuffers_ok_iff ..).2 hfit))

theorem vecChecks_operandRange (hq : s.QInRange) (hfit : ∀ b ∈ buffers, s.Fits b len) {pre : List Reg}
    {r : Reg} (hpre : ∀ b ∈ pre, s.valX b < s.modulus) (hr : s.modulus ≤ s.valX r) (post : List Reg) :
    vecChecks s buffers (pre ++ r :: post) elems len = .error ⟨.operandRange, r.toNat⟩ :=
  (vecChecks_of_fits hq hfit).trans (bind_of_check_failed (checkScalars_failed hpre hr post))

theorem vecChecks_element (hq : s.QInRange) (hfit : ∀ b ∈ buffers, s.Fits b len)
    (hscal : ∀ b ∈ scalars, s.valX b < s.modulus) {i : Nat} (hi : i < len) {pre post : List (Cause × Reg)}
    {c : Cause} {r : Reg}
    (hbefore : ∀ j < i, ∀ e ∈ pre ++ (c, r) :: post, elem s e.2 j < s.modulus)
    (hpre : ∀ e ∈ pre, elem s e.2 i < s.modulus) (hr : s.modulus ≤ elem s r i) :
    vecChecks s buffers scalars (pre ++ (c, r) :: post) len = .error ⟨c, i⟩ := by
  rw [vecChecks_of_fits hq hfit, bind_of_check_passed ((checkScalars_ok_iff ..).2 hscal)]
  exact checkElems_failed (Nat.zero_le i) (by omega) (fun j _ => hbefore j) (checkRow_failed hpre hr post)

end

/-- Settles O24: each list of checks answers with its first failure. -/
theorem vecChecksReportFirstFailure : Obligations.VecChecksReportFirstFailure := by
  intro s buffers scalars elems len
  refine ⟨vecChecks_qRange, ?_, fun hq hfit => ⟨?_, fun hscal => ⟨?_, fun helem => ?_⟩⟩⟩
  · rintro hq pre r post rfl hpre hr
    exact vecChecks_bufferRange hq hpre hr post
  · rintro pre r post rfl hpre hr
    exact vecChecks_operandRange hq hfit hpre hr post
  · rintro i hi hbefore pre c r post rfl hpre hr
    exact vecChecks_element hq hfit hscal hi hbefore hpre hr
  · exact (vecChecks_ok_iff ..).2 ⟨hq, hfit, hscal, helem⟩

end Sys2Proof.Machine
end

section
/-! SUPPORT. The one shape of the four vector commands (R170): the checks, then a buffer of residues. What
each failing check and a success leave. -/

namespace Sys2Proof.Machine

/-- A vector command: it checks its destination with its other buffers, its scalars and its elements, and
stores `out i` modulo Q. -/
def vecCommand (s : State) (rd : Reg) (buffers scalars : List Reg) (elems : List (Cause × Reg)) (len : Nat)
    (out : Nat → Nat) : Outcome :=
  complete s do
    vecChecks s (rd :: buffers) scalars elems len
    .ok (vecWrite s rd len fun i => out i % s.modulus)

/-! ### The four commands -/

section
variable (rd rs1 rs2 rs3 rs4 : Reg) (s : State)

theorem exec_vsub : exec (.vsub rd rs1 rs2 rs4) s =
    vecCommand s rd [rs1, rs2] [] [(.elementA, rs1), (.elementB, rs2)] (s.valX rs4)
      fun i => elem s rs1 i + s.modulus - elem s rs2 i := rfl

theorem exec_vsubs : exec (.vsubs rd rs1 rs2 rs4) s =
    vecCommand s rd [rs1] [rs2] [(.elementA, rs1)] (s.valX rs4)
      fun i => elem s rs1 i + s.modulus - s.valX rs2 := rfl

theorem exec_vfma_some : exec (.vfma rd rs1 rs2 (some rs3) rs4) s =
    vecCommand s rd [rs1, rs3] [rs2] [(.elementA, rs1), (.elementC, rs3)] (s.valX rs4)
      fun i => elem s rs1 i * s.valX rs2 + elem s rs3 i := rfl

theorem exec_vfma_none : exec (.vfma rd rs1 rs2 none rs4) s =
    vecCommand s rd [rs1] [rs2] [(.elementA, rs1)] (s.valX rs4) fun i => elem s rs1 i * s.valX rs2 := rfl

theorem exec_vmul : exec (.vmul rd rs1 rs2 rs4) s =
    vecCommand s rd [rs1, rs2] [] [(.elementA, rs1), (.elementB, rs2)] (s.valX rs4)
      fun i => elem s rs1 i * elem s rs2 i := rfl

end

/-! ### What the store leaves -/

/-- Residues modulo a Q in range are words, so they read back as they were stored; the other bytes and
fields stay. -/
theorem vecWrite_storesOnly {s : State} (hq : s.QInRange) (rd : Reg) (len : Nat) (out : Nat → Nat) :
    StoresOnly s (vecWrite s rd len fun i => out i % s.modulus).retire (s.valX rd) len
      fun i => out i % s.modulus := by
  have hlen : ((List.range len).map fun i => out i % s.modulus).length = len := by simp
  refine ⟨fun i hi => ?_, fun a ha => ?_, rfl⟩
  · have hres : out i % s.modulus < 2 ^ 64 :=
      (Nat.mod_lt _ (Nat.zero_lt_of_lt hq.1)).trans s.modulus_lt
    refine (State.memRead_memWrite_inside s (s.valX rd) _ (hlen.symm ▸ hi)).trans ?_
    rw [List.getElem_map, List.getElem_range, Nat.mod_eq_of_lt hres]
  · refine State.byteAt_writeWords_outside s _ _ ?_
    rwa [List.length_map, hlen]

/-! ### The outcomes -/

section
variable {s : State} {rd : Reg} {buffers scalars : List Reg} {elems : List (Cause × Reg)} {len : Nat}
  {out : Nat → Nat}

theorem vecCommand_qRange (hq : ¬ s.QInRange) :
    vecCommand s rd buffers scalars elems len out = .next (s.reported 1 0x10 0) :=
  complete_of_check_failed (vecChecks_qRange hq)

theorem vecCommand_destination (hq : s.QInRange) (hd : ¬ s.Fits rd len) :
    vecCommand s rd buffers scalars elems len out = .next (s.reported 1 0x15 (BitVec.ofNat 32 rd.toNat)) :=
  complete_of_check_failed (vecChecks_bufferRange hq (List.forall_mem_nil _) hd buffers)

theorem vecCommand_buffer (hq : s.QInRange) (hd : s.Fits rd len) {pre post : List Reg} {r : Reg}
    (hpre : ∀ b ∈ pre, s.Fits b len) (hr : ¬ s.Fits r len) :
    vecCommand s rd (pre ++ r :: post) scalars elems len out =
      .next (s.reported 1 0x15 (BitVec.ofNat 32 r.toNat)) :=
  complete_of_check_failed
    (vecChecks_bufferRange (pre := rd :: pre) hq (List.forall_mem_cons.2 ⟨hd, hpre⟩) hr post)

section
variable (hq : s.QInRange) (hfit : ∀ b ∈ rd :: buffers, s.Fits b len)
include hq hfit

theorem vecCommand_scalar {r : Reg} (hr : s.modulus ≤ s.valX r) :
    vecCommand s rd buffers [r] elems len out = .next (s.reported 1 0x11 (BitVec.ofNat 32 r.toNat)) :=
  complete_of_check_failed (vecChecks_operandRange hq hfit (List.forall_mem_nil _) hr [])

variable (hscal : ∀ b ∈ scalars, s.valX b < s.modulus)
include hscal

theorem vecCommand_element {i : Nat} (hi : i < len) {pre post : List (Cause × Reg)} {c : Cause} {r : Reg}
    (hbefore : ∀ j < i, ∀ e ∈ pre ++ (c, r) :: post, elem s e.2 j < s.modulus)
    (hpre : ∀ e ∈ pre, elem s e.2 i < s.modulus) (hr : s.modulus ≤ elem s r i) :
    vecCommand s rd buffers scalars (pre ++ (c, r) :: post) len out = .next (s.fail ⟨c, i⟩) :=
  complete_of_check_failed (vecChecks_element hq hfit hscal hi hbefore hpre hr)

/-- The first element at fault of a command with one element operand. -/
theorem vecCommand_one_element {r : Reg} {i : Nat} (hi : i < len) (hbefore : ∀ j < i, elem s r j < s.modulus)
    (hr : s.modulus ≤ elem s r i) :
    vecCommand s rd buffers scalars [(.elementA, r)] len out =
      .next (s.reported 1 0x12 (BitVec.ofNat 32 i)) :=
  vecCommand_element (pre := []) hq hfit hscal hi (by simpa using hbefore) (by simp) hr

/-- The first element at fault of a command with two element operands, the second reported as `c`. -/
theorem vecCommand_two_elements {r r' : Reg} {c : Cause} {i : Nat} (hi : i < len)
    (hbefore : ∀ j < i, elem s r j < s.modulus ∧ elem s r' j < s.modulus) :
    (s.modulus ≤ elem s r i →
      vecCommand s rd buffers scalars [(.elementA, r), (c, r')] len out =
        .next (s.reported 1 0x12 (BitVec.ofNat 32 i))) ∧
    (elem s r i < s.modulus → s.modulus ≤ elem s r' i →
      vecCommand s rd buffers scalars [(.elementA, r), (c, r')] len out = .next (s.fail ⟨c, i⟩)) := by
  have hbefore : ∀ j < i, ∀ e ∈ [(Cause.elementA, r), (c, r')], elem s e.2 j < s.modulus := by
    simpa using hbefore
  exact ⟨fun hr => vecCommand_element (pre := []) hq hfit hscal hi hbefore (List.forall_mem_nil _) hr,
    fun hr hr' => vecCommand_element (pre := [(.elementA, r)]) hq hfit hscal hi hbefore (by simpa using hr) hr'⟩

theorem vecCommand_stores (helem : ∀ i < len, ∀ e ∈ elems, elem s e.2 i < s.modulus) :
    ∃ t, vecCommand s rd buffers scalars elems len out = .next t ∧
      StoresOnly s t (s.valX rd) len fun i => out i % s.modulus :=
  ⟨_, complete_of_check_passed ((vecChecks_ok_iff ..).2 ⟨hq, hfit, hscal, helem⟩),
    vecWrite_storesOnly hq rd len out⟩

end

end

end Sys2Proof.Machine
end

section
/-! O25, O26, O27, O28: the four vector commands. -/

namespace Sys2Proof.Machine

/-- Settles O25: VSUB has two buffers beside its destination and no scalar. -/
theorem vsubMeaning : Obligations.VsubMeaning := by
  intro rd rs1 rs2 rs4 s
  simp only [exec_vsub]
  exact ⟨decode_of_encode_eq (i := .vsub rd rs1 rs2 rs4) (assemble_eq_commandWord .vsub ..) rfl,
    vecCommand_qRange, vecCommand_destination,
    fun hq hd h1 => vecCommand_buffer (pre := []) hq hd (by simp) h1,
    fun hq hd h1 h2 => vecCommand_buffer (pre := [rs1]) hq hd (by simpa using h1) h2,
    fun hq hd h1 h2 i hi hbefore => vecCommand_two_elements hq (by simp [hd, h1, h2]) (by simp) hi hbefore,
    fun hq hd h1 h2 helem => vecCommand_stores hq (by simp [hd, h1, h2]) (by simp) (by simpa using helem)⟩

/-- Settles O26: VSUBS has one buffer beside its destination and a scalar. -/
theorem vsubsMeaning : Obligations.VsubsMeaning := by
  intro rd rs1 rs2 rs4 s
  simp only [exec_vsubs]
  exact ⟨decode_of_encode_eq (i := .vsubs rd rs1 rs2 rs4) (assemble_eq_commandWord .vsubs ..) rfl,
    vecCommand_qRange, vecCommand_destination,
    fun hq hd h1 => vecCommand_buffer (pre := []) hq hd (by simp) h1,
    fun hq hd h1 h2 => vecCommand_scalar hq (by simp [hd, h1]) h2,
    fun hq hd h1 h2 i hi hbefore => vecCommand_one_element hq (by simp [hd, h1]) (by simpa using h2) hi hbefore,
    fun hq hd h1 h2 helem =>
      vecCommand_stores hq (by simp [hd, h1]) (by simpa using h2) (by simpa using helem)⟩

/-- Settles O27: VFMA with c has two buffers beside its destination, without c one, and in both forms a
scalar. -/
theorem vfmaMeaning : Obligations.VfmaMeaning := by
  intro rd rs1 rs2 rs3 rs4 s
  simp only [exec_vfma_some, exec_vfma_none]
  refine ⟨decode_of_encode_eq (i := .vfma rd rs1 rs2 (some rs3) rs4) (assemble_eq_commandWord .vfma ..) rfl,
    decode_of_encode_eq (i := .vfma rd rs1 rs2 none rs4) (assemble_eq_commandWord .vfma ..) rfl,
    vecCommand_qRange, vecCommand_destination,
    fun hq hd h1 => vecCommand_buffer (pre := []) hq hd (by simp) h1,
    fun hq hd h1 h3 => vecCommand_buffer (pre := [rs1]) hq hd (by simpa using h1) h3,
    fun hq hd h1 h3 h2 => vecCommand_scalar hq (by simp [hd, h1, h3]) h2,
    fun hq hd h1 h3 h2 i hi hbefore =>
      vecCommand_two_elements hq (by simp [hd, h1, h3]) (by simpa using h2) hi hbefore,
    vecCommand_qRange, vecCommand_destination,
    fun hq hd h1 => vecCommand_buffer (pre := []) hq hd (by simp) h1,
    fun hq hd h1 h2 => vecCommand_scalar hq (by simp [hd, h1]) h2,
    fun hq hd h1 h2 i hi hbefore => vecCommand_one_element hq (by simp [hd, h1]) (by simpa using h2) hi hbefore,
    fun hq hd h1 h2 ha => ⟨vecCommand_stores hq (by simp [hd, h1]) (by simpa using h2) (by simpa using ha),
      fun h3 hc => vecCommand_stores hq (by simp [hd, h1, h3]) (by simpa using h2) ?_⟩⟩
  simpa using fun i hi => ⟨ha i hi, hc i hi⟩

/-- Settles O28: VMUL has the operands and checks of VSUB. -/
theorem vmulMeaning : Obligations.VmulMeaning := by
  intro rd rs1 rs2 rs4 s
  simp only [exec_vmul]
  exact ⟨decode_of_encode_eq (i := .vmul rd rs1 rs2 rs4) (assemble_eq_commandWord .vmul ..) rfl,
    vecCommand_qRange, vecCommand_destination,
    fun hq hd h1 => vecCommand_buffer (pre := []) hq hd (by simp) h1,
    fun hq hd h1 h2 => vecCommand_buffer (pre := [rs1]) hq hd (by simpa using h1) h2,
    fun hq hd h1 h2 i hi hbefore => vecCommand_two_elements hq (by simp [hd, h1, h2]) (by simp) hi hbefore,
    fun hq hd h1 h2 helem => vecCommand_stores hq (by simp [hd, h1, h2]) (by simp) (by simpa using helem)⟩

end Sys2Proof.Machine
end

section
/-! O34: the conditional subtraction and the two butterflies, their ranges and their residues (R197, R202). -/

namespace Sys2Proof.Machine

/-! ### The conditional subtraction -/

/-- A conditional subtraction of a multiple of q keeps the residue. -/
theorem condSub_modEq {q m : Nat} (hm : q ∣ m) (v : Nat) : (if m ≤ v then v - m else v) ≡ v [MOD q] := by
  split
  · next hle => exact (Nat.modEq_iff_dvd' (Nat.sub_le v m)).2 (by rwa [Nat.sub_sub_self hle])
  · rfl

theorem condSub_lt {m v : Nat} (hv : v < 2 * m) : (if m ≤ v then v - m else v) < m := by
  split <;> omega

/-! ### The butterflies -/

section
variable {x y w q : Nat} {b : Width}

/-- The forward butterfly with the right factor (R197). -/
theorem fwdBfly_spec (hq : 0 < q) (hq62 : q < 2 ^ 62) (hx : x < 4 * q) (hy : y < 2 ^ widthBits b) :
    (fwdBfly x y w (fac w b q) q b).1 < 4 * q ∧ (fwdBfly x y w (fac w b q) q b).2 < 4 * q ∧
    (fwdBfly x y w (fac w b q) q b).1 ≡ x + w * y [MOD q] ∧
    (fwdBfly x y w (fac w b q) q b).2 + w * y ≡ x [MOD q] := by
  obtain ⟨-, ht, hmod⟩ := lazyMul_spec y w q b hq hq62 hy
  have hx' := condSub_lt (m := 2 * q) (v := x) (by omega)
  have hxmod := condSub_modEq (Dvd.intro_left 2 rfl : q ∣ 2 * q) x
  have hprod : lazyMul y w (fac w b q) q b ≡ w * y [MOD q] := by
    rw [Nat.mul_comm w y]
    exact hmod
  simp only [fwdBfly]
  generalize (if 2 * q ≤ x then x - 2 * q else x) = x' at hx' hxmod ⊢
  generalize lazyMul y w (fac w b q) q b = t at ht hprod ⊢
  refine ⟨by omega, by omega, hxmod.add hprod, ?_⟩
  calc x' + 2 * q - t + w * y ≡ x' + 2 * q - t + t [MOD q] := hprod.symm.add_left _
    _ = x' + q * 2 := by omega
    _ ≡ x' [MOD q] := Nat.add_mul_mod_self_left x' q 2
    _ ≡ x [MOD q] := hxmod

/-- The inverse butterfly with the right factor (R202). -/
theorem invBfly_spec (hq : 0 < q) (hq62 : q < 2 ^ 62) (hx : x < 2 * q) (hy : y < 2 * q)
    (hty : x + 2 * q - y < 2 ^ widthBits b) :
    (invBfly x y w (fac w b q) q b).1 < 2 * q ∧ (invBfly x y w (fac w b q) q b).2 < 2 * q ∧
    (invBfly x y w (fac w b q) q b).1 ≡ x + y [MOD q] ∧
    (invBfly x y w (fac w b q) q b).2 + w * y ≡ w * x [MOD q] := by
  obtain ⟨-, ht, hmod⟩ := lazyMul_spec (x + 2 * q - y) w q b hq hq62 hty
  refine ⟨condSub_lt (by omega), ht, condSub_modEq (Dvd.intro_left 2 rfl) (x + y), ?_⟩
  calc lazyMul (x + 2 * q - y) w (fac w b q) q b + w * y
      ≡ (x + 2 * q - y) * w + w * y [MOD q] := Nat.ModEq.add_right _ hmod
    _ = w * (x + 2 * q - y + y) := by ring
    _ = w * x + q * (2 * w) := by rw [Nat.sub_add_cancel (by omega)]; ring
    _ ≡ w * x [MOD q] := Nat.add_mul_mod_self_left _ _ _

end

/-- Settles O34: the ranges and residues of both butterflies. -/
theorem butterfliesStayInRange : Obligations.ButterfliesStayInRange :=
  fun _ _ _ _ _ hq hq62 _ => ⟨fwdBfly_spec (by omega) hq62, invBfly_spec (by omega) hq62⟩

end Sys2Proof.Machine
end

section
/-! O32, O33: the two butterfly commands are one shape with its own bound, width check and results (R198, R203). -/

namespace Sys2Proof.Machine

/-- A butterfly command: Q, the operands X and Y below `bound`, W below Q, its factor, the width of the value
multiplied, and a register pair. -/
def butterflyCommand (s : State) (rd rs1 rs2 rs3 rs4 : Reg) (b : Width) (bound multiplied : Nat)
    (out : Nat × Nat) : Outcome :=
  complete s do
    checkQ s
    checkBelow s bound rs1
    checkBelow s bound rs2
    checkBelow s s.modulus rs3
    checkFactor s (s.valX rs3) b rs4
    checkWidth multiplied b rs2
    .ok ((s.putX rd out.1).putX (rd + 1) out.2)

section
variable (rd rs1 rs2 rs3 rs4 : Reg) (b : Width) (s : State)

theorem exec_bfwd : exec (.bfwd rd rs1 rs2 rs3 rs4 b) s =
    butterflyCommand s rd rs1 rs2 rs3 rs4 b (4 * s.modulus) (s.valX rs2)
      (fwdBfly (s.valX rs1) (s.valX rs2) (s.valX rs3) (s.valX rs4) s.modulus b) := rfl

theorem exec_binv : exec (.binv rd rs1 rs2 rs3 rs4 b) s =
    butterflyCommand s rd rs1 rs2 rs3 rs4 b (2 * s.modulus) (s.valX rs1 + 2 * s.modulus - s.valX rs2)
      (invBfly (s.valX rs1) (s.valX rs2) (s.valX rs3) (s.valX rs4) s.modulus b) := rfl

end

/-! ### The outcomes -/

section
variable {s : State} {rd rs1 rs2 rs3 rs4 : Reg} {b : Width} {bound multiplied : Nat} {out : Nat × Nat}

theorem butterflyCommand_qRange (hq : ¬ s.QInRange) :
    butterflyCommand s rd rs1 rs2 rs3 rs4 b bound multiplied out = .next (s.reported 1 0x10 0) :=
  complete_checkQ_failed hq

variable (hq : s.QInRange)
include hq

theorem butterflyCommand_first (h1 : bound ≤ s.valX rs1) :
    butterflyCommand s rd rs1 rs2 rs3 rs4 b bound multiplied out =
      .next (s.reported 1 0x11 (BitVec.ofNat 32 rs1.toNat)) :=
  (complete_checkQ_passed hq).trans (complete_checkBelow_failed h1)

variable (h1 : s.valX rs1 < bound)
include h1

theorem butterflyCommand_second (h2 : bound ≤ s.valX rs2) :
    butterflyCommand s rd rs1 rs2 rs3 rs4 b bound multiplied out =
      .next (s.reported 1 0x11 (BitVec.ofNat 32 rs2.toNat)) :=
  (complete_checkQ_passed hq).trans <| (complete_checkBelow_passed h1).trans (complete_checkBelow_failed h2)

variable (h2 : s.valX rs2 < bound)
include h2

theorem butterflyCommand_twiddle (h3 : s.modulus ≤ s.valX rs3) :
    butterflyCommand s rd rs1 rs2 rs3 rs4 b bound multiplied out =
      .next (s.reported 1 0x11 (BitVec.ofNat 32 rs3.toNat)) :=
  (complete_checkQ_passed hq).trans <| (complete_checkBelow_passed h1).trans <|
    (complete_checkBelow_passed h2).trans (complete_checkBelow_failed h3)

variable (h3 : s.valX rs3 < s.modulus)
include h3

/-- With Q and the three operands in range, the factor and the width decide. -/
theorem butterflyCommand_of_operands :
    butterflyCommand s rd rs1 rs2 rs3 rs4 b bound multiplied out = complete s (do
      checkFactor s (s.valX rs3) b rs4
      checkWidth multiplied b rs2
      .ok ((s.putX rd out.1).putX (rd + 1) out.2)) :=
  (complete_checkQ_passed hq).trans <| (complete_checkBelow_passed h1).trans <|
    (complete_checkBelow_passed h2).trans (complete_checkBelow_passed h3)

theorem butterflyCommand_factor (h4 : s.valX rs4 ≠ fac (s.valX rs3) b s.modulus) :
    butterflyCommand s rd rs1 rs2 rs3 rs4 b bound multiplied out =
      .next (s.reported 1 0x1A (BitVec.ofNat 32 rs4.toNat)) :=
  (butterflyCommand_of_operands hq h1 h2 h3).trans (complete_checkFactor_failed h4)

variable (h4 : s.valX rs4 = fac (s.valX rs3) b s.modulus)
include h4

theorem butterflyCommand_width (hwidth : 2 ^ widthBits b ≤ multiplied) :
    butterflyCommand s rd rs1 rs2 rs3 rs4 b bound multiplied out =
      .next (s.reported 3 0x30 (BitVec.ofNat 32 rs2.toNat)) :=
  (butterflyCommand_of_operands hq h1 h2 h3).trans <| (complete_checkFactor_passed h4).trans
    (complete_checkWidth_failed hwidth)

theorem butterflyCommand_writes (hwidth : multiplied < 2 ^ widthBits b) :
    butterflyCommand s rd rs1 rs2 rs3 rs4 b bound multiplied out =
      .next ((s.withResult rd out.1).withResult (rd + 1) out.2) :=
  (butterflyCommand_of_operands hq h1 h2 h3).trans <| (complete_checkFactor_passed h4).trans
    (complete_checkWidth_passed hwidth)

end

/-- With the right factor the lazy product is what its subtraction leaves (R150). -/
theorem lazyMul_add_quotient {y w wp q : Nat} {b : Width} (hq : 0 < q) (hq62 : q < 2 ^ 62)
    (hwp : wp = fac w b q) (hy : y < 2 ^ widthBits b) :
    y * w = lazyMul y w wp q b + y * wp / 2 ^ widthBits b * q := by
  subst hwp
  rw [(lazyMul_spec y w q b hq hq62 hy).1, Nat.sub_add_cancel (quotient_mul_le y w q b)]

/-- Settles O32: BFWD is a butterfly command on Y itself. -/
theorem bfwdMeaning : Obligations.BfwdMeaning := by
  intro rd rs1 rs2 rs3 rs4 b s heven
  rw [exec_bfwd]
  refine ⟨decode_of_encode_eq (i := .bfwd rd rs1 rs2 rs3 rs4 b) (assemble_width_eq_commandWord .bfwd ..)
      (decide_eq_true heven),
    butterflyCommand_qRange, butterflyCommand_first, butterflyCommand_second, butterflyCommand_twiddle,
    fun hq h1 h2 h3 => ⟨butterflyCommand_factor hq h1 h2 h3, butterflyCommand_width hq h1 h2 h3,
      fun h4 hwidth => ?_⟩⟩
  exact ⟨_, _, rfl, lazyMul_add_quotient (Nat.zero_lt_of_lt h3) hq.2 h4 hwidth,
    butterflyCommand_writes hq h1 h2 h3 h4 hwidth⟩

/-- Settles O33: BINV is a butterfly command on X + 2Q − Y, which is not negative. -/
theorem binvMeaning : Obligations.BinvMeaning := by
  intro rd rs1 rs2 rs3 rs4 b s heven
  rw [exec_binv]
  refine ⟨decode_of_encode_eq (i := .binv rd rs1 rs2 rs3 rs4 b) (assemble_width_eq_commandWord .binv ..)
      (decide_eq_true heven),
    butterflyCommand_qRange, butterflyCommand_first, butterflyCommand_second, butterflyCommand_twiddle,
    fun hq h1 h2 h3 => ⟨butterflyCommand_factor hq h1 h2 h3, butterflyCommand_width hq h1 h2 h3,
      fun h4 hwidth => ?_⟩⟩
  exact ⟨_, _, Nat.sub_add_cancel (by omega), lazyMul_add_quotient (Nat.zero_lt_of_lt h3) hq.2 h4 hwidth,
    butterflyCommand_writes hq h1 h2 h3 h4 hwidth⟩

end Sys2Proof.Machine
end

section
/-! O29, O30: NTTINIT's checks in order, and its tables with a supplied root (R191). -/

namespace Sys2Proof.Machine

variable {rs1 rs2 : Reg} {omega : Option Reg} {s : State}

/-! ### The checks before the root -/

section
variable (hq : s.QInRange)
include hq

theorem nttinitChecks_degree
    (hn : ¬ (2 ≤ s.valX rs1 ∧ s.valX rs1 ≤ s.params.nmax ∧ ∃ e, s.valX rs1 = 2 ^ e)) :
    nttinitChecks rs1 s = .error ⟨.degree, rs1.toNat⟩ := by
  rw [← isPow2_iff] at hn
  exact (bind_of_check_passed (checkQ_of_inRange hq)).trans
    (bind_of_check_failed (require_of_false (decide_eq_false hn) _ _))

variable (hn : 2 ≤ s.valX rs1 ∧ s.valX rs1 ≤ s.params.nmax ∧ ∃ e, s.valX rs1 = 2 ^ e)
include hn

/-- With Q and the degree in range, primality and Q ≡ 1 (mod 2n) decide. -/
theorem nttinitChecks_of_degree :
    nttinitChecks rs1 s = (do
      require (isPrime s.modulus) .notPrime 0
      require ((s.modulus - 1) % (2 * s.valX rs1) = 0) .not1Mod2n rs1.toNat) := by
  rw [← isPow2_iff] at hn
  exact (bind_of_check_passed (checkQ_of_inRange hq)).trans
    (bind_of_check_passed (require_of_true (decide_eq_true hn) _ _))

theorem nttinitChecks_notPrime (hp : ¬ s.modulus.Prime) : nttinitChecks rs1 s = .error ⟨.notPrime, 0⟩ := by
  rw [← isPrime_iff, Bool.not_eq_true] at hp
  exact (nttinitChecks_of_degree hq hn).trans (bind_of_check_failed (require_of_false hp _ _))

theorem nttinitChecks_not1Mod2n (hp : s.modulus.Prime) (hmod : (s.modulus - 1) % (2 * s.valX rs1) ≠ 0) :
    nttinitChecks rs1 s = .error ⟨.not1Mod2n, rs1.toNat⟩ := by
  rw [← isPrime_iff] at hp
  exact (nttinitChecks_of_degree hq hn).trans <| (bind_of_check_passed (require_of_true hp _ _)).trans
    (require_of_false (decide_eq_false hmod) _ _)

end

/-! ### The outcome of NTTINIT -/

theorem exec_nttinit_of_failed_check {e : CmdError} (h : nttinitChecks rs1 s = .error e) :
    exec (.nttinit rs1 omega) s = .next (s.fail e) := by
  rw [exec, execNttinit, h]
  rfl

/-- With the checks before the root passed, the supplied root decides. -/
theorem exec_nttinit_supplied (h : nttinitChecks rs1 s = .ok ()) :
    exec (.nttinit rs1 (some rs2)) s = complete s (do
      require (s.valX rs2 < s.modulus ∧ isPrimRoot (s.valX rs2) (2 * s.valX rs1) s.modulus) .omegaBad rs2.toNat
      .ok (buildTables s (s.valX rs1) s.modulus (s.valX rs2))) := by
  rw [exec, execNttinit, h]

/-- The test of a supplied root, in exact arithmetic (R19, R191). -/
theorem supplied_root_iff (hq : s.QInRange) :
    (s.valX rs2 < s.modulus ∧ isPrimRoot (s.valX rs2) (2 * s.valX rs1) s.modulus = true) ↔
      RootOfNegOne s.modulus (s.valX rs1) (s.valX rs2) := by
  have hn := s.valX_lt rs1
  rw [isPrimRoot_iff _ _ _ hq.1 (by omega), Nat.mul_div_cancel_left _ two_pos, RootOfNegOne]

theorem exec_nttinit_of_bad_root (h : nttinitChecks rs1 s = .ok ()) (hq : s.QInRange)
    (hw : ¬ RootOfNegOne s.modulus (s.valX rs1) (s.valX rs2)) :
    exec (.nttinit rs1 (some rs2)) s = .next (s.reported 1 0x19 (BitVec.ofNat 32 rs2.toNat)) := by
  rw [← supplied_root_iff hq] at hw
  exact (exec_nttinit_supplied h).trans (complete_of_check_failed (require_of_false (decide_eq_false hw) _ _))

theorem exec_nttinit_of_supplied_root (h : nttinitChecks rs1 s = .ok ()) (hq : s.QInRange)
    (hw : RootOfNegOne s.modulus (s.valX rs1) (s.valX rs2)) :
    exec (.nttinit rs1 (some rs2)) s =
      .next (buildTables s (s.valX rs1) s.modulus (s.valX rs2)).retire := by
  rw [← supplied_root_iff hq] at hw
  exact (exec_nttinit_supplied h).trans (complete_of_check_passed (require_of_true (decide_eq_true hw) _ _))

/-- Settles O29: the first check that fails is the outcome. -/
theorem nttinitChecksInOrder : Obligations.NttinitChecksInOrder := by
  intro rs1 rs2 omega s
  refine ⟨decode_of_encode_eq (i := .nttinit rs1 none) (assemble_eq_commandWord .nttinit ..) rfl,
    decode_of_encode_eq (i := .nttinit rs1 (some rs2)) (assemble_eq_commandWord .nttinit ..) rfl,
    fun hq => exec_nttinit_of_failed_check (bind_of_check_failed (checkQ_of_not_inRange hq)),
    fun hq hn => exec_nttinit_of_failed_check (nttinitChecks_degree hq hn), fun hq hn =>
      ⟨fun hp => exec_nttinit_of_failed_check (nttinitChecks_notPrime hq hn hp), fun hp =>
        ⟨fun hmod => exec_nttinit_of_failed_check (nttinitChecks_not1Mod2n hq hn hp hmod),
          fun hmod hbad => ?_⟩⟩⟩
  have hchecks := (nttinitChecks_ok_iff rs1 s ()).2 ⟨hq, by rwa [isPow2_iff], hp, hmod⟩
  refine exec_nttinit_of_bad_root hchecks hq fun hw => ?_
  exact hbad.elim (Nat.not_le.2 hw.1) (absurd hw.2)

/-- Settles O30: a supplied root that passes its check builds its tables (`TableParams.tablesBuilt`). -/
theorem nttinitWithRootBuildsTables : Obligations.NttinitWithRootBuildsTables := by
  intro rs1 rs2 s hlegal hq htwo hmax hpow hp hmod hlt hroot
  have hchecks := (nttinitChecks_ok_iff rs1 s ()).2 ⟨hq, ⟨htwo, hmax, hpow⟩, hp, hmod⟩
  have hw : RootOfNegOne s.modulus (s.valX rs1) (s.valX rs2) := ⟨hlt, hroot⟩
  exact ⟨_, exec_nttinit_of_supplied_root hchecks hq hw,
    (tableParams_of_checks hchecks hw).tablesBuilt hlegal⟩

end Sys2Proof.Machine
end

section
/-! O35: the width of a transform. -/

namespace Sys2Proof.Machine

variable {s : State} {latch : Bool}

theorem transformWidth_eq_b52_iff : transformWidth s latch = .b52 ↔
    latch = true ∧ s.params.hasIfma52 = true ∧ s.ctrlIfma52 = true ∧ 16 ≤ s.ntt.n.toNat := by
  simp [transformWidth, State.ifma52En, Config.simdMinN, and_assoc]

theorem width_eq_b64_iff (b : Width) : b = .b64 ↔ b ≠ .b52 := by cases b <;> decide

/-- Settles O35: the width is 52 under the four conditions, and 64 when one of them fails. -/
theorem transformWidthIsFixedByLatchAndCtrl : Obligations.TransformWidthIsFixedByLatchAndCtrl := by
  intro s latch
  refine ⟨transformWidth_eq_b52_iff.2, fun hfails => ?_⟩
  rw [width_eq_b64_iff, ne_eq, transformWidth_eq_b52_iff]
  rintro ⟨hlatch, hhas, hctrl, hn⟩
  simp only [hlatch, hhas, hctrl, Bool.true_eq_false, false_or] at hfails
  omega

end Sys2Proof.Machine
end

section
/-! SUPPORT. The bit reversal of R16 as exponent arithmetic: it is an involution, and it takes the odd powers of
the transforms to the exponents of the forward table. -/

namespace Sys2Proof.Machine

/-- The low a bits go to the top, the others follow. -/
theorem bitrev_add (x a b : Nat) : bitrev x (a + b) = bitrev x a * 2 ^ b + bitrev (x / 2 ^ a) b := by
  induction a generalizing x with
  | zero => simp
  | succ a ih =>
    rw [Nat.add_right_comm, bitrev_succ, ih, bitrev_succ, Nat.div_div_eq_div_mul,
      ← pow_succ', pow_add]
    ring

theorem bitrev_mod (x w : Nat) : bitrev (x % 2 ^ w) w = bitrev x w := by
  induction w generalizing x with
  | zero => simp
  | succ w ih =>
    rw [bitrev_succ, bitrev_succ, pow_succ', Nat.mod_mul_right_mod, Nat.mod_mul_right_div_self, ih]

theorem bitrev_bitrev {x w : Nat} (hx : x < 2 ^ w) : bitrev (bitrev x w) w = x := by
  induction w generalizing x with
  | zero => rw [bitrev_zero_width]; omega
  | succ w ih =>
    rw [pow_succ] at hx
    have hlow := bitrev_lt (x / 2) w
    have htop : bitrev x (w + 1) / 2 ^ w = x % 2 := by
      rw [bitrev_succ, Nat.mul_comm, Nat.mul_add_div (Nat.two_pow_pos w), Nat.div_eq_of_lt hlow, Nat.add_zero]
    have hmod : bitrev x (w + 1) % 2 ^ w = bitrev (x / 2) w := by
      rw [bitrev_succ, Nat.mul_comm, Nat.mul_add_mod, Nat.mod_eq_of_lt hlow]
    rw [bitrev_add, htop, ← bitrev_mod, hmod, ih (by omega), bitrev_succ, Nat.mod_mod, bitrev_zero_width]
    omega

theorem bitrev_one_succ (l : Nat) : bitrev 1 (l + 1) = 2 ^ l := by simp [bitrev_succ]

/-- Entry m + i of a table, m = 2^c: its exponent has the reversal of i on top of a single one bit (R192). -/
theorem bitrev_two_pow_add {i c l : Nat} (hi : i < 2 ^ c) :
    bitrev (2 ^ c + i) (c + (l + 1)) = 2 ^ l * (2 * bitrev i c + 1) := by
  have htop : (2 ^ c + i) / 2 ^ c = 1 := by
    rw [Nat.add_div_left _ (Nat.two_pow_pos c), Nat.div_eq_of_lt hi]
  rw [bitrev_add, htop, ← bitrev_mod, Nat.add_mod_left, bitrev_mod, bitrev_one_succ, pow_succ]
  ring

/-- The 2^l-th power of ω^(2·bitrev(p, L) + 1), with ω of order 2^(L + 1): the power of entry
(2^L + p) div 2^(l + 1), up to the sign that bit l of p says. -/
theorem two_pow_mul_odd_bitrev {p c l : Nat} (hp : p < 2 ^ (c + (l + 1))) :
    2 ^ l * (2 * bitrev p (c + (l + 1)) + 1) =
      2 * 2 ^ (c + (l + 1)) * bitrev p l + 2 ^ (c + (l + 1)) * (p / 2 ^ l % 2) +
        bitrev (2 ^ c + p / 2 ^ (l + 1)) (c + (l + 1)) := by
  have hhigh : p / 2 ^ (l + 1) < 2 ^ c := Nat.div_lt_of_lt_mul (by rwa [← pow_add, Nat.add_comm])
  have hsplit : bitrev p (c + (l + 1)) =
      bitrev p l * 2 ^ (c + 1) + (p / 2 ^ l % 2 * 2 ^ c + bitrev (p / 2 ^ (l + 1)) c) := by
    rw [show c + (l + 1) = l + (c + 1) by omega, bitrev_add, bitrev_succ, Nat.div_div_eq_div_mul, ← pow_succ]
  rw [bitrev_two_pow_add hhigh, hsplit]
  ring

end Sys2Proof.Machine
end

section
/-! SUPPORT. One layer of a transform (R200, R205): what it does to the positions of a block, which values it
can leave, and the layers of a transform one at a time from the last one back. -/

namespace Sys2Proof.Machine

/-- The butterflies of one block of a layer. -/
def layerBlock (f : Nat → Nat → Nat × Nat) (t : Nat) (a : List Nat) : List Nat :=
  (List.zipWith f (a.take t) ((a.drop t).take t)).map Prod.fst ++
    (List.zipWith f (a.take t) ((a.drop t).take t)).map Prod.snd

section
variable {bfly : Nat → Nat → Nat → Nat × Nat} {f : Nat → Nat → Nat × Nat}
  {t blocks root i u bound : Nat} {a : List Nat}

theorem layer_succ : layer bfly t (blocks + 1) root a =
    layerBlock (bfly root) t a ++ layer bfly t blocks (root + 1) (a.drop (2 * t)) := rfl

/-! ### Positions -/

theorem layerBlock_length (hlen : 2 * t ≤ a.length) : (layerBlock f t a).length = 2 * t := by
  simp only [layerBlock, List.length_append, List.length_map, List.length_zipWith, List.length_take,
    List.length_drop]
  omega

theorem layerBlock_getD (hlen : 2 * t ≤ a.length) (hu : u < t) :
    (layerBlock f t a).getD u 0 = (f (a.getD u 0) (a.getD (t + u) 0)).1 ∧
    (layerBlock f t a).getD (t + u) 0 = (f (a.getD u 0) (a.getD (t + u) 0)).2 := by
  have hfst : ((List.zipWith f (a.take t) ((a.drop t).take t)).map Prod.fst).length = t := by simp; omega
  have h1 : u < a.length := by omega
  have h2 : t + u < a.length := by omega
  constructor
  · rw [layerBlock, List.getD_append _ _ _ _ (by omega)]
    simp [List.getD_eq_getElem?_getD, List.getElem?_zipWith, hu, h1, h2]
  · rw [layerBlock, List.getD_append_right _ _ _ _ (by omega), hfst, Nat.add_sub_cancel_left]
    simp [List.getD_eq_getElem?_getD, List.getElem?_zipWith, hu, h1, h2]

/-- Block i pairs its position u with its position t + u. -/
theorem layer_getD (hlen : 2 * t * blocks ≤ a.length) (hi : i < blocks) (hu : u < t) :
    (layer bfly t blocks root a).getD (2 * t * i + u) 0 =
      (bfly (root + i) (a.getD (2 * t * i + u) 0) (a.getD (2 * t * i + (t + u)) 0)).1 ∧
    (layer bfly t blocks root a).getD (2 * t * i + (t + u)) 0 =
      (bfly (root + i) (a.getD (2 * t * i + u) 0) (a.getD (2 * t * i + (t + u)) 0)).2 := by
  induction blocks generalizing root a i with
  | zero => omega
  | succ blocks ih =>
    rw [Nat.mul_succ] at hlen
    have hblock : (layerBlock (bfly root) t a).length = 2 * t := layerBlock_length (by omega)
    rw [layer_succ]
    cases i with
    | zero =>
      rw [Nat.mul_zero, Nat.zero_add, Nat.zero_add, List.getD_append _ _ _ _ (by omega),
        List.getD_append _ _ _ _ (by omega)]
      exact layerBlock_getD (by omega) hu
    | succ i =>
      have hdrop : ∀ d, (a.drop (2 * t)).getD d 0 = a.getD (2 * t + d) 0 := fun d => by
        simp [List.getD_eq_getElem?_getD]
      have := ih (root := root + 1) (a := a.drop (2 * t)) (i := i) (by rw [List.length_drop]; omega) (by omega)
      rw [hdrop, hdrop] at this
      rw [Nat.mul_succ, Nat.add_comm (2 * t * i), Nat.add_assoc, Nat.add_assoc,
        List.getD_append_right _ _ _ _ (by omega), List.getD_append_right _ _ _ _ (by omega), hblock,
        Nat.add_sub_cancel_left, Nat.add_sub_cancel_left, Nat.add_comm i 1, ← Nat.add_assoc root]
      exact this

/-! ### Values -/

/-- A butterfly takes values below a bound to values below it. -/
def KeepsBelow (bound : Nat) (f : Nat → Nat → Nat × Nat) : Prop :=
  ∀ x < bound, ∀ y < bound, (f x y).1 < bound ∧ (f x y).2 < bound

theorem layerBlock_below (hf : KeepsBelow bound f) (ha : ∀ v ∈ a, v < bound) :
    ∀ v ∈ layerBlock f t a, v < bound := by
  have hpair : ∀ z ∈ List.zipWith f (a.take t) ((a.drop t).take t), z.1 < bound ∧ z.2 < bound := by
    intro z hz
    obtain ⟨k, hk, rfl⟩ := List.getElem_of_mem hz
    rw [List.getElem_zipWith]
    exact hf _ (ha _ (List.mem_of_mem_take (List.getElem_mem _))) _
      (ha _ (List.mem_of_mem_drop (List.mem_of_mem_take (List.getElem_mem _))))
  intro v hv
  rcases List.mem_append.1 hv with hv | hv
  · obtain ⟨z, hz, rfl⟩ := List.mem_map.1 hv
    exact (hpair z hz).1
  · obtain ⟨z, hz, rfl⟩ := List.mem_map.1 hv
    exact (hpair z hz).2

/-- A layer keeps a bound that its butterflies keep. -/
theorem layer_below (hf : ∀ i < blocks, KeepsBelow bound (bfly (root + i))) (ha : ∀ v ∈ a, v < bound) :
    ∀ v ∈ layer bfly t blocks root a, v < bound := by
  induction blocks generalizing root a with
  | zero => exact ha
  | succ blocks ih =>
    rw [layer_succ]
    intro v hv
    rcases List.mem_append.1 hv with hv | hv
    · exact layerBlock_below (hf 0 (by omega)) ha v hv
    · refine ih (root := root + 1) (fun i hi => ?_) (fun v hv => ha v (List.mem_of_mem_drop hv)) v hv
      rw [Nat.add_right_comm]
      exact hf (i + 1) (by omega)

end

/-! ### The last of several layers -/

section
variable (bfly : Nat → Nat → Nat → Nat × Nat) (k m t root : Nat) (a : List Nat)

theorem fwdLayers_succ : fwdLayers bfly (k + 1) m t a =
    layer bfly (t / 2 ^ k) (2 ^ k * m) (2 ^ k * m) (fwdLayers bfly k m t a) := by
  induction k generalizing m t a with
  | zero => simp [fwdLayers]
  | succ k ih =>
    rw [fwdLayers, ih, fwdLayers, Nat.div_div_eq_div_mul, ← pow_succ', ← Nat.mul_assoc, ← pow_succ]

theorem invLayers_succ : invLayers bfly (k + 1) m t root a =
    (layer bfly (2 ^ k * t) (m / 2 ^ k) (invLayers bfly k m t root a).2 (invLayers bfly k m t root a).1,
      (invLayers bfly k m t root a).2 + m / 2 ^ k) := by
  induction k generalizing m t root a with
  | zero => simp [invLayers]
  | succ k ih =>
    rw [invLayers, ih, invLayers, Nat.div_div_eq_div_mul, ← pow_succ', ← Nat.mul_assoc, ← pow_succ]

end

end Sys2Proof.Machine
end

section
/-! SUPPORT. What the layers of the transforms compute modulo q: a forward layer keeps the value of each point's
block polynomial (R200), an inverse layer doubles it (R205), and both keep the bounds of R207. -/

namespace Sys2Proof.Machine

variable {q : Nat}

/-! ### The polynomial of a block -/

/-- The value at x of the polynomial whose coefficients are the block of `size` words that position p is in. -/
def blockValue (x : ZMod q) (a : List Nat) (size p : Nat) : ZMod q :=
  ∑ u ∈ Finset.range size, (a.getD (size * (p / size) + u) 0 : ZMod q) * x ^ u

theorem blockValue_one (x : ZMod q) (a : List Nat) (p : Nat) : blockValue x a 1 p = (a.getD p 0 : ZMod q) := by
  simp [blockValue]

/-- A block around p as its two halves. -/
theorem blockValue_double (x : ZMod q) (a : List Nat) (t p : Nat) :
    blockValue x a (2 * t) p = ∑ u ∈ Finset.range t,
      ((a.getD (2 * t * (p / (2 * t)) + u) 0 : ZMod q) +
        x ^ t * (a.getD (2 * t * (p / (2 * t)) + (t + u)) 0 : ZMod q)) * x ^ u := by
  rw [blockValue, Nat.two_mul t, Finset.sum_range_add, ← Finset.sum_add_distrib]
  refine Finset.sum_congr rfl fun u _ => ?_
  rw [pow_add]
  ring

/-- The half around p starts at its block or at the block's middle. -/
theorem half_start (t p : Nat) : t * (p / t) = 2 * t * (p / (2 * t)) + t * (p / t % 2) := by
  rw [Nat.mul_comm 2 t, ← Nat.div_div_eq_div_mul, Nat.mul_assoc, ← Nat.mul_add, Nat.div_add_mod]

/-- The half around p, by bit log2 t of p. -/
theorem blockValue_half (x : ZMod q) (a : List Nat) (t p : Nat) :
    (Even (p / t) → blockValue x a t p =
      ∑ u ∈ Finset.range t, (a.getD (2 * t * (p / (2 * t)) + u) 0 : ZMod q) * x ^ u) ∧
    (Odd (p / t) → blockValue x a t p =
      ∑ u ∈ Finset.range t, (a.getD (2 * t * (p / (2 * t)) + (t + u)) 0 : ZMod q) * x ^ u) := by
  refine ⟨fun heven => ?_, fun hodd => ?_⟩
  · rw [blockValue, half_start, Nat.even_iff.1 heven, Nat.mul_zero, Nat.add_zero]
  · rw [blockValue, half_start, Nat.odd_iff.1 hodd, Nat.mul_one]
    simp only [Nat.add_assoc]

/-! ### Butterflies modulo q -/

/-- A forward butterfly with twiddle r on values below 4q (R197). -/
structure FwdButterfly (q : Nat) (r : ZMod q) (f : Nat → Nat → Nat × Nat) : Prop where
  keeps : KeepsBelow (4 * q) f
  first : ∀ x < 4 * q, ∀ y < 4 * q, ((f x y).1 : ZMod q) = x + r * y
  second : ∀ x < 4 * q, ∀ y < 4 * q, ((f x y).2 : ZMod q) = x - r * y

/-- An inverse butterfly with twiddle r and scaling c on values below 2q (R202, R206). -/
structure InvButterfly (q : Nat) (c r : ZMod q) (f : Nat → Nat → Nat × Nat) : Prop where
  keeps : KeepsBelow (2 * q) f
  first : ∀ x < 2 * q, ∀ y < 2 * q, ((f x y).1 : ZMod q) = c * (x + y)
  second : ∀ x < 2 * q, ∀ y < 2 * q, ((f x y).2 : ZMod q) = c * r * (x - y)

theorem fwdBfly_forward {w : Nat} {b : Width} (hq : 0 < q) (hq62 : q < 2 ^ 62) (hb : 4 * q ≤ 2 ^ widthBits b) :
    FwdButterfly q w fun x y => fwdBfly x y w (fac w b q) q b := by
  have hspec := fun {x} hx {y} (hy : y < 4 * q) => fwdBfly_spec (x := x) (y := y) (w := w) (b := b) hq hq62 hx
    (hy.trans_le hb)
  refine ⟨fun x hx y hy => ?_, fun x hx y hy => ?_, fun x hx y hy => ?_⟩
  · obtain ⟨h1, h2, -⟩ := hspec hx hy
    exact ⟨h1, h2⟩
  · obtain ⟨-, -, h1, -⟩ := hspec hx hy
    simpa using (ZMod.natCast_eq_natCast_iff ..).2 h1
  · obtain ⟨-, -, -, h2⟩ := hspec hx hy
    exact eq_sub_of_add_eq (by simpa using (ZMod.natCast_eq_natCast_iff ..).2 h2)

theorem invBfly_inverse {w : Nat} {b : Width} (hq : 0 < q) (hq62 : q < 2 ^ 62) (hb : 4 * q ≤ 2 ^ widthBits b) :
    InvButterfly q 1 w fun x y => invBfly x y w (fac w b q) q b := by
  have hspec := fun {x} hx {y} hy => invBfly_spec (x := x) (y := y) (w := w) (b := b) hq hq62 hx hy (by omega)
  refine ⟨fun x hx y hy => ?_, fun x hx y hy => ?_, fun x hx y hy => ?_⟩
  · obtain ⟨h1, h2, -⟩ := hspec hx hy
    exact ⟨h1, h2⟩
  · obtain ⟨-, -, h1, -⟩ := hspec hx hy
    simpa using (ZMod.natCast_eq_natCast_iff ..).2 h1
  · obtain ⟨-, -, -, h2⟩ := hspec hx hy
    rw [one_mul, mul_sub]
    exact eq_sub_of_add_eq (by simpa using (ZMod.natCast_eq_natCast_iff ..).2 h2)

/-- The fused last butterfly scales by 1/n (R206). -/
theorem invFinalBfly_inverse {invN w : Nat} {b : Width} (hq : 0 < q) (hq62 : q < 2 ^ 62)
    (hb : 4 * q ≤ 2 ^ widthBits b) :
    InvButterfly q invN w
      (invFinalBfly q invN (fac invN b q) (invN * w % q) (fac (invN * w % q) b q) b) := by
  have hlazy := fun {y v} (hy : y < 4 * q) => (lazyMul_spec y v q b hq hq62 (hy.trans_le hb)).2
  have hsum := fun {x y : Nat} (hx : x < 2 * q) (hy : y < 2 * q) =>
    condSub_lt (m := 2 * q) (v := x + y) (by omega)
  refine ⟨fun x hx y hy => ⟨(hlazy ((hsum hx hy).trans_le (by omega))).1, (hlazy (by omega)).1⟩,
    fun x hx y hy => ?_, fun x hx y hy => ?_⟩
  · have hmod := (hlazy (v := invN) ((hsum hx hy).trans_le (by omega))).2
    have hred := condSub_modEq (Dvd.intro_left 2 rfl : q ∣ 2 * q) (x + y)
    have := (ZMod.natCast_eq_natCast_iff ..).2 (Nat.ModEq.trans hmod (hred.mul_right invN))
    rw [Nat.cast_mul, Nat.cast_add] at this
    exact this.trans (mul_comm _ _)
  · have hmod := (hlazy (y := x + 2 * q - y) (v := invN * w % q) (by omega)).2
    have := (ZMod.natCast_eq_natCast_iff ..).2 hmod
    rw [Nat.cast_mul, Nat.cast_sub (by omega), ZMod.natCast_mod, Nat.cast_add, Nat.cast_mul 2 q,
      ZMod.natCast_self, mul_zero, add_zero, Nat.cast_mul] at this
    exact this.trans (mul_comm _ _)

/-! ### One layer -/

section
variable {bfly : Nat → Nat → Nat → Nat × Nat} {t blocks root p : Nat} {a : List Nat} {x c r : ZMod q}

theorem getD_lt {bound i : Nat} (ha : ∀ v ∈ a, v < bound) (hi : i < a.length) : a.getD i 0 < bound := by
  rw [List.getD_eq_getElem _ _ hi]
  exact ha _ (List.getElem_mem _)

/-- One pair of the block around p: what the layer leaves there, from two values below the bound. -/
theorem layer_pair {bound u : Nat} (hlen : 2 * t * blocks ≤ a.length) (hp : p < 2 * t * blocks)
    (ha : ∀ v ∈ a, v < bound) (hu : u < t) :
    ∃ y < bound, ∃ z < bound,
      a.getD (2 * t * (p / (2 * t)) + u) 0 = y ∧ a.getD (2 * t * (p / (2 * t)) + (t + u)) 0 = z ∧
      (layer bfly t blocks root a).getD (2 * t * (p / (2 * t)) + u) 0 =
        (bfly (root + p / (2 * t)) y z).1 ∧
      (layer bfly t blocks root a).getD (2 * t * (p / (2 * t)) + (t + u)) 0 =
        (bfly (root + p / (2 * t)) y z).2 := by
  have hi : p / (2 * t) < blocks := Nat.div_lt_of_lt_mul hp
  have hend := Nat.mul_le_mul_left (2 * t) hi
  rw [Nat.mul_succ] at hend
  exact ⟨_, getD_lt ha (by omega), _, getD_lt ha (by omega), rfl, rfl, layer_getD hlen hi hu⟩

/-- A forward layer splits the polynomial of a block into its values on the two halves of its roots (R200). -/
theorem blockValue_fwdLayer (hlen : 2 * t * blocks ≤ a.length) (hp : p < 2 * t * blocks)
    (ha : ∀ v ∈ a, v < 4 * q) (hb : FwdButterfly q r (bfly (root + p / (2 * t))))
    (hx : x ^ t = (-1) ^ (p / t) * r) :
    blockValue x (layer bfly t blocks root a) t p = blockValue x a (2 * t) p := by
  rw [blockValue_double]
  rcases Nat.even_or_odd (p / t) with heven | hodd
  · rw [(blockValue_half x _ t p).1 heven]
    refine Finset.sum_congr rfl fun u hu => ?_
    obtain ⟨y, hy, z, hz, hlow, hhigh, hfirst, -⟩ := layer_pair hlen hp ha (Finset.mem_range.1 hu)
    rw [hfirst, hlow, hhigh, hb.first y hy z hz, hx, heven.neg_one_pow, one_mul]
  · rw [(blockValue_half x _ t p).2 hodd]
    refine Finset.sum_congr rfl fun u hu => ?_
    obtain ⟨y, hy, z, hz, hlow, hhigh, -, hsecond⟩ := layer_pair hlen hp ha (Finset.mem_range.1 hu)
    rw [hsecond, hlow, hhigh, hb.second y hy z hz, hx, hodd.neg_one_pow]
    ring

/-- An inverse layer joins two halves into a polynomial that takes, scaled, the values of both (R205). -/
theorem blockValue_invLayer (hlen : 2 * t * blocks ≤ a.length) (hp : p < 2 * t * blocks)
    (ha : ∀ v ∈ a, v < 2 * q) (hb : InvButterfly q c r (bfly (root + p / (2 * t))))
    (hx : x ^ t * r = (-1) ^ (p / t)) :
    blockValue x (layer bfly t blocks root a) (2 * t) p = 2 * c * blockValue x a t p := by
  rw [blockValue_double]
  have hpair : ∀ u < t,
      ((layer bfly t blocks root a).getD (2 * t * (p / (2 * t)) + u) 0 : ZMod q) +
        x ^ t * ((layer bfly t blocks root a).getD (2 * t * (p / (2 * t)) + (t + u)) 0 : ZMod q) =
      c * ((1 + (-1) ^ (p / t)) * (a.getD (2 * t * (p / (2 * t)) + u) 0 : ZMod q) +
        (1 - (-1) ^ (p / t)) * (a.getD (2 * t * (p / (2 * t)) + (t + u)) 0 : ZMod q)) := by
    intro u hu
    obtain ⟨y, hy, z, hz, hlow, hhigh, hfirst, hsecond⟩ := layer_pair hlen hp ha hu
    rw [hfirst, hsecond, hlow, hhigh, hb.first y hy z hz, hb.second y hy z hz, ← hx]
    ring
  rcases Nat.even_or_odd (p / t) with heven | hodd
  · rw [(blockValue_half x _ t p).1 heven, Finset.mul_sum]
    refine Finset.sum_congr rfl fun u hu => ?_
    rw [hpair u (Finset.mem_range.1 hu), heven.neg_one_pow]
    ring
  · rw [(blockValue_half x _ t p).2 hodd, Finset.mul_sum]
    refine Finset.sum_congr rfl fun u hu => ?_
    rw [hpair u (Finset.mem_range.1 hu), hodd.neg_one_pow]
    ring

end

/-! ### The layers of a transform of 2^L words -/

/-- Entry m + i of the table r, m = 2^c, is the 2^l-th power of the point of every position in block i, up to a
sign for the second half of the block, L = c + l + 1 (R192). -/
def TwiddlesFit (L : Nat) (r x : Nat → ZMod q) : Prop :=
  ∀ c l, c + l + 1 = L → ∀ p < 2 ^ L, x p ^ 2 ^ l = (-1) ^ (p / 2 ^ l) * r (2 ^ c + p / 2 ^ (l + 1))

section
variable {L k : Nat} {bfly : Nat → Nat → Nat → Nat × Nat} {a : List Nat} {x r : Nat → ZMod q}

/-- Layer k of a forward transform, from the layers before it. -/
theorem fwdLayers_layer {c : Nat} (bfly : Nat → Nat → Nat → Nat × Nat) (a : List Nat) (hL : k + c + 1 = L) :
    fwdLayers bfly (k + 1) 1 (2 ^ L / 2) a =
      layer bfly (2 ^ c) (2 ^ k) (2 ^ k) (fwdLayers bfly k 1 (2 ^ L / 2) a) := by
  have ht : 2 ^ L / 2 / 2 ^ k = 2 ^ c := by
    rw [← hL, pow_succ, Nat.mul_div_cancel _ two_pos, pow_add, Nat.mul_div_cancel_left _ (Nat.two_pow_pos k)]
  rw [fwdLayers_succ, ht, Nat.mul_one]

theorem fwdLayers_length (bfly : Nat → Nat → Nat → Nat × Nat) (hk : k ≤ L) (ha : a.length = 2 ^ L) :
    (fwdLayers bfly k 1 (2 ^ L / 2) a).length = 2 ^ L := by
  induction k with
  | zero => exact ha
  | succ k ih =>
    obtain ⟨c, rfl⟩ := Nat.exists_eq_add_of_le hk
    have hprev := ih (by omega)
    rw [fwdLayers_layer (c := c) bfly a (by omega), layer_length, hprev]
    rw [hprev, ← pow_succ', ← pow_add]
    exact Nat.pow_le_pow_right two_pos (by omega)

/-- The forward butterflies of a transform of 2^L words (R200). -/
def FwdTable (q L : Nat) (r : Nat → ZMod q) (bfly : Nat → Nat → Nat → Nat × Nat) : Prop :=
  ∀ i < 2 ^ L, FwdButterfly q (r i) (bfly i)

theorem fwdLayers_below (hb : FwdTable q L r bfly) (ha : ∀ v ∈ a, v < 4 * q) (hk : k ≤ L) :
    ∀ v ∈ fwdLayers bfly k 1 (2 ^ L / 2) a, v < 4 * q := by
  induction k with
  | zero => exact ha
  | succ k ih =>
    have hpow : 2 ^ (k + 1) ≤ 2 ^ L := Nat.pow_le_pow_right two_pos hk
    rw [pow_succ] at hpow
    rw [fwdLayers_succ, Nat.mul_one]
    exact layer_below (fun i hi => (hb _ (by omega)).keeps) (ih (by omega))

/-- The layers keep the value of the source polynomial at the point of each position (R200). -/
theorem fwdLayers_blockValue (hb : FwdTable q L r bfly) (hr : TwiddlesFit L r x) (hlen : a.length = 2 ^ L)
    (ha : ∀ v ∈ a, v < 4 * q) {c p : Nat} (hL : k + c = L) (hp : p < 2 ^ L) :
    blockValue (x p) (fwdLayers bfly k 1 (2 ^ L / 2) a) (2 ^ c) p = blockValue (x p) a (2 ^ L) p := by
  induction k generalizing c with
  | zero => rw [← hL, Nat.zero_add]; rfl
  | succ k ih =>
    have hsize : 2 * 2 ^ c * 2 ^ k = 2 ^ L := by rw [← pow_succ', ← pow_add]; congr 1; omega
    have hblock : p / (2 * 2 ^ c) < 2 ^ k := Nat.div_lt_of_lt_mul (by rwa [hsize])
    have hpow : 2 ^ (k + 1) ≤ 2 ^ L := Nat.pow_le_pow_right two_pos (by omega)
    rw [pow_succ] at hpow
    rw [fwdLayers_layer (c := c) bfly a (by omega), ← ih (c := c + 1) (by omega), pow_succ' 2 c]
    refine blockValue_fwdLayer (r := r (2 ^ k + p / (2 * 2 ^ c))) ?_ (by rwa [hsize])
      (fwdLayers_below hb ha (by omega)) (hb _ (by omega)) ?_
    · rw [hsize, fwdLayers_length bfly (by omega) hlen]
    · rw [← pow_succ']
      exact hr k c (by omega) p hp

/-- Layer k of an inverse transform, from the layers before it. -/
theorem invLayers_layer {c : Nat} (bfly : Nat → Nat → Nat → Nat × Nat) (a : List Nat) (hL : k + c + 1 = L) :
    invLayers bfly (k + 1) (2 ^ L / 2) 1 1 a =
      (layer bfly (2 ^ k) (2 ^ c) (invLayers bfly k (2 ^ L / 2) 1 1 a).2 (invLayers bfly k (2 ^ L / 2) 1 1 a).1,
        (invLayers bfly k (2 ^ L / 2) 1 1 a).2 + 2 ^ c) := by
  have hm : 2 ^ L / 2 / 2 ^ k = 2 ^ c := by
    rw [← hL, pow_succ, Nat.mul_div_cancel _ two_pos, pow_add, Nat.mul_div_cancel_left _ (Nat.two_pow_pos k)]
  rw [invLayers_succ, hm, Nat.mul_one]

/-- The table index that layer k begins at (R193, R205). -/
theorem invLayers_index {c : Nat} (bfly : Nat → Nat → Nat → Nat × Nat) (a : List Nat) (hL : k + c + 1 = L) :
    (invLayers bfly k (2 ^ L / 2) 1 1 a).2 = 2 ^ L - 2 * 2 ^ c + 1 := by
  induction k generalizing c with
  | zero => rw [← hL, Nat.zero_add, pow_succ', Nat.sub_self]; rfl
  | succ k ih =>
    have hpow : 2 ^ (c + 1 + 1) ≤ 2 ^ L := Nat.pow_le_pow_right two_pos (by omega)
    rw [invLayers_layer (c := c + 1) bfly a (by omega), ih (c := c + 1) (by omega)]
    rw [pow_succ', pow_succ'] at hpow
    rw [pow_succ']
    omega

theorem invLayers_length (bfly : Nat → Nat → Nat → Nat × Nat) (hk : k < L) (ha : a.length = 2 ^ L) :
    (invLayers bfly k (2 ^ L / 2) 1 1 a).1.length = 2 ^ L := by
  induction k with
  | zero => exact ha
  | succ k ih =>
    obtain ⟨c, rfl⟩ := Nat.exists_eq_add_of_le hk
    have hprev := ih (by omega)
    rw [invLayers_layer (c := c + 1) bfly a (by omega), layer_length, hprev]
    rw [hprev, ← pow_succ', ← pow_add]
    exact Nat.pow_le_pow_right two_pos (by omega)

/-- The inverse butterflies of a transform of 2^L words: those of block 2^c of R stand from index
2^L − 2·2^c + 1 on, with inverse twiddles (R193, R205). -/
def InvTable (q L : Nat) (r : Nat → ZMod q) (bfly : Nat → Nat → Nat → Nat × Nat) : Prop :=
  ∀ c < L, ∀ i < 2 ^ c, ∃ r',
    r (2 ^ c + i) * r' = 1 ∧ InvButterfly q 1 r' (bfly (2 ^ L - 2 * 2 ^ c + 1 + i))

theorem invLayers_below (hb : InvTable q L r bfly) (ha : ∀ v ∈ a, v < 2 * q) (hk : k < L) :
    ∀ v ∈ (invLayers bfly k (2 ^ L / 2) 1 1 a).1, v < 2 * q := by
  induction k with
  | zero => exact ha
  | succ k ih =>
    obtain ⟨c, rfl⟩ := Nat.exists_eq_add_of_le hk
    rw [invLayers_layer (c := c + 1) bfly a (by omega), invLayers_index (c := c + 1) bfly a (by omega)]
    refine layer_below (fun i hi => ?_) (ih (by omega))
    obtain ⟨r', -, hbfly⟩ := hb (c + 1) (by omega) i hi
    exact hbfly.keeps

/-- After k inverse layers the block around p has the polynomial whose value at the point of p is 2^k times source
word p (R205). -/
theorem invLayers_blockValue (hb : InvTable q L r bfly) (hr : TwiddlesFit L r x) (hlen : a.length = 2 ^ L)
    (ha : ∀ v ∈ a, v < 2 * q) {p : Nat} (hk : k < L) (hp : p < 2 ^ L) :
    blockValue (x p) (invLayers bfly k (2 ^ L / 2) 1 1 a).1 (2 ^ k) p = 2 ^ k * (a.getD p 0 : ZMod q) := by
  induction k with
  | zero => rw [pow_zero, pow_zero, one_mul]; exact blockValue_one _ _ _
  | succ k ih =>
    obtain ⟨c, hc⟩ : ∃ c, k + c + 1 = L := ⟨L - k - 1, by omega⟩
    have hsize : 2 * 2 ^ k * 2 ^ c = 2 ^ L := by rw [← pow_succ', ← pow_add]; congr 1; omega
    have hblock : p / (2 * 2 ^ k) < 2 ^ c := Nat.div_lt_of_lt_mul (by rwa [hsize])
    obtain ⟨r', hinv, hbfly⟩ := hb c (by omega) _ hblock
    have hfit := hr c k (by omega) p hp
    rw [pow_succ' 2 k] at hfit
    rw [invLayers_layer bfly a hc, pow_succ' 2 k]
    have hbelow := invLayers_below hb ha (k := k) (by omega)
    refine (blockValue_invLayer (c := 1) (r := r') ?_ (by rwa [hsize]) hbelow ?_ ?_).trans ?_
    · rw [hsize, invLayers_length bfly (by omega) hlen]
    · rwa [invLayers_index bfly a hc]
    · rw [hfit, mul_assoc, hinv, mul_one]
    · rw [ih (by omega), pow_succ' (2 : ZMod q)]
      ring

end

end Sys2Proof.Machine
end

section
/-! SUPPORT. The one shape of NTTFWD and NTTINV (R199, R204): the checks, then the transform of the source stored at
the destination. -/

namespace Sys2Proof.Machine

/-- A transform command that stores `out` at the base in `x[rd]`. -/
def transformCommand (s : State) (rd rs1 : Reg) (fin : Nat) (out : List Nat) : Outcome :=
  complete s do
    transformChecks s rd rs1 fin
    .ok (s.memWrite (s.valX rd) out)

theorem exec_nttfwd (rd rs1 : Reg) (fin : FwdIn) (fout : FwdOut) (s : State) :
    exec (.nttfwd rd rs1 fin fout) s =
      transformCommand s rd rs1 (fwdInFactor fin) (s.fwdOutput fout (s.source rs1)) := rfl

theorem exec_nttinv (rd rs1 : Reg) (fin fout : InvFactor) (s : State) :
    exec (.nttinv rd rs1 fin fout) s =
      transformCommand s rd rs1 (invInFactor fin) (s.invOutput fout (s.source rs1)) := rfl

/-- What a buffer store leaves: the words of the list, truncated to 64 bits, and every other byte and field. -/
theorem memWrite_storesOnly (s : State) (base : Nat) (vs : List Nat) :
    StoresOnly s (s.memWrite base vs).retire base vs.length fun i => vs.getD i 0 % 2 ^ 64 := by
  refine ⟨fun i hi => ?_, fun a ha => ?_, rfl⟩
  · exact (s.memRead_memWrite_inside base vs hi).trans (by rw [← List.getD_eq_getElem vs 0 hi])
  · exact s.byteAt_writeWords_outside _ _ (by rwa [List.length_map])

section
variable {s : State} {rd rs1 : Reg} {fin : Nat} {out : List Nat}

theorem transformCommand_noTables (hv : s.ntt.valid = false) :
    transformCommand s rd rs1 fin out = .next (s.reported 1 0x1B 0) :=
  complete_of_check_failed (bind_of_check_failed (require_of_false hv _ _))

variable (hv : s.ntt.valid = true)
include hv

/-- With VALID = 1, the buffers and the source words decide. -/
theorem transformChecks_of_valid : transformChecks s rd rs1 fin = (do
    checkBuffers s s.ntt.n.toNat [rd, rs1]
    checkElems s (fin * s.ntt.q.toNat) [(.elementA, rs1)] s.ntt.n.toNat 0) :=
  bind_of_check_passed (require_of_true hv _ _)

theorem transformCommand_destination (hd : ¬ s.Fits rd s.ntt.n.toNat) :
    transformCommand s rd rs1 fin out = .next (s.reported 1 0x15 (BitVec.ofNat 32 rd.toNat)) :=
  complete_of_check_failed <| (transformChecks_of_valid hv).trans <|
    bind_of_check_failed (checkBuffers_failed (pre := []) (List.forall_mem_nil _) hd [rs1])

variable (hd : s.Fits rd s.ntt.n.toNat)
include hd

theorem transformCommand_source (h1 : ¬ s.Fits rs1 s.ntt.n.toNat) :
    transformCommand s rd rs1 fin out = .next (s.reported 1 0x15 (BitVec.ofNat 32 rs1.toNat)) :=
  complete_of_check_failed <| (transformChecks_of_valid hv).trans <|
    bind_of_check_failed (checkBuffers_failed (pre := [rd]) (by simpa using hd) h1 [])

variable (h1 : s.Fits rs1 s.ntt.n.toNat)
include h1

theorem transformCommand_element {i : Nat} (hi : i < s.ntt.n.toNat)
    (hbefore : ∀ j < i, elem s rs1 j < fin * s.ntt.q.toNat) (hbad : fin * s.ntt.q.toNat ≤ elem s rs1 i) :
    transformCommand s rd rs1 fin out = .next (s.reported 1 0x12 (BitVec.ofNat 32 i)) := by
  have hbuffers : checkBuffers s s.ntt.n.toNat [rd, rs1] = .ok () :=
    (checkBuffers_ok_iff ..).2 (by simp [hd, h1])
  have hrow := checkRow_failed (c := .elementA) (pre := []) (List.forall_mem_nil _) hbad []
  exact complete_of_check_failed <| (transformChecks_of_valid hv).trans <|
    (bind_of_check_passed hbuffers).trans
      (checkElems_failed (Nat.zero_le i) (by omega) (fun j _ hj => by simpa using hbefore j hj) hrow)

theorem transformCommand_stores (ha : ∀ i < s.ntt.n.toNat, elem s rs1 i < fin * s.ntt.q.toNat) :
    transformCommand s rd rs1 fin out = .next (s.memWrite (s.valX rd) out).retire :=
  complete_of_check_passed ((transformChecks_ok_iff ..).2 ⟨hv, ⟨hd, h1⟩, ha⟩)

end

end Sys2Proof.Machine
end

section
/-! O36, O37: the two transform commands. -/

namespace Sys2Proof.Machine

variable {s : State}

theorem source_length (s : State) (r : Reg) : (s.source r).length = s.ntt.n.toNat := by
  rw [List.length_map, List.length_range]

/-- The degree of tables is a power of two, at least 2. -/
theorem TablesHold.exists_log {n q w : Nat} (h : TablesHold s n q w) : ∃ L, n = 2 ^ (L + 1) := by
  obtain ⟨⟨htwo, -, hpow⟩, -⟩ := h
  obtain ⟨_ | L, rfl⟩ := (isPow2_iff n).1 hpow
  · omega
  · exact ⟨L, rfl⟩

theorem fwdOutput_length {L : Nat} {a : List Nat} (hn : s.ntt.n.toNat = 2 ^ (L + 1))
    (ha : a.length = s.ntt.n.toNat) (fout : FwdOut) : (s.fwdOutput fout a).length = s.ntt.n.toNat := by
  rw [hn] at ha
  rw [State.fwdOutput, forwardNTT, List.length_map, hn, Nat.log2_two_pow]
  exact fwdLayers_length _ le_rfl ha

theorem invOutput_length {L : Nat} {a : List Nat} (hn : s.ntt.n.toNat = 2 ^ (L + 1))
    (ha : a.length = s.ntt.n.toNat) (fout : InvFactor) : (s.invOutput fout a).length = s.ntt.n.toNat := by
  rw [hn] at ha
  have hlayers := fun bfly => invLayers_length bfly (Nat.lt_succ_self L) ha
  rw [State.invOutput, inverseNTT, invFinal, List.length_map, hn, Nat.log2_two_pow, Nat.add_sub_cancel,
    layer_length, hlayers]
  rw [hlayers]
  omega

theorem encode_nttfwd (rd rs1 : Reg) (fin : FwdIn) (fout : FwdOut) :
    encode (.nttfwd rd rs1 fin fout) =
      commandWord 0x42 rd rs1 0 0 0 (if fin = .four then 1 else 0) (if fout = .four then 1 else 0) := by
  have hin : (fwdInFlag fin).toNat = if fin = .four then 1 else 0 := by cases fin <;> rfl
  have hout : (fwdOutFlag fout).toNat = if fout = .four then 1 else 0 := by cases fout <;> rfl
  rw [← hin, ← hout]
  exact assemble_eq_commandWord .nttfwd ..

theorem encode_nttinv (rd rs1 : Reg) (fin fout : InvFactor) :
    encode (.nttinv rd rs1 fin fout) =
      commandWord 0x44 rd rs1 0 0 0 (if fin = .two then 1 else 0) (if fout = .two then 1 else 0) := by
  have hflag : ∀ f : InvFactor, (invFactorFlag f).toNat = if f = .two then 1 else 0 := by
    intro f
    cases f <;> rfl
  rw [← hflag, ← hflag]
  exact assemble_eq_commandWord .nttinv ..

/-- Settles O36: a transform command that stores the forward transform of its source. -/
theorem nttfwdMeaning : Obligations.NttfwdMeaning := by
  intro rd rs1 fin fout s
  rw [exec_nttfwd]
  refine ⟨decode_of_encode_eq (encode_nttfwd rd rs1 fin fout) rfl, transformCommand_noTables,
    transformCommand_destination, transformCommand_source, fun hv hd h1 =>
      ⟨fun i => transformCommand_element hv hd h1, fun ha =>
        ⟨_, _, transformCommand_stores hv hd h1 ha, rfl, fun hok => ?_, memWrite_storesOnly s _ _⟩⟩⟩
  obtain ⟨L, hn⟩ := (hok hv).exists_log
  exact fwdOutput_length hn (source_length s rs1) fout

/-- Settles O37: a transform command that stores the inverse transform of its source. -/
theorem nttinvMeaning : Obligations.NttinvMeaning := by
  intro rd rs1 fin fout s
  rw [exec_nttinv]
  refine ⟨decode_of_encode_eq (encode_nttinv rd rs1 fin fout) rfl, transformCommand_noTables,
    transformCommand_destination, transformCommand_source, fun hv hd h1 =>
      ⟨fun i => transformCommand_element hv hd h1, fun ha =>
        ⟨_, _, transformCommand_stores hv hd h1 ha, rfl, fun hok => ?_, memWrite_storesOnly s _ _⟩⟩⟩
  obtain ⟨L, hn⟩ := (hok hv).exists_log
  exact invOutput_length hn (source_length s rs1) fout

end Sys2Proof.Machine
end

section
/-! SUPPORT. The tables of NTTINIT as twiddles modulo q (R192 to R194), and what both transforms compute with them
(R207, R208). -/

namespace Sys2Proof.Machine

/-! ### The tables modulo q -/

section
variable {s : State} {L q w : Nat} (h : TablesHold s (2 ^ L) q w)
include h

theorem TablesHold.prime : q.Prime := by
  obtain ⟨-, ⟨hp, -⟩, -⟩ := h
  exact hp

theorem TablesHold.lt_limit : q < 2 ^ 62 := by
  obtain ⟨-, ⟨-, hlt, -⟩, -⟩ := h
  exact hlt

/-- The root is a root of −1. -/
theorem TablesHold.root_pow : (w : ZMod q) ^ 2 ^ L = -1 := by
  have hq := h.prime.two_le
  obtain ⟨-, -, ⟨-, hroot⟩, -⟩ := h
  rw [← Nat.cast_pow, ← ZMod.natCast_mod, hroot, Nat.cast_sub (by omega), ZMod.natCast_self,
    Nat.cast_one, zero_sub]

/-- Entry k of R is the power of the root by the reversal of k (R192). -/
theorem TablesHold.twiddle {k : Nat} (hk : k < 2 ^ L) : (s.tRead 0 k : ZMod q) = (w : ZMod q) ^ bitrev k L := by
  obtain ⟨-, -, -, -, -, -, hpowers, -⟩ := h
  have := hpowers (bitrev k L) (bitrev_lt k L)
  rw [Nat.log2_two_pow, bitrev_bitrev hk] at this
  rw [this, ZMod.natCast_mod, Nat.cast_pow]

/-- Block 2^c of R⁻¹ stands in RI from index 2^L − 2·2^c + 1 on (R193). -/
theorem TablesHold.inverse {c i : Nat} (hc : c < L) (hi : i < 2 ^ c) :
    (s.tRead 0 (2 ^ c + i) : ZMod q) * (s.tRead 1 (2 ^ L - 2 * 2 ^ c + 1 + i) : ZMod q) = 1 := by
  obtain ⟨-, -, -, -, -, -, -, ⟨-, hinv⟩, -⟩ := h
  rw [Nat.log2_two_pow] at hinv
  have := congrArg (Nat.cast : Nat → ZMod q) (hinv c hc i hi).2
  rw [ZMod.natCast_mod, Nat.cast_mul, Nat.cast_one] at this
  rwa [mul_comm]

/-- NTT_INV_N inverts the degree (R34). -/
theorem TablesHold.invN : (2 : ZMod q) ^ L * (s.ntt.invN.toNat : ZMod q) = 1 := by
  obtain ⟨-, -, -, -, ⟨-, hinv⟩, -⟩ := h
  have := congrArg (Nat.cast : Nat → ZMod q) hinv
  rwa [ZMod.natCast_mod, Nat.cast_mul, Nat.cast_pow, Nat.cast_one] at this

theorem TablesHold.fwdFactor (b : Width) {k : Nat} (hk : k < 2 ^ L) :
    s.tRead (fwdFactorTable b) k = fac (s.tRead 0 k) b q := by
  obtain ⟨-, -, -, -, -, -, -, -, hfac⟩ := h
  obtain ⟨h64, h52, -⟩ := hfac k hk
  cases b with
  | b64 => exact h64
  | b52 => exact h52

theorem TablesHold.invFactor (b : Width) {k : Nat} (hk : k < 2 ^ L) :
    s.tRead (invFactorTable b) k = fac (s.tRead 1 k) b q := by
  obtain ⟨-, -, -, -, -, -, -, -, hfac⟩ := h
  obtain ⟨-, -, h64, h52⟩ := hfac k hk
  cases b with
  | b64 => exact h64
  | b52 => exact h52

/-- The points of R208 and the table R fit: both are powers of the root (`two_pow_mul_odd_bitrev`). -/
theorem TablesHold.twiddlesFit :
    TwiddlesFit L (fun k => (s.tRead 0 k : ZMod q)) fun p => (w : ZMod q) ^ (2 * bitrev p L + 1) := by
  rintro c l hL p hp
  have hroot := h.root_pow
  have hhigh : p / 2 ^ (l + 1) < 2 ^ c := Nat.div_lt_of_lt_mul (by rwa [← pow_add, show l + 1 + c = L by omega])
  have hpow : 2 ^ (c + 1) ≤ 2 ^ L := Nat.pow_le_pow_right two_pos (by omega)
  rw [pow_succ] at hpow
  beta_reduce
  rw [h.twiddle (by omega), neg_one_pow_eq_pow_mod_two (p / 2 ^ l)]
  obtain rfl : c + (l + 1) = L := by omega
  rw [← pow_mul, Nat.mul_comm, two_pow_mul_odd_bitrev hp, pow_add, pow_add, Nat.mul_comm 2,
    pow_mul, pow_mul, pow_mul, hroot, neg_one_sq, one_pow, one_mul]

variable {b : Width} (hb : 4 * q ≤ 2 ^ widthBits b)
include hb

theorem TablesHold.fwdTable : FwdTable q L (fun k => (s.tRead 0 k : ZMod q))
    fun k x y => fwdBfly x y (s.tRead 0 k) (s.tRead (fwdFactorTable b) k) q b := by
  intro i hi
  simp only [h.fwdFactor b hi]
  exact fwdBfly_forward h.prime.pos h.lt_limit hb

theorem TablesHold.invTable : InvTable q L (fun k => (s.tRead 0 k : ZMod q))
    fun k x y => invBfly x y (s.tRead 1 k) (s.tRead (invFactorTable b) k) q b := by
  intro c hc i hi
  have hpow : 2 ^ (c + 1) ≤ 2 ^ L := Nat.pow_le_pow_right two_pos hc
  rw [pow_succ'] at hpow
  refine ⟨_, h.inverse hc hi, ?_⟩
  simp only [h.invFactor b (show 2 ^ L - 2 * 2 ^ c + 1 + i < 2 ^ L by omega)]
  exact invBfly_inverse h.prime.pos h.lt_limit hb

end

/-! ### The output steps (R201, R206) -/

theorem fwdFinalWord_modEq (q : Nat) (fout : FwdOut) (v : Nat) : fwdFinalWord q fout v ≡ v [MOD q] := by
  cases fout with
  | four => rfl
  | one => exact (condSub_modEq dvd_rfl _).trans (condSub_modEq (Dvd.intro_left 2 rfl) v)

theorem fwdFinalWord_lt {q v : Nat} (fout : FwdOut) (hv : v < 4 * q) :
    fwdFinalWord q fout v < (if fout = .one then 1 else 4) * q := by
  cases fout with
  | four => simpa [fwdFinalWord] using hv
  | one => simpa [fwdFinalWord] using condSub_lt (condSub_lt (by omega))

theorem invFinalWord_modEq (q : Nat) (fout : InvFactor) (v : Nat) : invFinalWord q fout v ≡ v [MOD q] := by
  cases fout with
  | two => rfl
  | one => exact condSub_modEq dvd_rfl v

theorem invFinalWord_lt {q v : Nat} (fout : InvFactor) (hv : v < 2 * q) :
    invFinalWord q fout v < (if fout = .one then 1 else 2) * q := by
  cases fout with
  | two => simpa [invFinalWord] using hv
  | one => simpa [invFinalWord] using condSub_lt hv

/-- A step on each word that keeps residues. -/
theorem map_getD_cast {q : Nat} {f : Nat → Nat} (hf : ∀ v, f v ≡ v [MOD q]) (a : List Nat) (i : Nat) :
    ((a.map f).getD i 0 : ZMod q) = (a.getD i 0 : ZMod q) := by
  rw [List.getD_eq_getElem?_getD, List.getD_eq_getElem?_getD, List.getElem?_map]
  cases a[i]? with
  | none => rfl
  | some v => exact (ZMod.natCast_eq_natCast_iff ..).2 (hf v)

theorem blockValue_map {q : Nat} {f : Nat → Nat} (hf : ∀ v, f v ≡ v [MOD q]) (x : ZMod q) (a : List Nat)
    (size p : Nat) : blockValue x (a.map f) size p = blockValue x a size p := by
  simp only [blockValue, map_getD_cast hf]

/-! ### A block whose tables are there -/

/-- NTT_CFG.VALID = 1 with its tables, of degree 2^(L + 1), under legal parameters. -/
structure Ready (s : State) (L : Nat) : Prop where
  legal : s.params.Legal
  valid : s.ntt.valid = true
  degree : s.ntt.n.toNat = 2 ^ (L + 1)
  tables : TablesHold s (2 ^ (L + 1)) s.ntt.q.toNat s.ntt.omega.toNat

theorem exists_ready {s : State} (hlegal : s.params.Legal) (hok : TablesOk s) (hv : s.ntt.valid = true) :
    ∃ L, Ready s L := by
  obtain ⟨L, hn⟩ := (hok hv).exists_log
  exact ⟨L, hlegal, hv, hn, hn ▸ hok hv⟩

/-- The point of position p (R208). -/
abbrev State.point (s : State) (L p : Nat) : ZMod s.ntt.q.toNat :=
  (s.ntt.omega.toNat : ZMod s.ntt.q.toNat) ^ (2 * bitrev p (L + 1) + 1)

theorem fwdOutput_eq_map (s : State) (fout : FwdOut) (a : List Nat) : s.fwdOutput fout a =
    (s.fwdStage (Nat.log2 s.ntt.n.toNat) a).map (fwdFinalWord s.ntt.q.toNat fout) := rfl

/-- The last twiddle of NTTINV: the last entry of RI (R206). -/
abbrev State.lastInverse (s : State) : Nat := s.tRead 1 (s.ntt.n.toNat - 1)

/-- The last butterfly of NTTINV (R206). -/
abbrev State.finalBfly (s : State) : Nat → Nat → Nat × Nat :=
  invFinalBfly s.ntt.q.toNat s.ntt.invN.toNat (fac s.ntt.invN.toNat s.invWidth s.ntt.q.toNat)
    (s.ntt.invN.toNat * s.lastInverse % s.ntt.q.toNat)
    (fac (s.ntt.invN.toNat * s.lastInverse % s.ntt.q.toNat) s.invWidth s.ntt.q.toNat) s.invWidth

section
variable {s : State} {L : Nat} (h : Ready s L)
include h

/-- The latches allow B = 52 only below 2^50 (R8, R195). -/
theorem Ready.lt_of_latch (hlatch : s.ntt.fwd52 = true ∨ s.ntt.inv52 = true) : s.ntt.q.toNat < 2 ^ 50 := by
  obtain ⟨-, -, -, -, -, hfwd, -, hinv, -⟩ := h.legal
  obtain ⟨-, -, -, -, -, ⟨hf, hi⟩, -⟩ := h.tables
  rw [hf, hi, decide_eq_true_eq, decide_eq_true_eq] at hlatch
  exact hlatch.elim (fun hlt => hlt.trans_le hfwd) fun hlt => hlt.trans_le hinv

/-- Four times q fits in the width of a transform (R207). -/
theorem Ready.four_mul_le {latch : Bool} (hlatch : latch = s.ntt.fwd52 ∨ latch = s.ntt.inv52) :
    4 * s.ntt.q.toNat ≤ 2 ^ widthBits (transformWidth s latch) := by
  have hlimit := h.tables.lt_limit
  by_cases hwidth : transformWidth s latch = .b52
  · obtain ⟨hset, -⟩ := transformWidth_eq_b52_iff.1 hwidth
    have := h.lt_of_latch (hlatch.imp (·.symm.trans hset) (·.symm.trans hset))
    rw [hwidth, widthBits]
    omega
  · rw [(width_eq_b64_iff _).2 hwidth, widthBits]
    omega

/-- The polynomial of R208 at the point of p, modulo q. -/
theorem Ready.evaluation_cast (coeff : Nat → Nat) (p : Nat) :
    (s.evaluation coeff p : ZMod s.ntt.q.toNat) =
      ∑ i ∈ Finset.range (2 ^ (L + 1)), (coeff i : ZMod s.ntt.q.toNat) * s.point L p ^ i := by
  rw [State.evaluation, h.degree, Nat.log2_two_pow, Nat.cast_sum]
  refine Finset.sum_congr rfl fun i _ => ?_
  rw [Nat.cast_mul, Nat.cast_pow, pow_mul]

/-- The polynomial of R208 is the one block of 2^(L + 1) coefficients. -/
theorem Ready.evaluation_eq {a : List Nat} {coeff : Nat → Nat}
    (hcoeff : ∀ i < 2 ^ (L + 1), coeff i = a.getD i 0) {p : Nat} (hp : p < 2 ^ (L + 1)) :
    (s.evaluation coeff p : ZMod s.ntt.q.toNat) = blockValue (s.point L p) a (2 ^ (L + 1)) p := by
  rw [h.evaluation_cast, blockValue, Nat.div_eq_of_lt hp]
  refine Finset.sum_congr rfl fun i hi => ?_
  rw [hcoeff i (Finset.mem_range.1 hi), Nat.mul_zero, Nat.zero_add]

/-! ### The forward transform -/

section
variable {a : List Nat} (ha : ∀ v ∈ a, v < 4 * s.ntt.q.toNat)
include ha

theorem Ready.fwdStage_below {k : Nat} (hk : k ≤ L + 1) : ∀ v ∈ s.fwdStage k a, v < 4 * s.ntt.q.toNat := by
  rw [State.fwdStage, h.degree]
  exact fwdLayers_below (h.tables.fwdTable (h.four_mul_le (.inl rfl))) ha hk

theorem Ready.fwdOutput_below (fout : FwdOut) :
    ∀ v ∈ s.fwdOutput fout a, v < (if fout = .one then 1 else 4) * s.ntt.q.toNat := by
  intro v hv
  rw [fwdOutput_eq_map, h.degree, Nat.log2_two_pow] at hv
  obtain ⟨u, hu, rfl⟩ := List.mem_map.1 hv
  exact fwdFinalWord_lt fout (h.fwdStage_below ha le_rfl u hu)

/-- Output word p is the value of the source polynomial at the point of p (R208). -/
theorem Ready.fwdOutput_value (hlen : a.length = 2 ^ (L + 1)) (fout : FwdOut) {p : Nat} (hp : p < 2 ^ (L + 1)) :
    ((s.fwdOutput fout a).getD p 0 : ZMod s.ntt.q.toNat) = blockValue (s.point L p) a (2 ^ (L + 1)) p := by
  have hlayers := fwdLayers_blockValue (k := L + 1) (c := 0) (h.tables.fwdTable (h.four_mul_le (.inl rfl)))
    h.tables.twiddlesFit hlen ha rfl hp
  rw [fwdOutput_eq_map, map_getD_cast (fwdFinalWord_modEq _ fout), h.degree, Nat.log2_two_pow, State.fwdStage,
    h.degree, ← blockValue_one (s.point L p)]
  exact hlayers

end

/-! ### The inverse transform -/

/-- The last layer is a single block of butterflies that divide by the degree (R206). -/
theorem Ready.invOutput_eq_map (fout : InvFactor) (a : List Nat) :
    s.invOutput fout a =
      (layer (fun _ => s.finalBfly) (2 ^ L) 1 0 (s.invStage L a)).map (invFinalWord s.ntt.q.toNat fout) := by
  have hindex : ∀ bfly, (invLayers bfly L (2 ^ (L + 1) / 2) 1 1 a).2 = 2 ^ (L + 1) - 1 := fun bfly =>
    (invLayers_index (c := 0) (L := L + 1) bfly a rfl).trans (by have := Nat.two_pow_pos L; omega)
  rw [State.invOutput, inverseNTT, h.degree, Nat.log2_two_pow, Nat.add_sub_cancel]
  simp only [hindex, State.invStage, State.finalBfly, State.lastInverse, h.degree]
  rw [invFinal, show 2 ^ (L + 1) / 2 = 2 ^ L by omega]

theorem Ready.finalBfly_inverse :
    InvButterfly s.ntt.q.toNat s.ntt.invN.toNat s.lastInverse s.finalBfly :=
  invFinalBfly_inverse h.tables.prime.pos h.tables.lt_limit (h.four_mul_le (.inr rfl))

/-- The 2^L-th power of a point is the twiddle that the last butterflies undo, up to its sign. -/
theorem Ready.point_pow_mul_lastInverse {p : Nat} (hp : p < 2 ^ (L + 1)) :
    s.point L p ^ 2 ^ L * (s.lastInverse : ZMod s.ntt.q.toNat) = (-1) ^ (p / 2 ^ L) := by
  have hpos := Nat.two_pow_pos L
  have hfit := h.tables.twiddlesFit 0 L (by omega) p hp
  have hinv := h.tables.inverse (c := 0) (i := 0) (by omega) (by omega)
  rw [show 2 ^ (L + 1) - 2 * 2 ^ 0 + 1 + 0 = s.ntt.n.toNat - 1 by rw [h.degree]; omega] at hinv
  rw [Nat.div_eq_of_lt hp] at hfit
  refine (congrArg (· * _) hfit).trans ?_
  rw [mul_assoc]
  exact (congrArg _ hinv).trans (mul_one _)

theorem Ready.invStage_length {a : List Nat} (hlen : a.length = 2 ^ (L + 1)) {k : Nat} (hk : k < L + 1) :
    (s.invStage k a).length = 2 ^ (L + 1) := by
  rw [State.invStage, h.degree]
  exact invLayers_length _ hk hlen

section
variable {a : List Nat} (ha : ∀ v ∈ a, v < 2 * s.ntt.q.toNat)
include ha

theorem Ready.invStage_below {k : Nat} (hk : k < L + 1) : ∀ v ∈ s.invStage k a, v < 2 * s.ntt.q.toNat := by
  rw [State.invStage, h.degree]
  exact invLayers_below (h.tables.invTable (h.four_mul_le (.inr rfl))) ha hk

theorem Ready.invStage_value (hlen : a.length = 2 ^ (L + 1)) {k p : Nat} (hk : k < L + 1) (hp : p < 2 ^ (L + 1)) :
    blockValue (s.point L p) (s.invStage k a) (2 ^ k) p = 2 ^ k * (a.getD p 0 : ZMod s.ntt.q.toNat) := by
  rw [State.invStage, h.degree]
  exact invLayers_blockValue (h.tables.invTable (h.four_mul_le (.inr rfl))) h.tables.twiddlesFit hlen ha hk hp

theorem Ready.invOutput_below (fout : InvFactor) :
    ∀ v ∈ s.invOutput fout a, v < (if fout = .one then 1 else 2) * s.ntt.q.toNat := by
  intro v hv
  rw [h.invOutput_eq_map] at hv
  obtain ⟨u, hu, rfl⟩ := List.mem_map.1 hv
  exact invFinalWord_lt fout
    (layer_below (fun _ _ => h.finalBfly_inverse.keeps) (h.invStage_below ha (Nat.lt_succ_self L)) u hu)

/-- The output polynomial takes the value of source word p at the point of p. -/
theorem Ready.invOutput_value (hlen : a.length = 2 ^ (L + 1)) (fout : InvFactor) {p : Nat}
    (hp : p < 2 ^ (L + 1)) :
    blockValue (s.point L p) (s.invOutput fout a) (2 ^ (L + 1)) p = (a.getD p 0 : ZMod s.ntt.q.toNat) := by
  have hlength := h.invStage_length hlen (Nat.lt_succ_self L)
  have hlayer := blockValue_invLayer (t := 2 ^ L) (blocks := 1) (root := 0) (bfly := fun _ => s.finalBfly)
    (by omega) (by omega) (h.invStage_below ha (Nat.lt_succ_self L)) h.finalBfly_inverse
    (h.point_pow_mul_lastInverse hp)
  rw [← pow_succ', h.invStage_value ha hlen (Nat.lt_succ_self L) hp] at hlayer
  rw [h.invOutput_eq_map, blockValue_map (invFinalWord_modEq _ fout), hlayer]
  refine Eq.trans ?_ (one_mul _)
  rw [← h.tables.invN, pow_succ]
  ring

end

end

end Sys2Proof.Machine
end

section
/-! O38, O39, O58: the transforms' bounds and values at the words their commands store (R207, R208). -/

namespace Sys2Proof.Machine

variable {s : State} {L : Nat} {rd rs1 : Reg}

/-! ### The source and the words stored -/

theorem source_getD (s : State) (r : Reg) {i : Nat} (hi : i < s.ntt.n.toNat) :
    (s.source r).getD i 0 = elem s r i := by
  rw [List.getD_eq_getElem _ _ (by rwa [source_length]), List.getElem_map, List.getElem_range]

theorem source_below {bound : Nat} (ha : ∀ i < s.ntt.n.toNat, elem s rs1 i < bound) :
    ∀ v ∈ s.source rs1, v < bound := by
  intro v hv
  obtain ⟨i, hi, rfl⟩ := List.mem_map.1 hv
  exact ha i (List.mem_range.1 hi)

/-- Words that fit in 64 bits are stored as they are. -/
theorem memRead_stored {base i : Nat} {vs : List Nat} (hvs : ∀ v ∈ vs, v < 2 ^ 64) (hi : i < vs.length) :
    (s.memWrite base vs).retire.memRead (base + i) = vs.getD i 0 := by
  obtain ⟨hstored, -⟩ := memWrite_storesOnly s base vs
  exact (hstored i hi).trans (Nat.mod_eq_of_lt (getD_lt hvs hi))

theorem factor_mul_le {one : Prop} [Decidable one] {m q : Nat} (hm : 1 ≤ m) :
    (if one then 1 else m) * q ≤ m * q := by
  split
  · exact Nat.mul_le_mul_right q hm
  · rfl

theorem source_below_four_mul {fin : FwdIn}
    (ha : ∀ i < s.ntt.n.toNat, elem s rs1 i < fwdInFactor fin * s.ntt.q.toNat) :
    ∀ v ∈ s.source rs1, v < 4 * s.ntt.q.toNat := fun v hv =>
  (source_below ha v hv).trans_le (Nat.mul_le_mul_right _ (by cases fin <;> decide))

theorem source_below_two_mul {fin : InvFactor}
    (ha : ∀ i < s.ntt.n.toNat, elem s rs1 i < invInFactor fin * s.ntt.q.toNat) :
    ∀ v ∈ s.source rs1, v < 2 * s.ntt.q.toNat := fun v hv =>
  (source_below ha v hv).trans_le (Nat.mul_le_mul_right _ (by cases fin <;> decide))

section
variable (h : Ready s L)
include h

theorem Ready.source_length_eq (r : Reg) : (s.source r).length = 2 ^ (L + 1) := by rw [source_length, h.degree]

/-- A successful NTTFWD stores the words of its output, none truncated (R199, R207). -/
theorem Ready.nttfwd_stores (hd : s.Fits rd s.ntt.n.toNat) (h1 : s.Fits rs1 s.ntt.n.toNat) {fin : FwdIn}
    (ha : ∀ i < s.ntt.n.toNat, elem s rs1 i < fwdInFactor fin * s.ntt.q.toNat) (fout : FwdOut) :
    ∃ t, exec (.nttfwd rd rs1 fin fout) s = .next t ∧
      t = (s.memWrite (s.valX rd) (s.fwdOutput fout (s.source rs1))).retire ∧
      ∀ i < s.ntt.n.toNat, t.memRead (s.valX rd + i) = (s.fwdOutput fout (s.source rs1)).getD i 0 := by
  have hlimit := h.tables.lt_limit
  refine ⟨_, transformCommand_stores h.valid hd h1 ha, rfl, fun i hi => memRead_stored (fun v hv => ?_) ?_⟩
  · have := (h.fwdOutput_below (source_below_four_mul ha) fout v hv).trans_le (factor_mul_le (by decide))
    omega
  · exact (fwdOutput_length h.degree (source_length s rs1) fout).symm ▸ hi

/-- A successful NTTINV stores the words of its output, none truncated (R204, R207). -/
theorem Ready.nttinv_stores (hd : s.Fits rd s.ntt.n.toNat) (h1 : s.Fits rs1 s.ntt.n.toNat) {fin : InvFactor}
    (ha : ∀ i < s.ntt.n.toNat, elem s rs1 i < invInFactor fin * s.ntt.q.toNat) (fout : InvFactor) :
    ∃ t, exec (.nttinv rd rs1 fin fout) s = .next t ∧
      ∀ i < s.ntt.n.toNat, t.memRead (s.valX rd + i) = (s.invOutput fout (s.source rs1)).getD i 0 := by
  have hlimit := h.tables.lt_limit
  refine ⟨_, transformCommand_stores h.valid hd h1 ha, fun i hi => memRead_stored (fun v hv => ?_) ?_⟩
  · have := (h.invOutput_below (source_below_two_mul ha) fout v hv).trans_le (factor_mul_le (by decide))
    omega
  · exact (invOutput_length h.degree (source_length s rs1) fout).symm ▸ hi

end

theorem getElem?_eq_some_getD {vs : List Nat} {i : Nat} (hi : i < vs.length) : vs[i]? = some (vs.getD i 0) := by
  rw [List.getElem?_eq_getElem hi, List.getD_eq_getElem _ _ hi]

/-- Settles O38: each layer keeps the bound, each output step reaches its own, and 4q fits in the width. -/
theorem transformOutputsAreBounded : Obligations.TransformOutputsAreBounded := by
  intro rd rs1 s hlegal hok hv hd h1
  obtain ⟨L, h⟩ := exists_ready hlegal hok hv
  have hlimit := h.tables.lt_limit
  have hlog : Nat.log2 s.ntt.n.toNat = L + 1 := by rw [h.degree, Nat.log2_two_pow]
  refine ⟨by omega, fun hwidth => ?_, fun fin ha => ⟨?_, fun fout => ⟨?_, ?_⟩⟩,
    fun fin ha => ⟨?_, fun fout => ⟨?_, ?_⟩⟩⟩
  · have := h.lt_of_latch (hwidth.imp (fun hw => (transformWidth_eq_b52_iff.1 hw).1)
      fun hw => (transformWidth_eq_b52_iff.1 hw).1)
    omega
  · rw [hlog]
    exact fun k hk => h.fwdStage_below (source_below_four_mul ha) hk
  · exact h.fwdOutput_below (source_below_four_mul ha) fout
  · obtain ⟨t, hexec, -, hread⟩ := h.nttfwd_stores hd h1 ha fout
    refine ⟨t, hexec, fun i hi => ?_⟩
    rw [hread i hi]
    exact getElem?_eq_some_getD (by rwa [fwdOutput_length h.degree (source_length s rs1)])
  · rw [hlog]
    exact fun k hk => h.invStage_below (source_below_two_mul ha) hk
  · exact h.invOutput_below (source_below_two_mul ha) fout
  · obtain ⟨t, hexec, hread⟩ := h.nttinv_stores hd h1 ha fout
    refine ⟨t, hexec, fun i hi => ?_⟩
    rw [hread i hi]
    exact getElem?_eq_some_getD (by rwa [invOutput_length h.degree (source_length s rs1)])

/-! ### The values -/

/-- Output word k of the forward transform (R208). -/
theorem Ready.fwdOutput_evaluates (h : Ready s L) (ha : ∀ v ∈ s.source rs1, v < 4 * s.ntt.q.toNat)
    (fout : FwdOut) {k : Nat} (hk : k < s.ntt.n.toNat) :
    (s.fwdOutput fout (s.source rs1)).getD k 0 % s.ntt.q.toNat = s.evaluation (elem s rs1) k % s.ntt.q.toNat ∧
    (fout = .one →
      (s.fwdOutput fout (s.source rs1)).getD k 0 = s.evaluation (elem s rs1) k % s.ntt.q.toNat) := by
  have hk' : k < 2 ^ (L + 1) := h.degree ▸ hk
  have hmod : (s.fwdOutput fout (s.source rs1)).getD k 0 % s.ntt.q.toNat =
      s.evaluation (elem s rs1) k % s.ntt.q.toNat := by
    rw [← ZMod.natCast_eq_natCast_iff', h.fwdOutput_value ha (h.source_length_eq rs1) fout hk',
      h.evaluation_eq (fun i hi => (source_getD s rs1 (h.degree ▸ hi)).symm) hk']
  refine ⟨hmod, fun hone => ?_⟩
  have hlt := getD_lt (i := k) (h.fwdOutput_below ha fout)
    (by rwa [fwdOutput_length h.degree (source_length s rs1)])
  rw [if_pos hone, Nat.one_mul] at hlt
  rw [← hmod, Nat.mod_eq_of_lt hlt]

/-- Settles O39: the layers keep the value of the source polynomial at each point. -/
theorem forwardTransformEvaluatesPolynomial : Obligations.ForwardTransformEvaluatesPolynomial := by
  intro rd rs1 fin fout s hlegal hok hv hd h1 ha
  obtain ⟨L, h⟩ := exists_ready hlegal hok hv
  obtain ⟨t, hexec, -, hread⟩ := h.nttfwd_stores hd h1 ha fout
  refine ⟨t, hexec, fun k hk => ?_⟩
  rw [hread k hk]
  exact h.fwdOutput_evaluates (source_below_four_mul ha) fout hk

/-- Settles O58: each inverse layer doubles the value at each point, and the last one divides by the degree. -/
theorem inverseTransformInterpolatesSource : Obligations.InverseTransformInterpolatesSource := by
  intro rd rs1 fin fout s hlegal hok hv hd h1 ha
  obtain ⟨L, h⟩ := exists_ready hlegal hok hv
  have hsource := source_below_two_mul ha
  obtain ⟨t, hexec, hread⟩ := h.nttinv_stores hd h1 ha fout
  refine ⟨t, hexec, fun k hk => ?_, fun hone k hk => ?_⟩
  · have hk' : k < 2 ^ (L + 1) := h.degree ▸ hk
    rw [← ZMod.natCast_eq_natCast_iff', h.evaluation_eq (fun i hi => hread i (h.degree ▸ hi)) hk',
      h.invOutput_value hsource (h.source_length_eq rs1) fout hk', source_getD s rs1 hk]
  · have hlt := getD_lt (i := k) (h.invOutput_below hsource fout)
      (by rwa [invOutput_length h.degree (source_length s rs1)])
    rw [if_pos hone, Nat.one_mul] at hlt
    rwa [hread k hk]

end Sys2Proof.Machine
end

section
/-! O40: a polynomial of degree below n is determined by its values at the n odd powers of a root of −1, so the
inverse transform undoes the forward one (R208). -/

namespace Sys2Proof.Machine

section
variable {s : State} {L q w : Nat} (h : TablesHold s (2 ^ (L + 1)) q w)
include h

/-- −1 is not 1: q is 1 modulo an even number. -/
theorem TablesHold.neg_one_ne_one : (-1 : ZMod q) ≠ 1 := by
  have hq := h.prime.two_le
  obtain ⟨-, ⟨-, -, hmod⟩, -⟩ := h
  have hpos := Nat.two_pow_pos L
  have hle := Nat.le_of_dvd (by omega) (Nat.dvd_of_mod_eq_zero hmod)
  have : Fact (2 < q) := ⟨by omega⟩
  exact ZMod.neg_one_ne_one

theorem TablesHold.orderOf_root : orderOf (w : ZMod q) = 2 ^ (L + 2) := by
  have hroot := h.root_pow
  refine orderOf_eq_prime_pow (p := 2) (n := L + 1) ?_ ?_
  · rw [hroot]
    exact h.neg_one_ne_one
  · rw [pow_succ, pow_mul, hroot, neg_one_sq]

/-- The points of R208 differ. -/
theorem TablesHold.points_injective :
    Function.Injective fun p : Fin (2 ^ (L + 1)) => (w : ZMod q) ^ (2 * bitrev p (L + 1) + 1) := by
  intro p p' heq
  have hexp : ∀ k, 2 * bitrev k (L + 1) + 1 ∈ Set.Iio (orderOf (w : ZMod q)) := fun k => by
    have := bitrev_lt k (L + 1)
    rw [h.orderOf_root, Set.mem_Iio, pow_succ 2 (L + 1)]
    omega
  have := pow_injOn_Iio_orderOf (hexp p) (hexp p') heq
  exact Fin.ext (bitrev_injective p.isLt p'.isLt (by omega))

/-- Values at the n points determine n coefficients: the Vandermonde matrix of the points is invertible. -/
theorem TablesHold.coeff_unique {a b : Nat → ZMod q}
    (hvalues : ∀ p < 2 ^ (L + 1),
      ∑ i ∈ Finset.range (2 ^ (L + 1)), a i * ((w : ZMod q) ^ (2 * bitrev p (L + 1) + 1)) ^ i =
      ∑ i ∈ Finset.range (2 ^ (L + 1)), b i * ((w : ZMod q) ^ (2 * bitrev p (L + 1) + 1)) ^ i)
    {i : Nat} (hi : i < 2 ^ (L + 1)) : a i = b i := by
  have : Fact q.Prime := ⟨h.prime⟩
  have hzero := Matrix.eq_zero_of_forall_index_sum_mul_pow_eq_zero (v := fun j : Fin (2 ^ (L + 1)) => a j - b j)
    h.points_injective fun p => by
      have := sub_eq_zero.2 (hvalues p p.isLt)
      rw [← Finset.sum_sub_distrib, Finset.sum_range] at this
      simpa only [sub_mul] using this
  exact sub_eq_zero.1 (congrFun hzero ⟨i, hi⟩)

end

/-- Coefficients with the same values at the points agree modulo q. -/
theorem Ready.coeff_modEq {s : State} {L : Nat} (h : Ready s L) {a b : Nat → Nat}
    (hvalues : ∀ k < s.ntt.n.toNat, s.evaluation a k % s.ntt.q.toNat = s.evaluation b k % s.ntt.q.toNat)
    {i : Nat} (hi : i < s.ntt.n.toNat) : a i % s.ntt.q.toNat = b i % s.ntt.q.toNat := by
  rw [h.degree] at hvalues hi
  rw [← ZMod.natCast_eq_natCast_iff']
  refine h.tables.coeff_unique (a := fun j => (a j : ZMod s.ntt.q.toNat)) (b := fun j => (b j : ZMod s.ntt.q.toNat))
    (fun p hp => ?_) hi
  rw [← h.evaluation_cast, ← h.evaluation_cast, ZMod.natCast_eq_natCast_iff']
  exact hvalues p hp

/-- A buffer store leaves the NTT registers, the parameters and the general registers (R42). -/
theorem stored_frame {s t : State} {base : Nat} {vs : List Nat} (ht : t = (s.memWrite base vs).retire) :
    t.ntt = s.ntt ∧ t.params = s.params ∧ ∀ r, t.valX r = s.valX r := by
  subst ht
  exact ⟨rfl, rfl, fun _ => rfl⟩

/-- Settles O40: the output of NTTINV takes the values that NTTFWD computed from the source, so it is the source
modulo q. -/
theorem inverseTransformUndoesForward : Obligations.InverseTransformUndoesForward := by
  intro rd rd' rs1 fin fin' fout' s hlegal hok hv hd hd' h1 ha
  obtain ⟨L, h⟩ := exists_ready hlegal hok hv
  have hsource := source_below_four_mul ha
  obtain ⟨t, hexec, ht, hread⟩ := h.nttfwd_stores hd h1 ha .one
  have hfit : s.valX rd + (s.fwdOutput .one (s.source rs1)).length ≤ s.params.dmemWords := by
    rwa [fwdOutput_length h.degree (source_length s rs1)]
  have htables : TablesOk t := ht ▸ (retire_sameMemory _).tablesOk (hok.memWrite hlegal hfit)
  have hvalue : ∀ k < s.ntt.n.toNat, t.memRead (s.valX rd + k) = s.evaluation (elem s rs1) k % s.ntt.q.toNat :=
    fun k hk => (hread k hk).trans ((h.fwdOutput_evaluates hsource .one hk).2 rfl)
  have hcanonical : ∀ k < s.ntt.n.toNat, t.memRead (s.valX rd + k) < invInFactor fin' * s.ntt.q.toNat := by
    intro k hk
    rw [hvalue k hk]
    exact (Nat.mod_lt _ h.tables.prime.pos).trans_le (Nat.le_mul_of_pos_left _ (by cases fin' <;> decide))
  obtain ⟨hntt, hparams, hx⟩ := stored_frame ht
  obtain ⟨u, hexec', hvalues, hlt⟩ :=
    inverseTransformInterpolatesSource rd' rd fin' fout' t (hparams ▸ hlegal) htables (hntt ▸ hv)
      (by rwa [State.Fits, hx, hntt, hparams]) (by rwa [State.Fits, hx, hntt, hparams])
      (by simpa only [elem, hx, hntt] using hcanonical)
  simp only [State.evaluation, elem, hx, hntt] at hvalues hlt
  have hcoeff : ∀ i < s.ntt.n.toNat,
      u.memRead (s.valX rd' + i) % s.ntt.q.toNat = elem s rs1 i % s.ntt.q.toNat := fun i hi =>
    h.coeff_modEq (a := fun i => u.memRead (s.valX rd' + i))
      (fun k hk => (hvalues k hk).trans (by rw [hvalue k hk, Nat.mod_mod])) hi
  exact ⟨t, u, hexec, hexec', fun i hi => ⟨hcoeff i hi, fun hone => by
    rw [← hcoeff i hi, Nat.mod_eq_of_lt (hlt hone i hi)]⟩⟩

end Sys2Proof.Machine
end

section
/-! O9, O11, O12: what the engine's turn leaves: everything when it is idle, and otherwise every field that no
command writes (R240, R244, R256). -/

namespace Sys2Proof.Machine

variable {s s' t : State}

/-! ### The idle engine -/

theorem engineStep_idle (h : s.inflight = none) : engineStep s = .next s := by
  unfold engineStep
  rw [h]

/-- Settles O9: both forms of the engine's turn find it idle. -/
theorem idleStepChangesNothing : Obligations.IdleStepChangesNothing := by
  intro s hidle
  refine ⟨fun hnone => ?_, fun es hengine => ?_⟩
  · rw [step_no_event hnone, engineStep_idle hidle]
  · rw [step_event hengine]
    exact engineStep_idle (s := s.setInputs es) hidle

/-! ### Completion -/

theorem CommandWrites.err_eq (h : CommandWrites s s') : s'.err = s.err := by rw [h.frame]

theorem CommandOutcome.exists_next {o : Outcome} (h : CommandOutcome s o) : ∃ t, o = .next t := by
  cases h with
  | failed k e => exact ⟨_, rfl⟩
  | succeeded k hw => exact ⟨_, rfl⟩

/-- The fields a command may write; BUSY becomes 0 whatever happens (R240, R241, R249). -/
theorem CommandOutcome.frame (h : CommandOutcome s (.next t)) :
    t = { s with x := t.x, mem := t.mem, ntt := t.ntt, err := t.err, inflight := none,
                 entropy := t.entropy, draws := t.draws } := by
  cases h with
  | failed k e => rfl
  | succeeded k hw =>
    rw [hw.frame]
    rfl

/-- Only a failed command writes a report, and it writes nothing else (R244). -/
theorem CommandOutcome.frame_of_report (h : CommandOutcome s (.next t)) (hreport : t.err ≠ s.err) :
    t = { s with err := t.err, inflight := none, entropy := t.entropy, draws := t.draws } := by
  cases h with
  | failed k e => rfl
  | succeeded k hw => exact absurd hw.err_eq hreport

/-- Settles O11, by the outcomes a command can have and the fields it may write. -/
theorem everyCommandCompletes : Obligations.EveryCommandCompletes := by
  intro i s
  obtain ⟨t, ht⟩ := (exec_outcome i s).exists_next
  have hout : CommandOutcome s (.next t) := ht ▸ exec_outcome i s
  refine ⟨t, ht, ?_⟩
  rw [hout.frame]
  exact ⟨rfl, rfl, rfl, rfl, rfl, rfl, rfl, rfl, rfl, rfl⟩

/-- Settles O12: a command that leaves a report where there was none has failed. -/
theorem failedCommandWritesOnlyItsReport : Obligations.FailedCommandWritesOnlyItsReport := by
  intro i s t hclear h hreport
  have hout : CommandOutcome s (.next t) := h ▸ exec_outcome i s
  exact hout.frame_of_report (hclear ▸ hreport)

end Sys2Proof.Machine
end

section
/-! SUPPORT. Every check of a command, and every rejection of the decoder, raises an error whose INDEX is one
that R242 gives its CAUSE. -/

namespace Sys2Proof.Machine

variable {s : State} {p : Params} {cause : Cause} {index : Nat}

/-! ### Errors that are rows of R242 -/

/-- An error whose INDEX is one of its CAUSE's row (R242). -/
def CmdError.IsRow (p : Params) (e : CmdError) : Prop := e.cause.IndexOk p e.index

/-- ERRINFO.INDEX keeps the low 32 bits of an index (R27), and they are an index of the same row. -/
theorem Cause.IndexOk.mod (h : cause.IndexOk p index) : cause.IndexOk p (index % 2 ^ 32) := by
  rcases Nat.lt_or_ge index (2 ^ 32) with hlt | hge
  · rwa [Nat.mod_eq_of_lt hlt]
  · cases cause with
    | elementA | elementB | elementC => exact (Nat.mod_le _ _).trans_lt h
    | _ =>
      simp only [Cause.IndexOk] at h
      omega

/-- A row is what the report of such an error shows (R241). -/
theorem CmdError.IsRow.reportOk {e : CmdError} (h : e.IsRow s.params) : ReportOk (s.fail e) := by
  refine .inr ⟨e.cause, rfl, rfl, ?_⟩
  rw [State.fail_err, CmdError.report, BitVec.toNat_ofNat]
  exact h.mod

/-- The error of a search that runs out of draws (R129). -/
theorem searchFailed_isRow : CmdError.IsRow p ⟨.rootSearchExhausted, 0⟩ := rfl

/-! ### The decoder (R97) -/

theorem evenPair_eq_false_iff (r : Reg) : evenPair r = false ↔ r.toNat % 2 = 1 := by
  rw [evenPair, decide_eq_false_iff_not, Nat.mod_two_not_eq_zero]

/-- An opcode that no row has, a reserved field, or an odd destination. -/
theorem illegal_isRow {v : Word} {e : DecodeError} (h : decode v = .error e) : (illegal e).IsRow p := by
  cases hop : opcodeOf (fieldOp v) with
  | none =>
    rw [decode_undefined hop] at h
    cases h
    have hindex : BitVec.ofNat 8 (fieldOp v).toNat = fieldOp v := by
      rw [BitVec.ofNat_toNat, BitVec.setWidth_eq]
    exact ⟨(fieldOp v).isLt, (congrArg opcodeOf hindex).trans hop⟩
  | some op =>
    by_cases hzero : ReservedFieldsZero op v
    · rw [decode_of_reservedFieldsZero hop hzero] at h
      split at h
      · next hpair =>
        cases h
        exact ⟨(fieldRd v).isLt, (evenPair_eq_false_iff _).1 hpair.2⟩
      · cases h
    · rw [decode_reserved hop hzero] at h
      cases h
      exact rfl

/-! ### Checks -/

/-- If a check fails, it raises a row of R242. -/
def RaisesRow (p : Params) (c : Except CmdError Unit) : Prop := ∀ e, c = .error e → e.IsRow p

theorem RaisesRow.ok : RaisesRow p (.ok ()) := by
  rintro _ ⟨⟩

/-- What follows a check may assume that the check passed. -/
theorem RaisesRow.check {c : Except CmdError Unit} {f : Unit → Except CmdError Unit} (hc : RaisesRow p c)
    (hf : c = .ok () → RaisesRow p (f ())) : RaisesRow p (c >>= f) := by
  intro e h
  rcases (check_bind_error_iff c f e).1 h with herr | ⟨hok, herr⟩
  · exact hc e herr
  · exact hf hok e herr

theorem require_raisesRow {b : Bool} (h : cause.IndexOk p index) : RaisesRow p (require b cause index) := by
  intro e herr
  obtain ⟨-, rfl⟩ := (require_error_iff b cause index e).1 herr
  exact h

theorem checkQ_raisesRow : RaisesRow p (checkQ s) := require_raisesRow rfl

theorem checkBelow_raisesRow {bound : Nat} {r : Reg} : RaisesRow p (checkBelow s bound r) :=
  require_raisesRow r.isLt

theorem checkFactor_raisesRow {w : Nat} {b : Width} {r : Reg} : RaisesRow p (checkFactor s w b r) :=
  require_raisesRow r.isLt

theorem checkWidth_raisesRow {v : Nat} {b : Width} {r : Reg} : RaisesRow p (checkWidth v b r) :=
  require_raisesRow r.isLt

/-- INVMOD's check of its operand (R125). -/
theorem checkCoprime_raisesRow {b : Bool} {r : Reg} : RaisesRow p (require b .notCoprime r.toNat) :=
  require_raisesRow r.isLt

/-- NTTINIT's check of a supplied root (R191). -/
theorem checkOmega_raisesRow {b : Bool} {r : Reg} : RaisesRow p (require b .omegaBad r.toNat) :=
  require_raisesRow r.isLt

theorem checkScalars_raisesRow {bound : Nat} (rs : List Reg) : RaisesRow p (checkScalars s bound rs) := by
  induction rs with
  | nil => exact .ok
  | cons r rs ih => exact .check checkBelow_raisesRow fun _ => ih

theorem checkBuffers_raisesRow {len : Nat} (rs : List Reg) : RaisesRow p (checkBuffers s len rs) := by
  induction rs with
  | nil => exact .ok
  | cons r rs ih => exact .check (require_raisesRow r.isLt) fun _ => ih

/-! ### Elements (R170) -/

/-- The causes of a list of elements are ELEMENT_A, ELEMENT_B and ELEMENT_C. -/
def ElementCauses (elems : List (Cause × Reg)) : Prop :=
  ∀ e ∈ elems, e.1 = .elementA ∨ e.1 = .elementB ∨ e.1 = .elementC

theorem indexOk_of_element (h : cause = .elementA ∨ cause = .elementB ∨ cause = .elementC)
    (hindex : index < p.dmemWords) : cause.IndexOk p index := by
  rcases h with rfl | rfl | rfl
  all_goals exact hindex

theorem checkRow_raisesRow {bound i : Nat} {elems : List (Cause × Reg)} (hcauses : ElementCauses elems)
    (hi : i < p.dmemWords) : RaisesRow p (checkRow s bound i elems) := by
  induction elems with
  | nil => exact .ok
  | cons e elems ih =>
    obtain ⟨hhead, htail⟩ := List.forall_mem_cons.1 hcauses
    exact .check (require_raisesRow (indexOk_of_element hhead hi)) fun _ => ih htail

theorem checkElems_raisesRow {bound count i : Nat} {elems : List (Cause × Reg)}
    (hcauses : ElementCauses elems) (hfit : i + count ≤ p.dmemWords) :
    RaisesRow p (checkElems s bound elems count i) := by
  induction count generalizing i with
  | zero => exact .ok
  | succ count ih => exact .check (checkRow_raisesRow hcauses (by omega)) fun _ => ih (by omega)

/-! ### The checks of the commands -/

/-- The buffer checks come before the element checks, so an element that is too large is one of a buffer in
DMEM (R67, R170). -/
theorem vecChecks_raisesRow {rd : Reg} {bufs scalars : List Reg} {elems : List (Cause × Reg)} {len : Nat}
    (hcauses : ElementCauses elems) : RaisesRow s.params (vecChecks s (rd :: bufs) scalars elems len) := by
  refine .check checkQ_raisesRow fun _ => .check (checkBuffers_raisesRow _) fun hbuffers =>
    .check (checkScalars_raisesRow _) fun _ => checkElems_raisesRow hcauses ?_
  have hfit := (checkBuffers_ok_iff s len _ ()).1 hbuffers rd List.mem_cons_self
  omega

/-- R199, R204. -/
theorem transformChecks_raisesRow {rd rs1 : Reg} {fin : Nat} :
    RaisesRow s.params (transformChecks s rd rs1 fin) := by
  refine .check (require_raisesRow rfl) fun _ => .check (checkBuffers_raisesRow _) fun hbuffers =>
    checkElems_raisesRow (by simp [ElementCauses]) ?_
  have hfit := (checkBuffers_ok_iff s _ _ ()).1 hbuffers rd List.mem_cons_self
  omega

/-- R127. -/
theorem prootChecks_raisesRow {rs1 : Reg} : RaisesRow p (prootChecks rs1 s) :=
  .check checkQ_raisesRow fun _ => .check (require_raisesRow rs1.isLt) fun _ =>
    .check (require_raisesRow rfl) fun _ => require_raisesRow rs1.isLt

/-- R191. -/
theorem nttinitChecks_raisesRow {rs1 : Reg} : RaisesRow p (nttinitChecks rs1 s) :=
  .check checkQ_raisesRow fun _ => .check (require_raisesRow rs1.isLt) fun _ =>
    .check (require_raisesRow rfl) fun _ => require_raisesRow rs1.isLt

end Sys2Proof.Machine
end

section
/-! O55: the report stays as it is, is cleared by acceptance and reset, or becomes the row of a failed command. -/

namespace Sys2Proof.Machine

variable {s s' t : State}

/-- `t` has the report of `s`, and the parameters that bound its INDEX. -/
structure SameReport (s t : State) : Prop where
  params : t.params = s.params
  err : t.err = s.err

theorem ReportOk.of_same (hs : ReportOk s) (h : SameReport s t) : ReportOk t := by
  rw [ReportOk, h.err, h.params]
  exact hs

/-! ### The engine -/

/-- The result of a command's checks and writes: a row of R242, or writes that leave the report. -/
def LeavesReportOrRaisesRow (s : State) : Except CmdError State → Prop
  | .ok s' => SameReport s s'
  | .error e => e.IsRow s.params

namespace LeavesReportOrRaisesRow

theorem ok (h : CommandWrites s s') : LeavesReportOrRaisesRow s (.ok s') := ⟨h.params_eq, h.err_eq⟩

theorem error {e : CmdError} (h : e.IsRow s.params) : LeavesReportOrRaisesRow s (.error e) := h

theorem check {c : Except CmdError Unit} {f : Unit → Except CmdError State} (hc : RaisesRow s.params c)
    (hf : LeavesReportOrRaisesRow s (f ())) : LeavesReportOrRaisesRow s (c >>= f) := by
  cases c with
  | error e => exact hc e rfl
  | ok u => exact hf

theorem reportOk {r : Except CmdError State} (hr : LeavesReportOrRaisesRow s r) (hs : ReportOk s)
    (h : complete s r = .next t) : ReportOk t := by
  rcases complete_cases h with ⟨s', rfl, rfl⟩ | ⟨e, rfl, rfl⟩
  · exact hs.of_same ⟨hr.params, hr.err⟩
  · exact CmdError.IsRow.reportOk hr

end LeavesReportOrRaisesRow

open LeavesReportOrRaisesRow (ok error check)

theorem ReportOk.useDraws (hs : ReportOk s) (k : Nat) : ReportOk (s.useDraws k) := hs.of_same ⟨rfl, rfl⟩

theorem execProot_reportOk {rd rs1 : Reg} (hs : ReportOk s) (h : execProot rd rs1 s = .next t) :
    ReportOk t := by
  unfold execProot at h
  cases hchecks : prootChecks rs1 s with
  | error e =>
    rw [hchecks] at h
    exact (error (prootChecks_raisesRow e hchecks)).reportOk hs h
  | ok u =>
    obtain ⟨k, root, hsearch⟩ := minPrimRoot_eq s (s.valX rs1) s.modulus
    simp only [hchecks, hsearch] at h
    cases root with
    | none => exact (error searchFailed_isRow).reportOk (hs.useDraws k) h
    | some r => exact (ok (.register rd r)).reportOk (hs.useDraws k) h

theorem execNttinit_reportOk {rs1 : Reg} {omega : Option Reg} (hs : ReportOk s)
    (h : execNttinit rs1 omega s = .next t) : ReportOk t := by
  unfold execNttinit at h
  cases hchecks : nttinitChecks rs1 s with
  | error e =>
    rw [hchecks] at h
    exact (error (nttinitChecks_raisesRow e hchecks)).reportOk hs h
  | ok u =>
    simp only [hchecks] at h
    cases omega with
    | some rs2 => exact (check checkOmega_raisesRow (ok (.tables _ _ _))).reportOk hs h
    | none =>
      obtain ⟨k, root, hsearch⟩ := minPrimRoot_eq s (2 * s.valX rs1) s.modulus
      simp only [hsearch] at h
      cases root with
      | none => exact (error searchFailed_isRow).reportOk (hs.useDraws k) h
      | some w => exact (ok (.tables _ _ w)).reportOk (hs.useDraws k) h

/-- Each of the 17 commands leaves the report or makes it a row of R242. -/
theorem exec_reportOk {i : Instr} (hs : ReportOk s) (h : exec i s = .next t) : ReportOk t := by
  cases i with
  | bred rd rs1 | powmod rd rs1 rs2 | prtest rd rs1 rs2 =>
    exact (check checkQ_raisesRow (ok (.register rd _))).reportOk hs h
  | mulmod rd rs1 rs2 =>
    exact (check checkQ_raisesRow (check checkBelow_raisesRow (check checkBelow_raisesRow
      (ok (.register rd _))))).reportOk hs h
  | invmod rd rs1 =>
    exact (check checkQ_raisesRow (check checkCoprime_raisesRow (ok (.register rd _)))).reportOk hs h
  | proot rd rs1 => exact execProot_reportOk hs h
  | mulfac rd rs1 b =>
    exact (check checkQ_raisesRow (check checkBelow_raisesRow (ok (.register rd _)))).reportOk hs h
  | mullazy rd rs1 rs2 rs3 b =>
    exact (check checkQ_raisesRow (check checkBelow_raisesRow (check checkFactor_raisesRow
      (check checkWidth_raisesRow (ok (.register rd _)))))).reportOk hs h
  | vsub rd rs1 rs2 rs4 | vsubs rd rs1 rs2 rs4 | vmul rd rs1 rs2 rs4 =>
    exact (check (vecChecks_raisesRow (by simp [ElementCauses])) (ok (.buffer _ _))).reportOk hs h
  | vfma rd rs1 rs2 c rs4 =>
    cases c with
    | some rs3 =>
      exact (check (vecChecks_raisesRow (by simp [ElementCauses])) (ok (.buffer _ _))).reportOk hs h
    | none => exact (check (vecChecks_raisesRow (by simp [ElementCauses])) (ok (.buffer _ _))).reportOk hs h
  | nttinit rs1 omega => exact execNttinit_reportOk hs h
  | bfwd rd rs1 rs2 rs3 rs4 b | binv rd rs1 rs2 rs3 rs4 b =>
    exact (check checkQ_raisesRow (check checkBelow_raisesRow (check checkBelow_raisesRow
      (check checkBelow_raisesRow (check checkFactor_raisesRow (check checkWidth_raisesRow
        (ok (.pair rd _ _)))))))).reportOk hs h
  | nttfwd rd rs1 fin fout | nttinv rd rs1 fin fout =>
    exact (check transformChecks_raisesRow (ok (.buffer _ _))).reportOk hs h

theorem engineStep_reportOk (hs : ReportOk s) (h : engineStep s = .next t) : ReportOk t := by
  unfold engineStep at h
  split at h
  · cases h
    exact hs
  · split at h
    · exact exec_reportOk hs h
    · next hdecode =>
      cases h
      exact (illegal_isRow hdecode).reportOk

/-! ### The host port -/

theorem guarded_reportOk {write : State → State} (hs : ReportOk s) (hw : ReportOk (write s)) :
    ReportOk (guarded s write) := by
  by_cases hidle : s.inflight = none
  · rwa [guarded_idle s write hidle]
  · rw [guarded_busy s write hidle]
    exact hs.of_same ⟨rfl, rfl⟩

/-- A host write leaves the report, but acceptance clears it (R70). -/
theorem targetWrite_reportOk (hs : ReportOk s) (v : Word) (target : Target) :
    ReportOk (targetWrite s v target) := by
  cases target with
  | reg r =>
    cases r with
    | cmd => exact guarded_reportOk hs (.inl rfl)
    | status =>
      rw [targetWrite_status]
      exact hs.of_same ⟨rfl, rfl⟩
    | ctrl | q | id | errinfo | nttCfg | nttN | nttQ | nttOmega | nttOmegaInv | nttInvN =>
      exact guarded_reportOk hs (hs.of_same ⟨rfl, rfl⟩)
  | gpr r => exact guarded_reportOk hs (hs.of_same ⟨rfl, rfl⟩)
  | dmem a => exact guarded_reportOk hs (hs.of_same ⟨rfl, rfl⟩)
  | tmem tb k => exact guarded_reportOk hs hs

theorem hostRead_reportOk {addr width : Nat} (hs : ReportOk s) (h : hostRead s addr width = .next t) :
    ReportOk t := by
  unfold hostRead at h
  split at h
  · cases h
  · cases h
    unfold hostReadTarget
    split
    all_goals exact hs.of_same ⟨rfl, rfl⟩

theorem hostWrite_reportOk {addr width : Nat} {v : Word} (hs : ReportOk s)
    (h : hostWrite s addr width v = .next t) : ReportOk t := by
  unfold hostWrite at h
  split at h
  · cases h
  · cases h
    exact (targetWrite_reportOk hs v _).of_same ⟨rfl, rfl⟩

/-! ### One step -/

theorem eventStep_reportOk {e : Event} (hs : ReportOk s) (h : eventStep s e = .next t) : ReportOk t := by
  cases e with
  | hostRead addr width => exact hostRead_reportOk hs h
  | hostWrite addr width v => exact hostWrite_reportOk hs h
  | engine => exact engineStep_reportOk hs h
  | reset =>
    cases h
    exact .inl rfl

/-- Settles O55, by what each kind of event does to the report. -/
theorem stepKeepsReportARowOfTheTable : Obligations.StepKeepsReportARowOfTheTable := by
  intro s t hs h
  cases hinputs : s.inputs with
  | nil =>
    rw [step_no_event hinputs] at h
    exact engineStep_reportOk hs h
  | cons e es =>
    rw [step_event hinputs] at h
    exact eventStep_reportOk (s := s.setInputs es) (hs.of_same ⟨rfl, rfl⟩) h

end Sys2Proof.Machine
end

section
/-! O52: what each register and each byte of memory reads right after the reset input. -/

namespace Sys2Proof.Machine

variable (s : State)

/-- The reset input's turn applies it to the state whose other events are still to come (R280). -/
theorem step_reset {s : State} {es : List Event} (h : s.inputs = .reset :: es) :
    step s = .next (s.setInputs es).applyReset :=
  step_event h

/-- CTRL's one bit is cleared, whether or not the parameters implement it (R25). -/
theorem ctrlWord_applyReset : s.applyReset.ctrlWord = 0 := by
  have hbit : s.applyReset.ifma52En = false := Bool.and_false s.params.hasIfma52
  rw [State.ctrlWord, hbit]
  rfl

/-- STATUS and ERRINFO are words of fields that the reset input leaves as reset does (R281). -/
theorem statusWord_applyReset : s.applyReset.statusWord = State.reset.statusWord := rfl

theorem errinfoWord_applyReset : s.applyReset.errinfoWord = State.reset.errinfoWord := rfl

theorem getX_applyReset (r : Reg) : s.applyReset.getX r = 0 :=
  Vector.getElem_replicate r.isLt

/-- Nothing stays listed, so every byte is the free value of the new epoch (R282; assumption 8). -/
theorem byteAt_applyReset (a : Nat) : s.applyReset.byteAt a = Config.unwritten (s.epoch + 1) a := rfl

/-- Settles O52, field by field of the state that the reset input leaves; the words of STATUS and ERRINFO are
those of O51. -/
theorem resetEventAbandonsCommand : Obligations.ResetEventAbandonsCommand := by
  intro s es hinputs
  obtain ⟨-, -, hstatus, herrinfo, -⟩ := resetLeavesTheManualsValues
  have hctrl := ctrlWord_applyReset (s.setInputs es)
  have hstatus' := (statusWord_applyReset (s.setInputs es)).trans hstatus
  have herrinfo' := (errinfoWord_applyReset (s.setInputs es)).trans herrinfo
  have hgeneral := getX_applyReset (s.setInputs es)
  have hbytes := byteAt_applyReset (s.setInputs es)
  exact ⟨(s.setInputs es).applyReset, step_reset hinputs, rfl, hctrl, hstatus', herrinfo', rfl, rfl, rfl,
    hgeneral, rfl, rfl, rfl, rfl, rfl, hbytes⟩

end Sys2Proof.Machine
end
